-- ==== Sys2Proof/Word.lean ====
section
/-! DEFINITION. The word types of the codec: a bit, a byte, a tuple of eight bits, and the two
bounded byte sequences the operations take (a Block, a received word). -/

namespace Sys2Proof

/-- A single 0/1 value, one wire of a port (spec/00_scope.md, glossary "Bit"; 40 R116). -/
abbrev Bit := Bool

/-- Eight bits, an unsigned value 0..255 (00 R7). -/
abbrev Byte := BitVec 8

/-- An ordered group of exactly eight bits, element `t` being the `t`-th on the stream (30 R81, 40 R116). -/
abbrev BitTuple := Vector Bit 8

/-- A Block: at most 249 bytes (00 R6, glossary "Block"). Being part of the type, the bound needs no check
at run time: a longer operand cannot be built (42 R153). -/
abbrev Block := { l : List Byte // l.length ≤ 249 }

/-- A received word, the operand of `RS.DEC`: 6 to 255 bytes (43 R170, R182). -/
abbrev RsWord := { l : List Byte // 6 ≤ l.length ∧ l.length ≤ 255 }

/-- The six syndromes `S_0 .. S_5` (43 R173). -/
abbrev Syndromes := Vector Byte 6

end Sys2Proof
end

