-- ==== Sys2Proof/Config.lean ====
section
/-! DEFINITION. What is fixed for the machine: the parameters of spec/00_scope.md R10 and
spec/92_eei_decisions.md section 5 in one record, and the values the spec leaves open. -/

namespace Sys2Proof

/-- `BIT_ORDER` (00 R9, 92 D4): which bit of a byte is first on a bit stream. -/
inductive BitOrder where
  /-- the first bit of a group is bit 0 (weight 1) -/
  | lsbFirst
  /-- the first bit of a group is bit 7 (weight 128) -/
  | msbFirst
deriving DecidableEq, Repr

/-- The coefficient order of a codeword (20 R60, 42 R152, 92 D3). The spec names one value only. -/
inductive CoeffOrder where
  /-- the first byte on the wire is the coefficient of the highest power of x -/
  | highestFirst
deriving DecidableEq, Repr

/-- The parameters of 00 R10. The defaults are the spec's values. -/
structure Config where
  /-- `BLOCK_SIZE`: greatest length of a coded payload (00 R6) -/
  blockSize : Nat := 255
  /-- `ECC_SYMBOLS`: parity symbols per coded payload (00 R6) -/
  eccSymbols : Nat := 6
  /-- `PRIM_POLY`, a 9-bit number (00 R8, 92 D1) -/
  primPoly : BitVec 9 := 0x11D
  /-- `ALPHA`, the primitive element (00 R8, 92 D2) -/
  alpha : Byte := 0x02
  /-- `FCR`, exponent of the first root of the generator polynomial (00 R8, 92 D2) -/
  fcr : Nat := 0
  /-- the coefficient order (00 R8, 92 D3) -/
  coeffOrder : CoeffOrder := .highestFirst
  /-- `BIT_ORDER` (00 R9, 92 D4): `LSB_FIRST` in every rule and vector of the spec; UNVERIFIED, unsafe: whether
  a deployed counterpart uses it the spec cannot say (log 2) -/
  bitOrder : BitOrder := .lsbFirst
deriving DecidableEq, Repr

/-- The parameters of this codec (00 R10). -/
def codec : Config := {}

/-- `MAX_BLOCK = BLOCK_SIZE - ECC_SYMBOLS` (00 R6). -/
def maxBlock : Nat := codec.blockSize - codec.eccSymbols

/-- `T = floor(ECC_SYMBOLS / 2)` (00 R6). -/
def maxErrors : Nat := codec.eccSymbols / 2

/-- The logarithm of zero, which 41 R135 does not define, within 0..255 as 41 R139 bounds every value of the family.
DESIGN CHOICE, safe: a free value (log 16). -/
opaque Config.logOfZero : Byte → Byte

/-- The inverse of zero, which 41 R136 does not define. DESIGN CHOICE, safe: a free value (log 16). -/
opaque Config.invOfZero : Byte → Byte

/-- A quotient by zero, as a function of the dividend, which 41 R137 does not define.
DESIGN CHOICE, safe: a free value (log 16). -/
opaque Config.divByZero : Byte → Byte

end Sys2Proof
end

