-- ==== Sys2Proof/Syntax.lean ====
section
/-! DEFINITION. The instructions: one constructor per row of spec/opcode_table.json, in the table's order. -/

namespace Sys2Proof

/-- The four spaces of encodings (30 R80, R100). The table's rows of different formats share byte values;
what a byte means depends on where it stands. -/
inductive Format where
  /-- the frame byte stream DEC regroups from RXI; the byte is a frame's prefix (30 R82) -/
  | frame
  /-- the bit stream; eight bits, one byte (30 R81) -/
  | bitgroup
  /-- an operation number of 30 R93, a label the spec assigns -/
  | op
  /-- the command register CSR6 (10 R35) -/
  | cmd
deriving DecidableEq, Repr

/-- One constructor per row of spec/opcode_table.json. A FRAME row's first operand is the prefix bits its
mask leaves free, its second the coded payload bytes that arrive for it; a payload shorter than the
prefix says means that the bit stream ends there (45 R221; log 15). -/
inductive Instr where
  /-- FRAME.SHORT, row 0x00 mask 0xFC: prefix 0..3 (30 R85) -/
  | frameShort00 (p : BitVec 2) (payload : List Byte)
  /-- FRAME.SHORT, row 0x04 mask 0xFE: prefix 4..5 (30 R85) -/
  | frameShort04 (p : BitVec 1) (payload : List Byte)
  /-- FRAME.EOF, row 0x06: the empty Block (30 R85, R86) -/
  | frameEof (payload : List Byte)
  /-- FRAME.DATA, row 0x07 (30 R85) -/
  | frameData07 (payload : List Byte)
  /-- FRAME.DATA, row 0x08 mask 0xF8 (30 R85) -/
  | frameData08 (p : BitVec 3) (payload : List Byte)
  /-- FRAME.DATA, row 0x10 mask 0xF0 (30 R85) -/
  | frameData10 (p : BitVec 4) (payload : List Byte)
  /-- FRAME.DATA, row 0x20 mask 0xE0 (30 R85) -/
  | frameData20 (p : BitVec 5) (payload : List Byte)
  /-- FRAME.DATA, row 0x40 mask 0xC0 (30 R85) -/
  | frameData40 (p : BitVec 6) (payload : List Byte)
  /-- FRAME.DATA, row 0x80 mask 0x80 (30 R85) -/
  | frameData80 (p : BitVec 7) (payload : List Byte)
  /-- BITGROUP: eight bits in stream order (30 R81) -/
  | bitgroup (t : BitTuple)
  /-- BP.TOBITS 0x01 (40 R110) -/
  | bpTobits (b : Byte)
  /-- BP.TOBYTE 0x02 (40 R111) -/
  | bpTobyte (t : BitTuple)
  /-- BP.EXPAND 0x03 (40 R114) -/
  | bpExpand (y : List Byte)
  /-- BP.GROUP 0x04 (40 R115) -/
  | bpGroup (x : List Bit)
  /-- GF.ADD 0x10 (41 R131) -/
  | gfAdd (a b : Byte)
  /-- GF.XTIME 0x11 (41 R132) -/
  | gfXtime (a : Byte)
  /-- GF.MUL 0x12 (41 R133) -/
  | gfMul (a b : Byte)
  /-- GF.EXP 0x13, any integer exponent (41 R134) -/
  | gfExp (e : Int)
  /-- GF.LOG 0x14 (41 R135) -/
  | gfLog (a : Byte)
  /-- GF.INV 0x15 (41 R136) -/
  | gfInv (a : Byte)
  /-- GF.DIV 0x16 (41 R137) -/
  | gfDiv (a b : Byte)
  /-- GF.PEVAL 0x17 (41 R138) -/
  | gfPeval (w : List Byte) (v : Byte)
  /-- RS.PARITY 0x20 (42 R153) -/
  | rsParity (m : Block)
  /-- RS.ENC 0x21 (42 R154) -/
  | rsEnc (m : Block)
  /-- RS.SYN 0x28 (43 R173) -/
  | rsSyn (r : List Byte)
  /-- RS.LOCATOR 0x29 (43 R174) -/
  | rsLocator (s : Syndromes)
  /-- RS.CHIEN 0x2A: the locator, low power first, and the word length (43 R175) -/
  | rsChien (c : List Byte) (n : Byte)
  /-- RS.FORNEY 0x2B: syndromes, locator, positions, word length (43 R176) -/
  | rsForney (s : Syndromes) (c : List Byte) (pos : List Byte) (n : Byte)
  /-- RS.DEC 0x2C (43 R170) -/
  | rsDec (r : RsWord)
  /-- FR.SPLIT 0x30 (44 R200) -/
  | frSplit (s : List Byte)
  /-- FR.PACK 0x31 (44 R201) -/
  | frPack (b : Block)
  /-- FR.ENC 0x32 (44 R202) -/
  | frEnc (s : List Byte)
  /-- FR.TAKEPFX 0x38 (45 R220) -/
  | frTakepfx (y : List Byte)
  /-- FR.TAKEPAY 0x39 (45 R221) -/
  | frTakepay (p : Byte) (y : List Byte)
  /-- FR.CHECKLEN 0x3A (45 R222) -/
  | frChecklen (p : Byte)
  /-- FR.MAXUPD 0x3B; a frame's error count is 0..3 (45 R224, 43 R179) -/
  | frMaxupd (e : BitVec 2)
  /-- FR.EOFDET 0x3C (45 R225) -/
  | frEofdet (b : Block)
  /-- FR.DEC 0x3D: the bytes and the current maximum, 0..3 (45 R226) -/
  | frDec (y : List Byte) (m : BitVec 2)
  /-- BS.ENC 0x40 (46 R250) -/
  | bsEnc (s : List Byte)
  /-- BS.DEC 0x41 (46 R251) -/
  | bsDec (z : List Bit)
  /-- ENC.START: a write of CSR6 with bit 0 set; `d` is bit 1, `r` the ignored bits [7:2] (47 R272, 10 R35) -/
  | encStart (d : Bit) (r : BitVec 6)
  /-- DEC.START: a write of CSR6 with bit 1 set; `e` is bit 0, `r` the ignored bits [7:2] (47 R286, 10 R35) -/
  | decStart (e : Bit) (r : BitVec 6)
  /-- CSR.READ 0x82 (47 R299) -/
  | csrRead (k : BitVec 3)
deriving DecidableEq, Repr

/-- The format of an instruction's row (30 R100). -/
def Instr.format : Instr → Format
  | .frameShort00 _ _ | .frameShort04 _ _ | .frameEof _ | .frameData07 _ | .frameData08 _ _
  | .frameData10 _ _ | .frameData20 _ _ | .frameData40 _ _ | .frameData80 _ _ => .frame
  | .bitgroup _ => .bitgroup
  | .encStart _ _ | .decStart _ _ => .cmd
  | .bpTobits _ | .bpTobyte _ | .bpExpand _ | .bpGroup _
  | .gfAdd _ _ | .gfXtime _ | .gfMul _ _ | .gfExp _ | .gfLog _ | .gfInv _ | .gfDiv _ _ | .gfPeval _ _
  | .rsParity _ | .rsEnc _ | .rsSyn _ | .rsLocator _ | .rsChien _ _ | .rsForney _ _ _ _ | .rsDec _
  | .frSplit _ | .frPack _ | .frEnc _ | .frTakepfx _ | .frTakepay _ _ | .frChecklen _ | .frMaxupd _
  | .frEofdet _ | .frDec _ _ | .bsEnc _ | .bsDec _ | .csrRead _ => .op

/-- Who may invoke a row (30 R93, column "level"; the frames and bit groups arrive on a port). -/
inductive Level where
  /-- the host invokes it -/
  | command
  /-- a function used inside an engine step -/
  | inner
  /-- a whole-stream denotation -/
  | stream
  /-- it arrives on the wire -/
  | wire
deriving DecidableEq, Repr

/-- The level of each row (30 R93). -/
def Instr.level : Instr → Level
  | .frameShort00 _ _ | .frameShort04 _ _ | .frameEof _ | .frameData07 _ | .frameData08 _ _
  | .frameData10 _ _ | .frameData20 _ _ | .frameData40 _ _ | .frameData80 _ _ | .bitgroup _ => .wire
  | .encStart _ _ | .decStart _ _ | .csrRead _ => .command
  | .bpExpand _ | .bpGroup _ | .frSplit _ | .frEnc _ | .frDec _ _ | .bsEnc _ | .bsDec _ => .stream
  | .bpTobits _ | .bpTobyte _
  | .gfAdd _ _ | .gfXtime _ | .gfMul _ _ | .gfExp _ | .gfLog _ | .gfInv _ | .gfDiv _ _ | .gfPeval _ _
  | .rsParity _ | .rsEnc _ | .rsSyn _ | .rsLocator _ | .rsChien _ _ | .rsForney _ _ _ _ | .rsDec _
  | .frPack _ | .frTakepfx _ | .frTakepay _ _ | .frChecklen _ | .frMaxupd _ | .frEofdet _ => .inner

end Sys2Proof
end

