-- ==== Sys2Proof/WellFormed.lean ====
section
/-! DEFINITION. Which instruction terms the encodings admit. Most operand ranges of spec/ are in the operand
types of Syntax.lean; what relates two operands, or belongs to the encoding alone, is checked here. -/

namespace Sys2Proof

/-- A frame's payload holds at most the `p` bytes its prefix announces; fewer is a frame cut short (45 R221). -/
def payloadFits (p : Nat) (payload : List Byte) : Bool := payload.length ≤ p

/-- The checks: a frame's payload is no longer than its prefix says (30 R82); the exponent of GF.EXP fits the
32 bits its operand bytes carry (log 8); DEC.START with bit 0 set too is the same word as ENC.START with bit 1 set and is
written as the latter (log 22). -/
def Instr.wf : Instr → Bool
  | .frameShort00 p payload => payloadFits p.toNat payload
  | .frameShort04 p payload => payloadFits (4 + p.toNat) payload
  | .frameEof payload => payloadFits 6 payload
  | .frameData07 payload => payloadFits 7 payload
  | .frameData08 p payload => payloadFits (8 + p.toNat) payload
  | .frameData10 p payload => payloadFits (16 + p.toNat) payload
  | .frameData20 p payload => payloadFits (32 + p.toNat) payload
  | .frameData40 p payload => payloadFits (64 + p.toNat) payload
  | .frameData80 p payload => payloadFits (128 + p.toNat) payload
  | .gfExp e => -(2 ^ 31) ≤ e && e < 2 ^ 31
  | .decStart e _ => !e
  | .bitgroup _ | .bpTobits _ | .bpTobyte _ | .bpExpand _ | .bpGroup _
  | .gfAdd _ _ | .gfXtime _ | .gfMul _ _ | .gfLog _ | .gfInv _ | .gfDiv _ _ | .gfPeval _ _
  | .rsParity _ | .rsEnc _ | .rsSyn _ | .rsLocator _ | .rsChien _ _ | .rsForney _ _ _ _ | .rsDec _
  | .frSplit _ | .frPack _ | .frEnc _ | .frTakepfx _ | .frTakepay _ _ | .frChecklen _ | .frMaxupd _
  | .frEofdet _ | .frDec _ _ | .bsEnc _ | .bsDec _ | .encStart _ _ | .csrRead _ => true

/-- An instruction term that an encoding stands for. -/
abbrev Instr.WellFormed (i : Instr) : Prop := i.wf = true

end Sys2Proof
end

