-- ==== Sys2Proof/Decode.lean ====
section
/-! DEFINITION. From bytes to instructions, per format, total and rejecting by name; and the encoder.
FRAME, BITGROUP and CMD are the spec's own encodings (30 R81, R82, R85; 10 R35). An operation has of the
spec only its number (30 R93); the bytes that carry its operands are this model's (log 8). -/

namespace Sys2Proof

/-- Why bytes are no instruction. Only an unknown operation number stops the machine; what the two others do says
`runNoInstruction` of Machine/Frames.lean. -/
inductive DecodeError where
  /-- there is no first byte -/
  | noBytes
  /-- an operation number that 30 R93 does not list -/
  | unknownOperation (number : Byte)
  /-- a CMD word with neither START bit set: a write without effect (10 R35), no row of the table -/
  | noStartBit
deriving DecidableEq, Repr

/-- A decoder takes an instruction off the front of the bytes and gives the rest. -/
abbrev Decoder := List Byte → Except DecodeError (Instr × List Byte)

/-- A reader takes an operand off the front of the bytes and gives the rest. Every bytes hold an operand: bytes that are
not there read as 0x00 (log 8). -/
abbrev Reader (α : Type) := List Byte → α × List Byte

/-- One byte. -/
def readByte : Reader Byte := fun bytes => (bytes.getD 0 0x00, bytes.drop 1)

/-- `n` bytes. -/
def readBytes (n : Nat) : Reader (Vector Byte n) := fun bytes =>
  (Vector.ofFn (fun i : Fin n => bytes.getD i 0x00), bytes.drop n)

/-- A sequence of any length: a mark that is not 0x00 before each element, mark 0x00 after the last (log 8). -/
def readSeq : Reader (List Byte)
  | [] => ([], [])
  | mark :: rest =>
    if mark = 0 then ([], rest)
    else
      match rest with
      | [] => ([0x00], [])
      | b :: rest' => (b :: (readSeq rest').1, (readSeq rest').2)

/-- A sequence of bits, each bit 0 of one byte. -/
def readBits : Reader (List Bit) := fun bytes => ((readSeq bytes).1.map (·.getLsbD 0), (readSeq bytes).2)

/-- A Block: a sequence, of which the first 249 bytes are the Block. -/
def readBlock : Reader Block := fun bytes =>
  (⟨(readSeq bytes).1.take 249, by simp⟩, (readSeq bytes).2)

/-- A received word: its length less 6 in one byte, at most 249, then its bytes. -/
def readWord : Reader RsWord := fun bytes =>
  let n := 6 + min (bytes.getD 0 0x00).toNat 249
  (⟨(readBytes n (bytes.drop 1)).1.toList, by simp [n]; omega⟩, (readBytes n (bytes.drop 1)).2)

/-- The six syndromes. -/
def readSyndromes : Reader Syndromes := readBytes 6

/-- An integer: 32 bits in two's complement, low byte first. -/
def readInt : Reader Int := fun bytes =>
  ((bytes.getD 3 0x00 ++ bytes.getD 2 0x00 ++ bytes.getD 1 0x00 ++ bytes.getD 0 0x00 : BitVec 32).toInt, bytes.drop 4)

/-- An error count, 0..3: the low two bits of a byte. -/
def readCount : Reader (BitVec 2) := fun bytes => ((bytes.getD 0 0x00).setWidth 2, bytes.drop 1)

/-- A CSR number, 0..7: the low three bits of a byte, as `csr_sel` has three wires (20 R55). -/
def readCsrNumber : Reader (BitVec 3) := fun bytes => ((bytes.getD 0 0x00).setWidth 3, bytes.drop 1)

/-- Bit `k` of the byte is element `k` of the tuple: the byte numbers a bit group's stream positions. -/
def tupleOfByte (b : Byte) : BitTuple :=
  #v[b.getLsbD 0, b.getLsbD 1, b.getLsbD 2, b.getLsbD 3, b.getLsbD 4, b.getLsbD 5, b.getLsbD 6, b.getLsbD 7]

/-- The byte whose bit `k` is element `k` of the tuple. -/
def byteOfTuple (t : BitTuple) : Byte :=
  BitVec.ofBool t[7] ++ BitVec.ofBool t[6] ++ BitVec.ofBool t[5] ++ BitVec.ofBool t[4] ++
    BitVec.ofBool t[3] ++ BitVec.ofBool t[2] ++ BitVec.ofBool t[1] ++ BitVec.ofBool t[0]

/-- The row of the FRAME classes a prefix selects, by the masks of 30 R85, applied to the payload. -/
def frameOf (p : Byte) (payload : List Byte) : Instr :=
  if p &&& 0xFC = 0x00 then .frameShort00 (p.setWidth 2) payload
  else if p &&& 0xFE = 0x04 then .frameShort04 (p.setWidth 1) payload
  else if p = 0x06 then .frameEof payload
  else if p = 0x07 then .frameData07 payload
  else if p &&& 0xF8 = 0x08 then .frameData08 (p.setWidth 3) payload
  else if p &&& 0xF0 = 0x10 then .frameData10 (p.setWidth 4) payload
  else if p &&& 0xE0 = 0x20 then .frameData20 (p.setWidth 5) payload
  else if p &&& 0xC0 = 0x40 then .frameData40 (p.setWidth 6) payload
  else .frameData80 (p.setWidth 7) payload

/-- The three classes of frames (30 R85). -/
inductive FrameClass where
  /-- prefix 0..5 -/
  | short
  /-- prefix 6 -/
  | eof
  /-- prefix 7..255 -/
  | data
deriving DecidableEq, Repr

/-- The class an instruction's row belongs to; none where it is no frame (30 R85). -/
def frameClass : Instr → Option FrameClass
  | .frameShort00 _ _ | .frameShort04 _ _ => some .short
  | .frameEof _ => some .eof
  | .frameData07 _ | .frameData08 _ _ | .frameData10 _ _ | .frameData20 _ _ | .frameData40 _ _
  | .frameData80 _ _ => some .data
  | _ => none

/-- A frame: its prefix `p`, then `p` payload bytes, or as many as there are (30 R82, R87). -/
def decodeFrameBytes : Decoder
  | [] => .error .noBytes
  | p :: rest => .ok (frameOf p (rest.take p.toNat), rest.drop p.toNat)

/-- A bit group: bit `k` of the byte stands for stream position `k` (30 R81). All 256 are valid. -/
def decodeGroup : Decoder
  | [] => .error .noBytes
  | b :: rest => .ok (.bitgroup (tupleOfByte b), rest)

/-- A word written to CSR6 (10 R35, 30 R94). Where both START bits are set the word is ENC.START with
`d` set (log 22). -/
def decodeCmd : Decoder
  | [] => .error .noBytes
  | b :: rest =>
    if b.getLsbD 0 then .ok (.encStart (b.getLsbD 1) (b.extractLsb' 2 6), rest)
    else if b.getLsbD 1 then .ok (.decStart false (b.extractLsb' 2 6), rest)
    else .error .noStartBit

/-- The operands of RS.FORNEY: syndromes, word length, locator, positions. -/
def readForney : Reader Instr := fun bytes =>
  let (s, rest) := readSyndromes bytes
  let (n, rest) := readByte rest
  let (c, rest) := readSeq rest
  let (pos, rest) := readSeq rest
  (.rsForney s c pos n, rest)

/-- An operation made of one operand. -/
def readOne {α : Type} (read : Reader α) (make : α → Instr) : Reader Instr := fun bytes =>
  (make (read bytes).1, (read bytes).2)

/-- An operation made of two operands, the first read first. -/
def readTwo {α β : Type} (read : Reader α) (read' : Reader β) (make : α → β → Instr) : Reader Instr := fun bytes =>
  (make (read bytes).1 (read' (read bytes).2).1, (read' (read bytes).2).2)

/-- The operands of the operation with this number (30 R93). The two START commands have numbers too. -/
def readOperands (number : Byte) : Decoder := fun bytes =>
  if number = 0x01 then .ok (readOne readByte .bpTobits bytes)
  else if number = 0x02 then .ok (readOne readByte (fun b => .bpTobyte (tupleOfByte b)) bytes)
  else if number = 0x03 then .ok (readOne readSeq .bpExpand bytes)
  else if number = 0x04 then .ok (readOne readBits .bpGroup bytes)
  else if number = 0x10 then .ok (readTwo readByte readByte .gfAdd bytes)
  else if number = 0x11 then .ok (readOne readByte .gfXtime bytes)
  else if number = 0x12 then .ok (readTwo readByte readByte .gfMul bytes)
  else if number = 0x13 then .ok (readOne readInt .gfExp bytes)
  else if number = 0x14 then .ok (readOne readByte .gfLog bytes)
  else if number = 0x15 then .ok (readOne readByte .gfInv bytes)
  else if number = 0x16 then .ok (readTwo readByte readByte .gfDiv bytes)
  else if number = 0x17 then .ok (readTwo readByte readSeq (fun v w => .gfPeval w v) bytes)
  else if number = 0x20 then .ok (readOne readBlock .rsParity bytes)
  else if number = 0x21 then .ok (readOne readBlock .rsEnc bytes)
  else if number = 0x28 then .ok (readOne readSeq .rsSyn bytes)
  else if number = 0x29 then .ok (readOne readSyndromes .rsLocator bytes)
  else if number = 0x2A then .ok (readTwo readByte readSeq (fun n c => .rsChien c n) bytes)
  else if number = 0x2B then .ok (readForney bytes)
  else if number = 0x2C then .ok (readOne readWord .rsDec bytes)
  else if number = 0x30 then .ok (readOne readSeq .frSplit bytes)
  else if number = 0x31 then .ok (readOne readBlock .frPack bytes)
  else if number = 0x32 then .ok (readOne readSeq .frEnc bytes)
  else if number = 0x38 then .ok (readOne readSeq .frTakepfx bytes)
  else if number = 0x39 then .ok (readTwo readByte readSeq .frTakepay bytes)
  else if number = 0x3A then .ok (readOne readByte .frChecklen bytes)
  else if number = 0x3B then .ok (readOne readCount .frMaxupd bytes)
  else if number = 0x3C then .ok (readOne readBlock .frEofdet bytes)
  else if number = 0x3D then .ok (readTwo readCount readSeq (fun m y => .frDec y m) bytes)
  else if number = 0x40 then .ok (readOne readSeq .bsEnc bytes)
  else if number = 0x41 then .ok (readOne readBits .bsDec bytes)
  else if number = 0x80 then .ok (.encStart false 0, bytes)
  else if number = 0x81 then .ok (.decStart false 0, bytes)
  else if number = 0x82 then .ok (readOne readCsrNumber .csrRead bytes)
  else .error (.unknownOperation number)

/-- An operation: its number, then its operands. -/
def decodeOp : Decoder
  | [] => .error .noBytes
  | number :: rest => readOperands number rest

/-- The decoder: total on any bytes of any format; it gives the instruction and the bytes after it. -/
def decode (f : Format) (bytes : List Byte) : Except DecodeError (Instr × List Byte) :=
  match f with
  | .frame => decodeFrameBytes bytes
  | .bitgroup => decodeGroup bytes
  | .op => decodeOp bytes
  | .cmd => decodeCmd bytes

/-! ### The encoder -/

/-- A sequence as `readSeq` reads it. -/
def writeSeq : List Byte → List Byte
  | [] => [0]
  | b :: rest => 1 :: b :: writeSeq rest

/-- A bit as one byte. -/
def writeBit (b : Bit) : Byte := if b then 1 else 0

/-- An integer as `readInt` reads it. -/
def writeInt (e : Int) : List Byte :=
  let v := BitVec.ofInt 32 e
  [v.extractLsb' 0 8, v.extractLsb' 8 8, v.extractLsb' 16 8, v.extractLsb' 24 8]

/-- The prefix byte of a FRAME row: the row's match with the free bits below it (30 R85). -/
def pfxShort00 (p : BitVec 2) : Byte := p.setWidth 8
/-- See `pfxShort00`. -/
def pfxShort04 (p : BitVec 1) : Byte := 0x04 ||| p.setWidth 8
/-- See `pfxShort00`. -/
def pfxData08 (p : BitVec 3) : Byte := 0x08 ||| p.setWidth 8
/-- See `pfxShort00`. -/
def pfxData10 (p : BitVec 4) : Byte := 0x10 ||| p.setWidth 8
/-- See `pfxShort00`. -/
def pfxData20 (p : BitVec 5) : Byte := 0x20 ||| p.setWidth 8
/-- See `pfxShort00`. -/
def pfxData40 (p : BitVec 6) : Byte := 0x40 ||| p.setWidth 8
/-- See `pfxShort00`. -/
def pfxData80 (p : BitVec 7) : Byte := 0x80 ||| p.setWidth 8

/-- The bytes of an instruction in its own format. -/
def encode : Instr → List Byte
  | .frameShort00 p w => pfxShort00 p :: w
  | .frameShort04 p w => pfxShort04 p :: w
  | .frameEof w => 0x06 :: w
  | .frameData07 w => 0x07 :: w
  | .frameData08 p w => pfxData08 p :: w
  | .frameData10 p w => pfxData10 p :: w
  | .frameData20 p w => pfxData20 p :: w
  | .frameData40 p w => pfxData40 p :: w
  | .frameData80 p w => pfxData80 p :: w
  | .bitgroup t => [byteOfTuple t]
  | .bpTobits b => [0x01, b]
  | .bpTobyte t => [0x02, byteOfTuple t]
  | .bpExpand y => 0x03 :: writeSeq y
  | .bpGroup x => 0x04 :: writeSeq (x.map writeBit)
  | .gfAdd a b => [0x10, a, b]
  | .gfXtime a => [0x11, a]
  | .gfMul a b => [0x12, a, b]
  | .gfExp e => 0x13 :: writeInt e
  | .gfLog a => [0x14, a]
  | .gfInv a => [0x15, a]
  | .gfDiv a b => [0x16, a, b]
  | .gfPeval w v => 0x17 :: v :: writeSeq w
  | .rsParity m => 0x20 :: writeSeq m.val
  | .rsEnc m => 0x21 :: writeSeq m.val
  | .rsSyn r => 0x28 :: writeSeq r
  | .rsLocator s => 0x29 :: s.toList
  | .rsChien c n => 0x2A :: n :: writeSeq c
  | .rsForney s c pos n => 0x2B :: (s.toList ++ n :: (writeSeq c ++ writeSeq pos))
  | .rsDec r => 0x2C :: BitVec.ofNat 8 (r.val.length - 6) :: r.val
  | .frSplit s => 0x30 :: writeSeq s
  | .frPack b => 0x31 :: writeSeq b.val
  | .frEnc s => 0x32 :: writeSeq s
  | .frTakepfx y => 0x38 :: writeSeq y
  | .frTakepay p y => 0x39 :: p :: writeSeq y
  | .frChecklen p => [0x3A, p]
  | .frMaxupd e => [0x3B, e.setWidth 8]
  | .frEofdet b => 0x3C :: writeSeq b.val
  | .frDec y m => 0x3D :: m.setWidth 8 :: writeSeq y
  | .bsEnc s => 0x40 :: writeSeq s
  | .bsDec z => 0x41 :: writeSeq (z.map writeBit)
  | .encStart d r => [r ++ BitVec.ofBool d ++ 1#1]
  | .decStart e r => [r ++ 1#1 ++ BitVec.ofBool e]
  | .csrRead k => [0x82, k.setWidth 8]

/-! ### Words of the opcode table -/

/-- The numbers of the table's OP rows (30 R93, R100). -/
def tableOps : List Nat :=
  [0x01, 0x02, 0x03, 0x04, 0x10, 0x11, 0x12, 0x13, 0x14, 0x15, 0x16, 0x17, 0x20, 0x21, 0x28, 0x29, 0x2A, 0x2B,
    0x2C, 0x30, 0x31, 0x32, 0x38, 0x39, 0x3A, 0x3B, 0x3C, 0x3D, 0x40, 0x41, 0x82]

/-- The format in which a bare word of the table is read. The four formats share their byte values, so a byte
alone does not name its row; the row with the most fixed bits is taken, which is an OP row where the
table has one and the FRAME row of the prefix otherwise. DESIGN CHOICE (log 7). -/
def tableFormat (w : Nat) : Format := if tableOps.contains (w % 256) then .op else .frame

/-- Greatest number of bytes of an encoding the spec gives: a frame of 256 bytes (30 R82). -/
def longestBytes : Nat := 256

/-- The bytes of a word of the table, low byte first, with zeros after it. -/
def tableBytes (nbits w : Nat) : List Byte :=
  let k := (nbits + 7) / 8
  (List.range k).map (fun i => BitVec.ofNat 8 (w >>> (8 * i))) ++ List.replicate (longestBytes - k) 0

/-- The instruction the decoder reads from a word of the opcode table. -/
def decodeTableWord (nbits w : Nat) : Option Instr :=
  match decode (tableFormat w) (tableBytes nbits w) with
  | .ok (i, _) => some i
  | .error _ => none

end Sys2Proof
end

