-- ==== Sys2Proof/Machine/State.lean ====
section
/-! DEFINITION. The state of the codec: the registers of both engines (10 R22 to R27, R36), the four port
records (20 R52, R53; 47 R270), and two fields of the model's own, the agenda (log 4) and the result (log 9). -/

namespace Sys2Proof.Machine

/-! ### Engine states, faults, events -/

/-- `ENC.ST`, 3 bits (10 R25, R26). The reserved codes 5..7 are not representable; they are never entered (47 R271). -/
inductive EncState where
  /-- 0 `E_IDLE`: no session -/
  | idle
  /-- 1 `E_FILL`: collecting a Block from TXI -/
  | fill
  /-- 2 `E_CODE`: Block complete; building the frame -/
  | code
  /-- 3 `E_SHIFT`: shifting the frame out on TXO -/
  | shift
  /-- 4 `E_DONE`: EOF frame fully emitted; TXO presents `End` -/
  | done
deriving DecidableEq, Repr

/-- `DEC.ST`, 3 bits (10 R25, R26). The reserved code 7 is not representable; it is never entered (47 R271). -/
inductive DecState where
  /-- 0 `D_IDLE`: no session -/
  | idle
  /-- 1 `D_PREFIX`: regrouping the bits of a prefix byte -/
  | pfx
  /-- 2 `D_PAYLOAD`: regrouping the bytes of a coded payload -/
  | payload
  /-- 3 `D_DECODE`: frame complete; checking and decoding it -/
  | decode
  /-- 4 `D_DRAIN`: emitting the recovered Block -/
  | drain
  /-- 5 `D_DONE`: EOF frame seen; RXO presents `End` -/
  | done
  /-- 6 `D_FAULT`: a fault was raised; RXO presents `Fault` -/
  | fault
deriving DecidableEq, Repr

/-- The architectural faults of the codec (60 R311). They are raised by DEC and are next states, not stops. -/
inductive FaultKind where
  /-- code 1: RXI ended where a prefix was expected (60 R312) -/
  | truncatedPrefix
  /-- code 2: RXI ended before the payload was complete (60 R313) -/
  | truncatedPayload
  /-- code 3: no codeword within 3 symbol errors (60 R314) -/
  | uncorrectable
  /-- code 4: a complete frame whose prefix is below 6 (60 R315) -/
  | frameTooShort
deriving DecidableEq, Repr

/-- The events of TXO (20 R53). -/
inductive TxoEvent where
  /-- `Bit(v)` -/
  | bit (v : Bit)
  /-- `End` -/
  | endMark
deriving DecidableEq, Repr

/-- The events of RXO (20 R53, 30 R90). -/
inductive RxoEvent where
  /-- `Byte(v, last)` -/
  | byte (v : Byte) (last : Bool)
  /-- `End` -/
  | endMark
  /-- `Fault(code)` -/
  | fault (code : BitVec 3)
deriving DecidableEq, Repr

/-- An input port record (20 R52) with its history counter (10 R26). -/
structure InPort (α : Type) where
  /-- elements offered and not yet taken, first to be taken first -/
  queue : List α := []
  /-- the host has declared the stream exhausted -/
  ended : Bool := false
  /-- elements taken in this session (history counter) -/
  n : Nat := 0
deriving DecidableEq, Repr

/-- An output port record (20 R53) with its history counter (10 R26). -/
structure OutPort (α : Type) where
  /-- events emitted in this session, oldest first -/
  trace : List α := []
  /-- elements asked for and not yet received -/
  demand : Nat := 0
  /-- elements emitted in this session (history counter; terminal events are not counted, 47 R280, R297) -/
  n : Nat := 0
deriving DecidableEq, Repr

/-! ### The engines -/

/-- ENC: its registers (10 R22, R25, R27) and its two ports. The defaults are the reset values of 10 R43;
where R43 says "unspecified" the default is zero, DESIGN CHOICE, unsafe (log 1). -/
structure Enc where
  /-- `ENC.ST` -/
  st : EncState := .idle
  /-- `ENC.BLK[0..248]`; unspecified at reset (log 1) -/
  blk : Vector Byte 249 := Vector.replicate 249 0
  /-- `ENC.BLEN`, values 0..249 -/
  blen : BitVec 8 := 0
  /-- `ENC.FR[0..255]`; unspecified at reset (log 1) -/
  fr : Vector Byte 256 := Vector.replicate 256 0
  /-- `ENC.FLEN`, values 7..256; unspecified at reset (log 1) -/
  flen : BitVec 9 := 0
  /-- `ENC.BYI` -/
  byi : BitVec 8 := 0
  /-- `ENC.BII` -/
  bii : BitVec 3 := 0
  /-- `ENC.SRCEND` -/
  srcend : Bool := false
  /-- `ENC.LASTF` -/
  lastf : Bool := false
  /-- port TXI -/
  txi : InPort Byte := {}
  /-- port TXO -/
  txo : OutPort TxoEvent := {}
deriving DecidableEq, Repr

/-- DEC: its registers (10 R23, R25, R27, R36) and its two ports. The defaults are the reset values of 10 R43;
where R43 says "unspecified" the default is zero, DESIGN CHOICE, unsafe (log 1). -/
structure Dec where
  /-- `DEC.ST` -/
  st : DecState := .idle
  /-- `DEC.ACC`; unspecified at reset (log 1) -/
  acc : BitVec 8 := 0
  /-- `DEC.NB` -/
  nb : BitVec 3 := 0
  /-- `DEC.PFX`; unspecified at reset (log 1) -/
  pfx : BitVec 8 := 0
  /-- `DEC.CNT` -/
  cnt : BitVec 8 := 0
  /-- `DEC.BUF[0..254]`; unspecified at reset (log 1) -/
  buf : Vector Byte 255 := Vector.replicate 255 0
  /-- `DEC.OLEN`, values 1..249; unspecified at reset (log 1) -/
  olen : BitVec 8 := 0
  /-- `DEC.OI`, values 0..248 -/
  oi : BitVec 8 := 0
  /-- `DEC.MAXERR`, values 0..3 -/
  maxerr : BitVec 8 := 0
  /-- `DEC.FAULT`, the code of the fault that ended the session, 0 when none -/
  fault : BitVec 3 := 0
  /-- `DEC.REPORT` -/
  report : Bool := false
  /-- port RXI -/
  rxi : InPort Bit := {}
  /-- port RXO -/
  rxo : OutPort RxoEvent := {}
deriving DecidableEq, Repr

/-! ### Results of operations -/

/-- What `RS.DEC` answers (43 R170). -/
inductive RsResult where
  /-- `Ok(B, e)` -/
  | ok (block : List Byte) (e : Nat)
  /-- `Uncorrectable` -/
  | uncorrectable
deriving DecidableEq, Repr

/-- The outcome of a decoded stream (45 R226). -/
inductive StreamEnd where
  /-- `Done` -/
  | done
  /-- `Fault(F)` -/
  | fault (f : FaultKind)
deriving DecidableEq, Repr

/-- What `FR.DEC` and `BS.DEC` answer (45 R226, 46 R251). -/
structure StreamResult where
  /-- the Blocks yielded, in order -/
  blocks : List (List Byte)
  /-- the outcome -/
  outcome : StreamEnd
  /-- the final maximum -/
  maxerr : Nat
  /-- bytes consumed (`FR.DEC`) or bits consumed (`BS.DEC`) -/
  consumed : Nat
deriving DecidableEq, Repr

/-- The result of the operation last run. The spec gives an operation a result (30 R93) and no register to hold
it; this is the model's own place for it. DESIGN CHOICE (log 9). -/
inductive OpResult where
  | none
  | bits (l : List Bit)
  | byte (b : Byte)
  | bytes (l : List Byte)
  | byteSeqs (l : List (List Byte))
  | exponent (e : Nat)
  | locator (c : List Byte) (degree : Nat)
  | positions (l : List Nat)
  /-- `none` is the failure of RS.FORNEY (43 R176) -/
  | magnitudes (l : Option (List Byte))
  | rsDec (r : RsResult)
  /-- the prefix and the stream after it (45 R220) -/
  | taken (p : Byte) (rest : List Byte)
  /-- the coded payload and the stream after it (45 R221) -/
  | takenPayload (w rest : List Byte)
  /-- FR.CHECKLEN's `ok` (45 R222) -/
  | lengthOk
  | flag (b : Bool)
  /-- the fault an operation answers where it is not part of a step of DEC (60 R310; log 10) -/
  | raised (f : FaultKind)
  | stream (r : StreamResult)
deriving DecidableEq, Repr

/-! ### Moves -/

/-- What can happen next: a host move (70 R362), an engine's turn (47 R270), or an instruction of the opcode
table, as bytes of its format. -/
inductive Move where
  /-- reset (70 R350) -/
  | reset
  /-- ENC takes its enabled step, if it has one (47 R273 to R280) -/
  | encTurn
  /-- DEC takes its enabled step, if it has one (47 R288 to R298) -/
  | decTurn
  /-- offer a byte on TXI (20 R52) -/
  | offerTxi (b : Byte)
  /-- declare TXI ended (20 R52) -/
  | endTxi
  /-- raise demand on TXO (20 R53) -/
  | demandTxo
  /-- offer a bit on RXI (20 R52) -/
  | offerRxi (b : Bit)
  /-- declare RXI ended (20 R52) -/
  | endRxi
  /-- raise demand on RXO (20 R53) -/
  | demandRxo
  /-- write a CSR (10 R35, 47 R299) -/
  | csrWrite (k : BitVec 3) (v : Byte)
  /-- run the instruction these bytes of this format encode -/
  | instr (f : Format) (bytes : List Byte)
deriving DecidableEq, Repr

/-! ### The state -/

/-- The whole machine. -/
structure State where
  /-- the encode engine -/
  enc : Enc := {}
  /-- the decode engine -/
  dec : Dec := {}
  /-- the result of the operation last run; the model's own field (log 9) -/
  result : OpResult := .none
  /-- the moves still to be made, the next one first; the model's own field (log 4) -/
  agenda : List Move := []
deriving DecidableEq, Repr

/-- Right after reset (10 R43, 70 R350, R351): both engines idle, flags and counters 0, port records empty.
The registers R43 leaves unspecified are zero, DESIGN CHOICE, unsafe (log 1). -/
def State.reset : State := {}

/-- Why a step stops. The codec's own faults are next states (`FaultKind`); this is the model's. -/
inductive Fault where
  /-- A buffer is accessed at an index it does not have: by ENC in `E_CODE` with `BLEN > 249`, by DEC when a payload
  byte completes with `CNT = 255` or a byte is drained with `OI = 255`. 20 R51 says the index is always in
  range, so no run from reset reaches it. Safe (log 20). -/
  | bufferIndex
deriving DecidableEq, Repr

/-- Why a step is refused. -/
inductive Refusal where
  /-- The instruction has no meaning in this model yet. Raised by an arm of `exec` only; none does. Safe. -/
  | notModelled (mnemonic : String)
  /-- The bytes to be run name an operation number that 30 R93 does not list: no operation of the codec (30 R94), and no
  wire or register carries such a number. Raised by `runNoInstruction`. Safe (log 8). -/
  | noSuchOperation (number : Byte)
deriving DecidableEq, Repr

/-- The outcome of a step of this machine. -/
abbrev Result : Type := Host.Outcome State Fault Refusal

end Sys2Proof.Machine
end

