-- ==== Sys2Proof/Machine/Operands.lean ====
section
/-! DEFINITION. The places an operand comes from and a result goes to: the port primitives `Pull` and `Emit`
(20 R52, R53) and the engines' buffers (10 R22, R23). -/

namespace Sys2Proof.Machine

/-- What `Pull(P)` returns (20 R52). -/
inductive Pulled (α : Type) where
  /-- `Elem(v)` -/
  | elem (v : α)
  /-- `End` -/
  | endMark
deriving DecidableEq, Repr

/-- `Pull(P)`: the first queued element, or `End` when the queue is empty and the stream declared ended; not
enabled, `none`, otherwise (20 R52). The history counter counts elements (47 R273, R288). -/
def pull {α : Type} (p : InPort α) : Option (Pulled α × InPort α) :=
  match p.queue with
  | v :: rest => some (.elem v, { p with queue := rest, n := p.n + 1 })
  | [] => if p.ended then some (.endMark, p) else none

/-- `Emit(P, e)` of a non-terminal event: it is appended and one unit of demand is served (20 R53). Its
guard, `demand > 0`, is the step's. -/
def emit {α : Type} (e : α) (p : OutPort α) : OutPort α :=
  { p with trace := p.trace ++ [e], demand := p.demand - 1, n := p.n + 1 }

/-- A terminal event given to one demand: the trace gets it once, the demand is served each time
(20 R53; 47 R280, R297, R298). -/
def present {α : Type} [DecidableEq α] (e : α) (p : OutPort α) : OutPort α :=
  { p with
    trace := if p.trace.getLast? = some e then p.trace else p.trace ++ [e]
    demand := p.demand - 1 }

/-- The host offers elements, in order; ignored after the end was declared (20 R52, 70 R362). -/
def offer {α : Type} (l : List α) (p : InPort α) : InPort α :=
  if p.ended then p else { p with queue := p.queue ++ l }

/-- The host declares the stream exhausted; a second declaration changes nothing (20 R52, 70 R362). -/
def declareEnd {α : Type} (p : InPort α) : InPort α := { p with ended := true }

/-- The consumer asks for one more element (20 R53). -/
def raiseDemand {α : Type} (p : OutPort α) : OutPort α := { p with demand := p.demand + 1 }

/-- The first `k` elements of a buffer register. -/
def bufTake {n : Nat} (v : Vector Byte n) (k : Nat) : List Byte := v.toList.take k

/-- Element `i` of a buffer register; callers check `i` against the buffer's size where its width does not
bound it (log 20). -/
def bufGet {n : Nat} (v : Vector Byte n) (i : Nat) : Byte := v[i]?.getD 0

/-- A buffer register with element `i` written. -/
def bufSet {n : Nat} (v : Vector Byte n) (i : Nat) (b : Byte) : Vector Byte n := v.setIfInBounds i b

/-- A buffer register with `l` written from element 0 on; the elements after it stay. -/
def bufFill {n : Nat} (v : Vector Byte n) (l : List Byte) : Vector Byte n :=
  ⟨((l.take n) ++ v.toList.drop l.length).toArray, by simp; omega⟩

end Sys2Proof.Machine
end

