-- ==== Sys2Proof/Machine/Flags.lean ====
section
/-! DEFINITION. Every flag of the codec (10 R27) and the control and status registers that show them
(10 R28 to R35). -/

namespace Sys2Proof.Machine

/-- The code of `ENC.ST` (10 R26). -/
def encStateCode : EncState → BitVec 3
  | .idle => 0 | .fill => 1 | .code => 2 | .shift => 3 | .done => 4

/-- The code of `DEC.ST` (10 R26). -/
def decStateCode : DecState → BitVec 3
  | .idle => 0 | .pfx => 1 | .payload => 2 | .decode => 3 | .drain => 4 | .done => 5 | .fault => 6

/-- The code of a fault (60 R311). -/
def faultCode : FaultKind → BitVec 3
  | .truncatedPrefix => 1 | .truncatedPayload => 2 | .uncorrectable => 3 | .frameTooShort => 4

/-- `DONE` of ENC: `ENC.ST = E_DONE` (10 R27). -/
def encDone (e : Enc) : Bool := e.st == .done

/-- `DONE` of DEC: `DEC.ST = D_DONE` (10 R27). -/
def decDone (d : Dec) : Bool := d.st == .done

/-- `FAULTED` of DEC: `DEC.ST = D_FAULT` (10 R27). -/
def decFaulted (d : Dec) : Bool := d.st == .fault

/-- The value `DEC.REPORT` takes when the end of the stream is detected: `MAXERR != 0` (47 R292, 45 R233). -/
def reportFlag (maxerr : BitVec 8) : Bool := maxerr != 0

/-- The value `ENC.LASTF` takes in `E_CODE`: `BLEN = 0` (47 R275). -/
def lastFrameFlag (blen : BitVec 8) : Bool := blen == 0

/-- CSR0 `ECCSYM`, hardwired to `ECC_SYMBOLS` (10 R29). -/
def csrEccsym : Byte := BitVec.ofNat 8 codec.eccSymbols

/-- CSR1 `BLOCKSZ`, hardwired to `BLOCK_SIZE` (10 R30). -/
def csrBlocksz : Byte := BitVec.ofNat 8 codec.blockSize

/-- CSR2 `ENC_STATUS`: bits [7:6] 0, [5] LASTF, [4] SRCEND, [3] DONE, [2:0] ST (10 R31). -/
def csrEncStatus (e : Enc) : Byte :=
  0#2 ++ BitVec.ofBool e.lastf ++ BitVec.ofBool e.srcend ++ BitVec.ofBool (encDone e) ++ encStateCode e.st

/-- CSR3 `DEC_STATUS`: bits [7:6] 0, [5] REPORT, [4] FAULTED, [3] DONE, [2:0] ST (10 R32). -/
def csrDecStatus (d : Dec) : Byte :=
  0#2 ++ BitVec.ofBool d.report ++ BitVec.ofBool (decFaulted d) ++ BitVec.ofBool (decDone d) ++ decStateCode d.st

/-- CSR4 `DEC_FAULT`: bits [7:3] 0, [2:0] the fault code (10 R33). -/
def csrDecFault (d : Dec) : Byte := 0#5 ++ d.fault

/-- CSR5 `DEC_MAXERR` (10 R34). -/
def csrDecMaxerr (d : Dec) : Byte := d.maxerr

/-- The value of CSR number `k` as the registers stand; 6 and 7 read 0x00 (47 R299). -/
def csrValue (k : BitVec 3) (s : State) : Byte :=
  if k = 0 then csrEccsym
  else if k = 1 then csrBlocksz
  else if k = 2 then csrEncStatus s.enc
  else if k = 3 then csrDecStatus s.dec
  else if k = 4 then csrDecFault s.dec
  else if k = 5 then csrDecMaxerr s.dec
  else 0x00

end Sys2Proof.Machine
end

