-- ==== Sys2Proof/Machine/Ops.lean ====
section
/-! DEFINITION. The named operations on the engines' registers that more than one meaning shares: taking an
exception (60 R316), the only ways out of it (60 R321), the START commands (47 R272, R286) and reset (70 R350). -/

namespace Sys2Proof.Machine

/-- `raise F`, the codec's trap entry (60 R316): `DEC.FAULT <- code(F)`, `DEC.ST <- D_FAULT`, `DEC.NB <- 0`, and
nothing else. There is no saved pc, no saved status, no vector; control goes to the state `D_FAULT`. -/
def raiseFault (f : FaultKind) (d : Dec) : Dec := { d with fault := faultCode f, st := .fault, nb := 0 }

/-- The effect of DEC.START (47 R286). It is also the only way out of `D_FAULT` and `D_DONE` besides reset:
there is no return from a fault (60 R321). -/
def startDec (d : Dec) : Dec :=
  { d with
    st := .pfx, nb := 0, cnt := 0, oi := 0, maxerr := 0, fault := 0, report := false, rxi := {}, rxo := {} }

/-- The effect of ENC.START (47 R272). -/
def startEnc (e : Enc) : Enc :=
  { e with
    st := .fill, blen := 0, srcend := false, lastf := false, byi := 0, bii := 0, txi := {}, txo := {} }

/-- A write of `v` to CSR6 (10 R35): bit 0 starts ENC, bit 1 starts DEC, the other bits are ignored. -/
def writeCmd (v : Byte) (s : State) : State :=
  { s with
    enc := if v.getLsbD 0 then startEnc s.enc else s.enc
    dec := if v.getLsbD 1 then startDec s.dec else s.dec }

/-- A write of `v` to CSR `k`: only CSR6 is writable, other writes are ignored (10 R28, 47 R299). -/
def writeCsr (k : BitVec 3) (v : Byte) (s : State) : State := if k = 6 then writeCmd v s else s

/-- Reset (70 R350): every register and port record as `State.reset` has it; nothing survives (70 R352). The
moves still to be made are the host's and stay (log 4). -/
def resetMachine (s : State) : State := { State.reset with agenda := s.agenda }

/-- The exception taken by a step of the machine: DEC's registers change by `raiseFault`, nothing else. -/
def takeFault (f : FaultKind) (s : State) : State := { s with dec := raiseFault f s.dec }

end Sys2Proof.Machine
end

