-- ==== Sys2Proof/Machine/Commands.lean ====
section
/-! DEFINITION. The host commands (spec/47_engines.md): ENC.START, DEC.START, CSR.READ. -/

namespace Sys2Proof.Machine

/-- ENC.START: a write of CSR6 with bit 0 set (47 R272). Bit 1 of the word, `d`, starts DEC as well (10 R35); the
bits `r` are ignored. -/
def execEncStart (d : Bit) (r : BitVec 6) (s : State) : Result :=
  .next (writeCmd (r ++ BitVec.ofBool d ++ 1#1) s)

/-- DEC.START: a write of CSR6 with bit 1 set (47 R286). Bit 0 of the word, `e`, starts ENC as well (10 R35); the
bits `r` are ignored. -/
def execDecStart (e : Bit) (r : BitVec 6) (s : State) : Result :=
  .next (writeCmd (r ++ 1#1 ++ BitVec.ofBool e) s)

/-- CSR.READ: the value of CSR `k`; no effect on any register (47 R299). -/
def execCsrRead (k : BitVec 3) (s : State) : Result := .next { s with result := .byte (csrValue k s) }

end Sys2Proof.Machine
end

