-- ==== Sys2Proof/Machine/BitPacker.lean ====
section
/-! DEFINITION. The BP family, the bit-to-byte packer (spec/40_bitpacker.md): functions of the parameter `BIT_ORDER`
and the meanings of the four operations. They are pure. The tables TO_BITS and TO_BYTE (40 R113, 10 R38) are
these functions. -/

namespace Sys2Proof.Machine

/-- The eight bits of a byte in stream order (40 R110). -/
def tobits (o : BitOrder) (b : Byte) : BitTuple :=
  match o with
  | .lsbFirst =>
    #v[b.getLsbD 0, b.getLsbD 1, b.getLsbD 2, b.getLsbD 3, b.getLsbD 4, b.getLsbD 5, b.getLsbD 6, b.getLsbD 7]
  | .msbFirst =>
    #v[b.getLsbD 7, b.getLsbD 6, b.getLsbD 5, b.getLsbD 4, b.getLsbD 3, b.getLsbD 2, b.getLsbD 1, b.getLsbD 0]

/-- The byte of eight bits in stream order: the sum of `t[k] * 2^k` under `LSB_FIRST`, of `t[k] * 2^(7-k)` under
`MSB_FIRST` (40 R111). -/
def tobyte (o : BitOrder) (t : BitTuple) : Byte :=
  match o with
  | .lsbFirst =>
    BitVec.ofNat 8 (t[0].toNat + t[1].toNat * 2 + t[2].toNat * 4 + t[3].toNat * 8 + t[4].toNat * 16 +
      t[5].toNat * 32 + t[6].toNat * 64 + t[7].toNat * 128)
  | .msbFirst =>
    BitVec.ofNat 8 (t[0].toNat * 128 + t[1].toNat * 64 + t[2].toNat * 32 + t[3].toNat * 16 + t[4].toNat * 8 +
      t[5].toNat * 4 + t[6].toNat * 2 + t[7].toNat)

/-- The bits of a byte sequence (40 R114). -/
def bpExpand (o : BitOrder) : List Byte → List Bit
  | [] => []
  | b :: rest => (tobits o b).toList ++ bpExpand o rest

/-- The bytes of a bit sequence; a trailing group of fewer than 8 bits is dropped (40 R115). -/
def bpGroup (o : BitOrder) : List Bit → List Byte
  | b0 :: b1 :: b2 :: b3 :: b4 :: b5 :: b6 :: b7 :: rest =>
    tobyte o #v[b0, b1, b2, b3, b4, b5, b6, b7] :: bpGroup o rest
  | _ => []

/-! ### The meanings -/

/-- BP.TOBITS (40 R110). -/
def execBpTobits (b : Byte) (s : State) : Result :=
  .next { s with result := .bits (tobits codec.bitOrder b).toList }

/-- BP.TOBYTE (40 R111). -/
def execBpTobyte (t : BitTuple) (s : State) : Result :=
  .next { s with result := .byte (tobyte codec.bitOrder t) }

/-- BP.EXPAND (40 R114). -/
def execBpExpand (y : List Byte) (s : State) : Result :=
  .next { s with result := .bits (bpExpand codec.bitOrder y) }

/-- BP.GROUP (40 R115). -/
def execBpGroup (x : List Bit) (s : State) : Result :=
  .next { s with result := .bytes (bpGroup codec.bitOrder x) }

end Sys2Proof.Machine
end

