-- ==== Sys2Proof/Machine/Gf.lean ====
section
/-! DEFINITION. The GF family: arithmetic in GF(2^8) (spec/41_gf256.md), the functions and the meanings of the
eight operations. They are pure: a meaning leaves its value in `result` and changes nothing else. -/

namespace Sys2Proof.Machine

/-- `a (+) b` (41 R131). -/
def gfAdd (a b : Byte) : Byte := a ^^^ b

/-- The low 8 bits of `PRIM_POLY`, 0x1D (41 R132). -/
def primLow : Byte := codec.primPoly.setWidth 8

/-- `ALPHA (*) a` for `ALPHA = 0x02`: shift left one place; if a one is shifted out, add the low 8 bits of
`PRIM_POLY` (41 R132). -/
def gfXtime (a : Byte) : Byte := if a.getLsbD 7 then (a <<< 1) ^^^ primLow else a <<< 1

/-- One turn of the loop of 41 R133 for bit `k` of `b`, on the pair `(r, t)`. -/
def gfMulTurn (b : Byte) (rt : Byte × Byte) (k : Nat) : Byte × Byte :=
  (if b.getLsbD k then rt.1 ^^^ rt.2 else rt.1, gfXtime rt.2)

/-- `a (*) b` (41 R133). -/
def gfMul (a b : Byte) : Byte := ([0, 1, 2, 3, 4, 5, 6, 7].foldl (gfMulTurn b) (0x00, a)).1

/-- `ALPHA (*) x`: GF.XTIME for the spec's `ALPHA = 0x02` (41 R132, R134), the product for another `ALPHA`
(00 R8: it is a parameter). -/
def timesAlpha (x : Byte) : Byte := if codec.alpha = 0x02 then gfXtime x else gfMul codec.alpha x

/-- `ALPHA^i` for a natural `i` (41 R134). -/
def gfPow : Nat → Byte
  | 0 => 0x01
  | i + 1 => timesAlpha (gfPow i)

/-- `ALPHA^e` for any integer `e`, by `ALPHA^e = ALPHA^(e mod 255)` (41 R134). -/
def gfExp (e : Int) : Byte := gfPow (e % 255).toNat

/-- Search for `a` among `x = ALPHA^e`, `ALPHA^(e+1)`, ..: the exponent at which it stands. -/
def gfLogFrom (a : Byte) : Nat → Nat → Byte → Nat
  | 0, e, _ => e
  | tries + 1, e, x => if x = a then e else gfLogFrom a tries (e + 1) (timesAlpha x)

/-- The unique `e` in 0..254 with `ALPHA^e = a`, for `a` not 0x00 (41 R135); of 0x00 a free value (log 16). -/
def gfLog (a : Byte) : Nat := if a = 0 then (Config.logOfZero a).toNat else gfLogFrom a 254 0 0x01

/-- `ALPHA^(255 - LOG[a])`, for `a` not 0x00 (41 R136); of 0x00 a free value (log 16). -/
def gfInv (a : Byte) : Byte := if a = 0 then Config.invOfZero a else gfExp (255 - gfLog a)

/-- `a (*) GF.INV(b)`, for `b` not 0x00 (41 R137); by 0x00 a free value (log 16). -/
def gfDiv (a b : Byte) : Byte := if b = 0 then Config.divByZero a else gfMul a (gfInv b)

/-- `w(v)` by Horner's rule, the first element being the highest coefficient (41 R138). -/
def gfPeval (w : List Byte) (v : Byte) : Byte := w.foldl (fun acc c => gfMul acc v ^^^ c) 0x00

/-! ### Polynomials, low power first -/

/-- The sum of two polynomials, low power first. -/
def polyAdd : List Byte → List Byte → List Byte
  | [], ys => ys
  | xs, [] => xs
  | x :: xs, y :: ys => (x ^^^ y) :: polyAdd xs ys

/-- The product of two polynomials, low power first. -/
def polyMul : List Byte → List Byte → List Byte
  | [], _ => []
  | x :: xs, ys => polyAdd (ys.map (gfMul x)) (0x00 :: polyMul xs ys)

/-! ### The meanings -/

/-- GF.ADD (41 R131). -/
def execGfAdd (a b : Byte) (s : State) : Result := .next { s with result := .byte (gfAdd a b) }

/-- GF.XTIME (41 R132). -/
def execGfXtime (a : Byte) (s : State) : Result := .next { s with result := .byte (gfXtime a) }

/-- GF.MUL (41 R133). -/
def execGfMul (a b : Byte) (s : State) : Result := .next { s with result := .byte (gfMul a b) }

/-- GF.EXP (41 R134). -/
def execGfExp (e : Int) (s : State) : Result := .next { s with result := .byte (gfExp e) }

/-- GF.LOG (41 R135). -/
def execGfLog (a : Byte) (s : State) : Result := .next { s with result := .exponent (gfLog a) }

/-- GF.INV (41 R136). -/
def execGfInv (a : Byte) (s : State) : Result := .next { s with result := .byte (gfInv a) }

/-- GF.DIV (41 R137). -/
def execGfDiv (a b : Byte) (s : State) : Result := .next { s with result := .byte (gfDiv a b) }

/-- GF.PEVAL (41 R138). -/
def execGfPeval (w : List Byte) (v : Byte) (s : State) : Result :=
  .next { s with result := .byte (gfPeval w v) }

end Sys2Proof.Machine
end

