-- ==== Sys2Proof/Machine/RsEncode.lean ====
section
/-! DEFINITION. The Reed-Solomon systematic encoder (spec/42_rs_encode.md): RS.PARITY and RS.ENC. -/

namespace Sys2Proof.Machine

/-- The product of `x (+) ALPHA^(FCR + j)` for `j` below `k`, low power first (42 R150). -/
def rootProduct : Nat → List Byte
  | 0 => [0x01]
  | k + 1 => polyMul (rootProduct k) [gfExp ((codec.fcr : Int) + k), 0x01]

/-- The coefficients `g_5 .. g_0` of the generator polynomial below its leading 0x01, multiplied out from the
configuration's `ALPHA`, `FCR` and `PRIM_POLY` (42 R150; 92 section 5). -/
def generatorTaps : Vector Byte 6 :=
  Vector.ofFn (fun i : Fin 6 => (rootProduct codec.eccSymbols).getD (5 - i) 0x00)

/-- One iteration of 42 R153 on the register `p0 .. p5`, for the generator's coefficients `taps`: the six
assignments are simultaneous. -/
def parityTurn (taps p : Vector Byte 6) (b : Byte) : Vector Byte 6 :=
  let f := b ^^^ p[0]
  #v[p[1] ^^^ gfMul f taps[0],
     p[2] ^^^ gfMul f taps[1],
     p[3] ^^^ gfMul f taps[2],
     p[4] ^^^ gfMul f taps[3],
     p[5] ^^^ gfMul f taps[4],
     gfMul f taps[5]]

/-- The six parity bytes of a Block (42 R153). -/
def rsParity (m : List Byte) : Vector Byte 6 := m.foldl (parityTurn generatorTaps) (Vector.replicate 6 0x00)

/-- The codeword of a Block: the Block, then its parity (42 R154). -/
def rsEnc (m : List Byte) : List Byte := m ++ (rsParity m).toList

/-! ### The meanings -/

/-- RS.PARITY (42 R153). -/
def execRsParity (m : Block) (s : State) : Result :=
  .next { s with result := .bytes (rsParity m.val).toList }

/-- RS.ENC (42 R154). -/
def execRsEnc (m : Block) (s : State) : Result := .next { s with result := .bytes (rsEnc m.val) }

end Sys2Proof.Machine
end

