-- ==== Sys2Proof/Machine/RsDecode.lean ====
section
/-! DEFINITION. The Reed-Solomon decoder (spec/43_rs_decode.md): the code (42 R151), the contract of RS.DEC (43 R170)
as a relation, its reference realisation (43 R173 to R177) as the function the machine runs, and the
meanings of RS.SYN, RS.LOCATOR, RS.CHIEN, RS.FORNEY and RS.DEC. -/

namespace Sys2Proof.Machine

/-! ### The code and the contract -/

/-- `S_j = GF.PEVAL(r, ALPHA^(FCR + j))` (43 R173). -/
def syndrome (r : List Byte) (j : Nat) : Byte := gfPeval r (gfExp ((codec.fcr : Int) + j))

/-- `Code(n)`: the words of length `n` whose polynomial has the six roots of the generator (42 R151). -/
def InCode (n : Nat) (c : List Byte) : Prop := c.length = n ∧ ∀ j, j < 6 → syndrome c j = 0x00

/-- The Hamming distance of two words of equal length (00 section 6). -/
def dist : List Byte → List Byte → Nat
  | a :: u, b :: v => (if a = b then 0 else 1) + dist u v
  | _, _ => 0

/-- The contract of RS.DEC (43 R170): `Ok(c[0 .. n-6), dist(c, r))` for a codeword `c` within distance 3, and
`Uncorrectable` when there is none. -/
def RsDecContract (r : List Byte) (answer : RsResult) : Prop :=
  match answer with
  | .ok b e => ∃ c, InCode r.length c ∧ dist c r = e ∧ e ≤ 3 ∧ b = c.take (r.length - 6)
  | .uncorrectable => ∀ c, InCode r.length c → 3 < dist c r

/-! ### RS.SYN -/

/-- The six syndromes (43 R173). -/
def rsSyn (r : List Byte) : Syndromes :=
  #v[syndrome r 0, syndrome r 1, syndrome r 2, syndrome r 3, syndrome r 4, syndrome r 5]

/-- All six syndromes are 0x00. -/
def synZero (s : Syndromes) : Bool := s.toList.all (· == 0x00)

/-! ### RS.LOCATOR -/

/-- The list without its trailing 0x00 elements. -/
def dropZeros : List Byte → List Byte
  | [] => []
  | x :: xs =>
    match dropZeros xs with
    | [] => if x = 0x00 then [] else [x]
    | y :: ys => x :: y :: ys

/-- A polynomial, low power first, without trailing 0x00 coefficients, its constant term kept (43 R174). -/
def trimPoly : List Byte → List Byte
  | [] => []
  | c0 :: rest => c0 :: dropZeros rest

/-- The variables of the Berlekamp-Massey iteration (43 R174): `C`, `B`, `L`, `m`, `b`. -/
structure BmState where
  c : List Byte
  old : List Byte
  l : Nat
  m : Nat
  d : Byte
deriving DecidableEq, Repr

/-- `C <- [0x01] ; B <- [0x01] ; L <- 0 ; m <- 1 ; b <- 0x01` (43 R174). -/
def bmInit : BmState := { c := [0x01], old := [0x01], l := 0, m := 1, d := 0x01 }

/-- The discrepancy `S[k] (+) sum for i = 1 .. L of C[i] (*) S[k-i]` (43 R174). -/
def bmDiscrepancy (s : List Byte) (st : BmState) (k : Nat) : Byte :=
  (List.range st.l).foldl
    (fun acc i => acc ^^^ gfMul (st.c.getD (i + 1) 0x00) (s.getD (k - (i + 1)) 0x00)) (s.getD k 0x00)

/-- One iteration for `k` (43 R174). -/
def bmTurn (s : List Byte) (st : BmState) (k : Nat) : BmState :=
  let d := bmDiscrepancy s st k
  if d = 0x00 then { st with m := st.m + 1 }
  else
    let q := gfDiv d st.d
    let c := polyAdd st.c (List.replicate st.m 0x00 ++ st.old.map (gfMul q))
    if 2 * st.l ≤ k then { c := c, old := st.c, l := k + 1 - st.l, m := 1, d := d }
    else { st with c := c, m := st.m + 1 }

/-- The error locator, low power first, and its claimed degree (43 R174). -/
def rsLocator (s : Syndromes) : List Byte × Nat :=
  let st := [0, 1, 2, 3, 4, 5].foldl (bmTurn s.toList) bmInit
  (trimPoly st.c, st.l)

/-! ### RS.CHIEN -/

/-- The value of a polynomial given low power first (41 R138). -/
def polyEval (c : List Byte) (v : Byte) : Byte := gfPeval c.reverse v

/-- The power of x that element `i` of an `n`-byte word carries (20 R60, 42 R152). It is an integer, so that RS.FORNEY has
its formula for a number that is no position of the word too (log 18). -/
def wireExponent (n i : Nat) : Int :=
  match codec.coeffOrder with
  | .highestFirst => n - 1 - i

/-- The wire positions whose locator's inverse is a root, ascending (43 R175). -/
def rsChien (c : List Byte) (n : Nat) : List Nat :=
  (List.range n).filter (fun i => polyEval c (gfExp (-(wireExponent n i))) = 0x00)

/-! ### RS.FORNEY -/

/-- Every second coefficient, from the first if `keep`, the others 0x00. -/
def alternate (keep : Bool) : List Byte → List Byte
  | [] => []
  | x :: xs => (if keep then x else 0x00) :: alternate (!keep) xs

/-- The formal derivative, `C[1] + C[3] x^2 + ..` (43 R176). -/
def polyDeriv (c : List Byte) : List Byte := alternate true c.tail

/-- `Omega(x) = (S(x) Lambda(x)) mod x^6` (43 R176). -/
def rsOmega (s : Syndromes) (c : List Byte) : List Byte := (polyMul s.toList c).take 6

/-- The magnitude at one position, `X^(1-FCR) (*) Omega(X^-1) / Lambda'(X^-1)`; `none` when the divisor or the
magnitude is 0x00 (43 R176). -/
def forneyAt (omega deriv : List Byte) (n i : Nat) : Option Byte :=
  let e := wireExponent n i
  let divisor := polyEval deriv (gfExp (-e))
  if divisor = 0x00 then none
  else
    let value := gfDiv (gfMul (gfExp (e * (1 - (codec.fcr : Int)))) (polyEval omega (gfExp (-e)))) divisor
    if value = 0x00 then none else some value

/-- The magnitudes at all positions, or failure. -/
def forneyAll (omega deriv : List Byte) (n : Nat) : List Nat → Option (List Byte)
  | [] => some []
  | i :: rest =>
    match forneyAt omega deriv n i, forneyAll omega deriv n rest with
    | some e, some es => some (e :: es)
    | _, _ => none

/-- RS.FORNEY as a function (43 R176). -/
def rsForney (s : Syndromes) (c : List Byte) (pos : List Nat) (n : Nat) : Option (List Byte) :=
  forneyAll (rsOmega s c) (polyDeriv c) n pos

/-! ### RS.DEC -/

/-- The word with each error magnitude added at its position (43 R177). -/
def correctWord : List Byte → List (Nat × Byte) → List Byte
  | w, [] => w
  | w, (i, e) :: rest => correctWord (w.set i (w.getD i 0x00 ^^^ e)) rest

/-- `RS.DEC_ref` (43 R177), which 43 R178 says computes the function of 43 R170. DEDUCED (log 17). -/
def rsDec (r : List Byte) : RsResult :=
  let s := rsSyn r
  if synZero s then .ok (r.take (r.length - 6)) 0
  else
    let loc := rsLocator s
    let v := loc.1.length - 1
    if v ≠ loc.2 ∨ 3 < v then .uncorrectable
    else
      let pos := rsChien loc.1 r.length
      if pos.length ≠ v then .uncorrectable
      else
        match rsForney s loc.1 pos r.length with
        | none => .uncorrectable
        | some mags =>
          let w := correctWord r (pos.zip mags)
          if synZero (rsSyn w) then .ok (w.take (r.length - 6)) v else .uncorrectable

/-! ### The meanings -/

/-- RS.SYN (43 R173). -/
def execRsSyn (r : List Byte) (s : State) : Result := .next { s with result := .bytes (rsSyn r).toList }

/-- RS.LOCATOR (43 R174). On all-zero syndromes, which its caller excludes, the iteration gives `[0x01]` and 0 (log 18). -/
def execRsLocator (syn : Syndromes) (s : State) : Result :=
  .next { s with result := .locator (rsLocator syn).1 (rsLocator syn).2 }

/-- RS.CHIEN (43 R175). -/
def execRsChien (c : List Byte) (n : Byte) (s : State) : Result :=
  .next { s with result := .positions (rsChien c n.toNat) }

/-- RS.FORNEY (43 R176). -/
def execRsForney (syn : Syndromes) (c : List Byte) (pos : List Byte) (n : Byte) (s : State) : Result :=
  .next { s with result := .magnitudes (rsForney syn c (pos.map BitVec.toNat) n.toNat) }

/-- RS.DEC (43 R170, R177). -/
def execRsDec (r : RsWord) (s : State) : Result := .next { s with result := .rsDec (rsDec r.val) }

end Sys2Proof.Machine
end

