-- ==== Sys2Proof/Machine/FramerDecode.lean ====
section
/-! DEFINITION. The frame deserializer and end-of-stream detector (spec/45_framer_decode.md): FR.TAKEPFX, FR.TAKEPAY,
FR.CHECKLEN, FR.MAXUPD, FR.EOFDET, FR.DEC. The first five are functions used inside DEC's steps `D_BIT` and `D_DECODE`
(30 R93). Where DEC stands at that step, they have the step's effect on its registers: the exception (60 R316),
the write of `DEC.MAXERR`, the end of the session. Elsewhere no register changes, since DEC faults in these
two steps only and `D_FAULT` and `D_DONE` are left by START or reset only (60 R310, R321; 10 R34): the answer alone is
left in `result`. DEDUCED (log 10, 11, 26). The operand the instruction carries decides; it is not tied to what DEC holds,
the prefix in `DEC.PFX` and the payload in `DEC.BUF`, which the engine's steps give these functions.
DESIGN CHOICE (log 10, 11, 26). -/

namespace Sys2Proof.Machine

/-- The prefix and the stream after it, or `TruncatedPrefix` (45 R220). -/
def frTakepfx : List Byte → Except FaultKind (Byte × List Byte)
  | [] => .error .truncatedPrefix
  | p :: rest => .ok (p, rest)

/-- The coded payload and the stream after it, or `TruncatedPayload` (45 R221). -/
def frTakepay (p : Byte) (y : List Byte) : Except FaultKind (List Byte × List Byte) :=
  if y.length < p.toNat then .error .truncatedPayload else .ok (y.take p.toNat, y.drop p.toNat)

/-- Whether the prefix is too short, below `ECC_SYMBOLS` (45 R222). -/
def frTooShort (p : Byte) : Bool := p.toNat < codec.eccSymbols

/-- `DEC.MAXERR <- max(DEC.MAXERR, e)` (45 R224). -/
def frMaxupd (e : Nat) (d : Dec) : Dec :=
  { d with maxerr := if d.maxerr.toNat < e then BitVec.ofNat 8 e else d.maxerr }

/-- Whether a Block is the EOF sentinel (45 R225). -/
def frIsEof (b : List Byte) : Bool := b.length == 0

/-- The end of the stream: `DEC.REPORT <- (DEC.MAXERR != 0)`, `DEC.ST <- D_DONE` (45 R225, R233; 47 R292). `MAXERR` is
the value after FR.MAXUPD. DEDUCED (log 12). -/
def endOfStream (d : Dec) : Dec := { d with report := reportFlag d.maxerr, st := .done }

/-- FR.DEC by its recursion, which consumes at least one byte each time; `tries` bounds it (45 R226). -/
def frDecFrom : Nat → List Byte → Nat → StreamResult
  | 0, _, m => { blocks := [], outcome := .fault .truncatedPrefix, maxerr := m, consumed := 0 }
  | tries + 1, y, m =>
    match y with
    | [] => { blocks := [], outcome := .fault .truncatedPrefix, maxerr := m, consumed := 0 }
    | p :: rest =>
      if rest.length < p.toNat then
        { blocks := [], outcome := .fault .truncatedPayload, maxerr := m, consumed := y.length }
      else if frTooShort p then
        { blocks := [], outcome := .fault .frameTooShort, maxerr := m, consumed := 1 + p.toNat }
      else
        match rsDec (rest.take p.toNat) with
        | .uncorrectable =>
          { blocks := [], outcome := .fault .uncorrectable, maxerr := m, consumed := 1 + p.toNat }
        | .ok b e =>
          if frIsEof b then { blocks := [], outcome := .done, maxerr := max m e, consumed := 1 + p.toNat }
          else
            let r := frDecFrom tries (rest.drop p.toNat) (max m e)
            { r with blocks := b :: r.blocks, consumed := 1 + p.toNat + r.consumed }

/-- FR.DEC (45 R226). -/
def frDec (y : List Byte) (m : Nat) : StreamResult := frDecFrom y.length y m

/-! ### The meanings -/

/-- DEC stands at the step `D_BIT` in state `st` with the end of RXI next (47 R294). -/
def atBitsEnd (st : DecState) (d : Dec) : Bool :=
  d.st == st && decide (0 < d.rxo.demand) && d.rxi.queue.isEmpty && d.rxi.ended

/-- DEC stands at the step `D_DECODE` (47 R291). -/
def atDecode (d : Dec) : Bool := d.st == .decode && decide (0 < d.rxo.demand)

/-- An operation that raises `f`: the exception where DEC stands at the step (`here`), else `f` as the answer (60 R310,
R316; log 10). -/
def raiseAt (here : Bool) (f : FaultKind) (s : State) : State :=
  if here then takeFault f s else { s with result := .raised f }

/-- FR.TAKEPFX (45 R220): the value, or `TruncatedPrefix`, raised in `D_PREFIX` at the end of RXI (60 R312; log 10).
The operand `y` decides, not the bytes received: DESIGN CHOICE (log 10). -/
def execFrTakepfx (y : List Byte) (s : State) : Result :=
  match frTakepfx y with
  | .ok (p, rest) => .next { s with result := .taken p rest }
  | .error f => .next (raiseAt (atBitsEnd .pfx s.dec) f s)

/-- FR.TAKEPAY (45 R221): the value, or `TruncatedPayload`, raised in `D_PAYLOAD` at the end of RXI (60 R313; log 10).
The operands `p` and `y` decide, not `DEC.PFX` and the bytes received: DESIGN CHOICE (log 10). -/
def execFrTakepay (p : Byte) (y : List Byte) (s : State) : Result :=
  match frTakepay p y with
  | .ok (w, rest) => .next { s with result := .takenPayload w rest }
  | .error f => .next (raiseAt (atBitsEnd .payload s.dec) f s)

/-- FR.CHECKLEN (45 R222): ok, or `FrameTooShort`, raised at `D_DECODE` (60 R315; log 10). The operand `p` decides,
also where it is not the prefix of the frame taken, `DEC.PFX`: DESIGN CHOICE (log 10). -/
def execFrChecklen (p : Byte) (s : State) : Result :=
  if frTooShort p then .next (raiseAt (atDecode s.dec) .frameTooShort s) else .next { s with result := .lengthOk }

/-- FR.MAXUPD (45 R224). `DEC.MAXERR` is written at `D_DECODE` only, "as realised by 47 R291" (10 R34), so it keeps its value in
`D_DONE` and `D_FAULT`, where it is final (70 R364); elsewhere the maximum is the answer. DEDUCED (log 26).
The operand `e` decides, also where it is not the count of the frame taken: DESIGN CHOICE (log 26). -/
def execFrMaxupd (e : BitVec 2) (s : State) : Result :=
  if atDecode s.dec then .next { s with dec := frMaxupd e.toNat s.dec }
  else .next { s with result := .byte (frMaxupd e.toNat s.dec).maxerr }

/-- FR.EOFDET (45 R225): the answer; when it is true at `D_DECODE`, the session ends with `Done` (47 R292; log 11).
The operand `b` decides, also where it is not the Block of the frame taken: DESIGN CHOICE (log 11). -/
def execFrEofdet (b : Block) (s : State) : Result :=
  if frIsEof b.val && atDecode s.dec then .next { s with result := .flag true, dec := endOfStream s.dec }
  else .next { s with result := .flag (frIsEof b.val) }

/-- FR.DEC (45 R226). -/
def execFrDec (y : List Byte) (m : BitVec 2) (s : State) : Result :=
  .next { s with result := .stream (frDec y m.toNat) }

end Sys2Proof.Machine
end

