-- ==== Sys2Proof/Machine/FramerEncode.lean ====
section
/-! DEFINITION. The frame serializer (spec/44_framer_encode.md): FR.SPLIT, FR.PACK, FR.ENC. They are pure. -/

namespace Sys2Proof.Machine

/-- FR.SPLIT by its recursion, which takes at least one byte each time; `tries` bounds it (44 R200). -/
def frSplitFrom : Nat → List Byte → List (List Byte)
  | 0, _ => []
  | tries + 1, s =>
    if s.length = 0 then []
    else if maxBlock ≤ s.length then s.take maxBlock :: frSplitFrom tries (s.drop maxBlock)
    else [s]

/-- The Blocks of a payload: 249 bytes each but the last, none empty (44 R200). -/
def frSplit (s : List Byte) : List (List Byte) := frSplitFrom s.length s

/-- The frame of a Block: the length of the coded payload, then the codeword (44 R201). -/
def frPack (b : List Byte) : List Byte := BitVec.ofNat 8 (b.length + codec.eccSymbols) :: rsEnc b

/-- The frames of a payload, the EOF frame last (44 R202). -/
def frEnc (s : List Byte) : List (List Byte) := (frSplit s).map frPack ++ [frPack []]

/-! ### The meanings -/

/-- FR.SPLIT (44 R200). -/
def execFrSplit (bytes : List Byte) (s : State) : Result :=
  .next { s with result := .byteSeqs (frSplit bytes) }

/-- FR.PACK (44 R201). -/
def execFrPack (b : Block) (s : State) : Result := .next { s with result := .bytes (frPack b.val) }

/-- FR.ENC (44 R202). -/
def execFrEnc (bytes : List Byte) (s : State) : Result := .next { s with result := .byteSeqs (frEnc bytes) }

end Sys2Proof.Machine
end

