-- ==== Sys2Proof/Machine/Bitstream.lean ====
section
/-! DEFINITION. The bitstream codec (spec/46_bitstream_codec.md): BS.ENC and BS.DEC. They are pure. -/

namespace Sys2Proof.Machine

/-- The bits of a payload (46 R250). -/
def bsEnc (o : BitOrder) (s : List Byte) : List Bit := bpExpand o (frEnc s).flatten

/-- Chunks, outcome, maximum and bits consumed of a bit sequence: all bits on the two truncation faults, else
those of the frames read (46 R251). -/
def bsDec (o : BitOrder) (z : List Bit) : StreamResult :=
  let r := frDec (bpGroup o z) 0
  { r with
    consumed :=
      match r.outcome with
      | .fault .truncatedPrefix => z.length
      | .fault .truncatedPayload => z.length
      | .fault .frameTooShort => 8 * r.consumed
      | .fault .uncorrectable => 8 * r.consumed
      | .done => 8 * r.consumed }

/-! ### The meanings -/

/-- BS.ENC (46 R250). -/
def execBsEnc (bytes : List Byte) (s : State) : Result :=
  .next { s with result := .bits (bsEnc codec.bitOrder bytes) }

/-- BS.DEC (46 R251). -/
def execBsDec (z : List Bit) (s : State) : Result :=
  .next { s with result := .stream (bsDec codec.bitOrder z) }

end Sys2Proof.Machine
end

