-- ==== Sys2Proof/Machine/Engines.lean ====
section
/-! DEFINITION. The two engines' guarded steps (spec/47_engines.md). In every state at most one step of an engine
has a true guard (47 R270); `encStep` and `decStep` take it, or say that the engine waits (47 R281, R285). -/

namespace Sys2Proof.Machine

/-- What an engine's turn comes to. -/
inductive Turn (σ : Type) where
  /-- no step is enabled -/
  | waits
  /-- the enabled step was taken -/
  | moves (next : σ)
  /-- the enabled step accesses a buffer outside its range: unreachable (log 20) -/
  | stops (f : Fault)
deriving DecidableEq, Repr

/-! ### ENC -/

/-- Step `E_FILL.pull` (47 R273) after its guards other than `Pull(TXI)`. -/
def fillPull (e : Enc) : Turn Enc :=
  match pull e.txi with
  | none => .waits
  | some (.elem v, txi) => .moves { e with blk := bufSet e.blk e.blen.toNat v, blen := e.blen + 1, txi := txi }
  | some (.endMark, txi) => .moves { e with srcend := true, txi := txi }

/-- Step `E_FILL.close` (47 R274). -/
def fillClose (e : Enc) : Enc := { e with st := .code }

/-- Step `E_CODE` (47 R275). -/
def codeFrame (e : Enc) : Turn Enc :=
  if e.blen.toNat ≤ maxBlock then
    .moves { e with
      fr := bufFill e.fr (frPack (bufTake e.blk e.blen.toNat))
      flen := BitVec.ofNat 9 (e.blen.toNat + codec.eccSymbols + 1)
      lastf := lastFrameFlag e.blen
      byi := 0
      bii := 0
      st := .shift }
  else .stops .bufferIndex

/-- What follows the bit just emitted: the next bit, the next byte, or the end of the frame (47 R277 to R279). -/
def shiftNext (e : Enc) : Enc :=
  if e.bii.toNat < 7 then { e with bii := e.bii + 1 }
  else if e.byi.toNat + 1 < e.flen.toNat then { e with bii := 0, byi := e.byi + 1 }
  else if e.lastf then { e with st := .done }
  else { e with st := .fill, blen := 0, byi := 0, bii := 0 }

/-- The bit under the shift indices (47 R277). -/
def shiftBit (e : Enc) : Bit := (tobits codec.bitOrder (bufGet e.fr e.byi.toNat))[e.bii.toNat]

/-- Step `E_SHIFT` (47 R277). -/
def shiftOut (e : Enc) : Enc := shiftNext { e with txo := emit (.bit (shiftBit e)) e.txo }

/-- Step `E_DONE` (47 R280). -/
def encPresent (e : Enc) : Enc := { e with txo := present .endMark e.txo }

/-- ENC's turn: its enabled step, if any (47 R273 to R281). -/
def encStep (e : Enc) : Turn Enc :=
  if e.txo.demand = 0 then .waits
  else
    match e.st with
    | .idle => .waits
    | .fill =>
      if e.blen.toNat = maxBlock ∨ e.srcend = true then .moves (fillClose e)
      else if e.blen.toNat < maxBlock then fillPull e
      else .waits
    | .code => codeFrame e
    | .shift => .moves (shiftOut e)
    | .done => .moves (encPresent e)

/-! ### DEC -/

/-- A byte of the group just completed: the prefix (47 R289) or a payload byte (47 R290). -/
def byteComplete (y : Byte) (d : Dec) : Turn Dec :=
  match d.st with
  | .pfx => .moves { d with pfx := y, cnt := 0, st := if y = 0 then .decode else .payload }
  | .payload =>
    if d.cnt.toNat < 255 then
      .moves { d with
        buf := bufSet d.buf d.cnt.toNat y
        cnt := d.cnt + 1
        st := if d.cnt + 1 = d.pfx then .decode else .payload }
    else .stops .bufferIndex
  | _ => .waits

/-- `DEC.ACC` with the bit at position `k` of the group written. Position `k` is bit `k` whatever the bit order
(10 R23, 47 R288; log 19). -/
def accWrite (acc : BitVec 8) (k : Nat) (b : Bit) : BitVec 8 :=
  if b then acc ||| (1#8 <<< k) else acc &&& ~~~(1#8 <<< k)

/-- Step `D_BIT` for a pulled bit (47 R288). -/
def bitTaken (b : Bit) (d : Dec) : Turn Dec :=
  let d1 := { d with acc := accWrite d.acc d.nb.toNat b }
  if d.nb.toNat < 7 then .moves { d1 with nb := d.nb + 1 }
  else byteComplete (tobyte codec.bitOrder (tupleOfByte d1.acc)) { d1 with nb := 0 }

/-- Step `D_BIT` when the pull returns `End` (47 R294): the bits of an unfinished group are dropped. -/
def bitsEnded (d : Dec) : Turn Dec :=
  match d.st with
  | .pfx => .moves (raiseFault .truncatedPrefix d)
  | .payload => .moves (raiseFault .truncatedPayload d)
  | _ => .waits

/-- Step `D_BIT` (47 R288, R294) after its guards other than `Pull(RXI)`. -/
def takeBit (d : Dec) : Turn Dec :=
  match pull d.rxi with
  | none => .waits
  | some (.elem b, rxi) => bitTaken b { d with rxi := rxi }
  | some (.endMark, rxi) => bitsEnded { d with rxi := rxi }

/-- Step `D_DECODE` (47 R291, R292), in the order of 45 R227. -/
def decodeFrame (d : Dec) : Dec :=
  if frTooShort d.pfx then raiseFault .frameTooShort d
  else
    match rsDec (bufTake d.buf d.pfx.toNat) with
    | .uncorrectable => raiseFault .uncorrectable d
    | .ok b e =>
      let d1 := frMaxupd e { d with buf := bufFill d.buf b }
      if frIsEof b then endOfStream d1
      else { d1 with olen := BitVec.ofNat 8 b.length, oi := 0, st := .drain }

/-- Step `D_DRAIN` (47 R293). -/
def drainByte (d : Dec) : Turn Dec :=
  if d.oi.toNat < 255 then
    let d1 := { d with
      rxo := emit (.byte (bufGet d.buf d.oi.toNat) (d.oi.toNat + 1 == d.olen.toNat)) d.rxo }
    if d.oi.toNat + 1 < d.olen.toNat then .moves { d1 with oi := d.oi + 1 }
    else .moves { d1 with oi := 0, cnt := 0, st := .pfx }
  else .stops .bufferIndex

/-- Steps `D_DONE` (47 R297) and `D_FAULT` (47 R298): the terminal event is presented. -/
def decPresent (ev : RxoEvent) (d : Dec) : Dec := { d with rxo := present ev d.rxo }

/-- DEC's turn: its enabled step, if any (47 R285, R287 to R298). -/
def decStep (d : Dec) : Turn Dec :=
  if d.rxo.demand = 0 then .waits
  else
    match d.st with
    | .idle => .waits
    | .pfx => takeBit d
    | .payload => takeBit d
    | .decode => .moves (decodeFrame d)
    | .drain => drainByte d
    | .done => .moves (decPresent .endMark d)
    | .fault => .moves (decPresent (.fault d.fault) d)

/-! ### Turns of the machine -/

/-- ENC's turn in the whole machine; an engine that waits changes nothing (47 R281; log 5). -/
def encTurn (s : State) : Result :=
  match encStep s.enc with
  | .waits => .next s
  | .moves e => .next { s with enc := e }
  | .stops f => .fault f

/-- DEC's turn in the whole machine; an engine that waits changes nothing (47 R285; log 5). -/
def decTurn (s : State) : Result :=
  match decStep s.dec with
  | .waits => .next s
  | .moves d => .next { s with dec := d }
  | .stops f => .fault f

/-- With no move on the agenda: ENC's enabled step, else DEC's, else the machine waits (log 4). -/
def engineTurn (s : State) : Result :=
  match encStep s.enc with
  | .moves e => .next { s with enc := e }
  | .stops f => .fault f
  | .waits => decTurn s

/-- ENC run for at most `k` steps, ending early where it waits or stops: "to quiescence" for `k` large enough
(47 R300). -/
def encRun : Nat → Enc → Enc
  | 0, e => e
  | k + 1, e =>
    match encStep e with
    | .moves e' => encRun k e'
    | .waits => e
    | .stops _ => e

/-- DEC run for at most `k` steps, as `encRun`. -/
def decRun : Nat → Dec → Dec
  | 0, d => d
  | k + 1, d =>
    match decStep d with
    | .moves d' => decRun k d'
    | .waits => d
    | .stops _ => d

end Sys2Proof.Machine
end

