-- ==== Sys2Proof/Machine/Frames.lean ====
section
/-! DEFINITION. The wire formats as instructions: DEC is an interpreter of the frame stream (spec/30_encoding.md). A frame
or a bit group arrives on RXI. Where DEC stands at its boundary with demand pending and nothing queued before
it, it is taken whole in this one step, to the effect of DEC's steps over its bits (45 R227; 47 R288 to R294);
elsewhere its bits are queued on RXI and DEC takes them bit by bit. DESIGN CHOICE (log 13, 14). -/

namespace Sys2Proof.Machine

/-- `DEC.ACC` after the eight bits of a byte (10 R23): bit `k` is the `k`-th bit of the group. -/
def accOfGroup (t : BitTuple) : BitVec 8 := byteOfTuple t

/-- DEC takes a bit from RXI the moment it is offered: a group boundary, demand pending, nothing queued,
RXI not ended (47 R288, 20 R62). -/
def groupReady (d : Dec) : Bool :=
  d.nb == 0 && decide (0 < d.rxo.demand) && d.rxi.queue.isEmpty && !d.rxi.ended

/-- As `groupReady`, at a frame boundary (20 R62, 30 R87). -/
def frameReady (d : Dec) : Bool := d.st == .pfx && groupReady d

/-- The bits of a frame offered on RXI; a frame cut short is followed by the end of RXI (45 R221). -/
def offerFrame (p : Byte) (w : List Byte) (d : Dec) : Dec :=
  let got := w.take p.toNat
  let rxi := offer (bpExpand codec.bitOrder (p :: got)) d.rxi
  { d with rxi := if got.length < p.toNat then declareEnd rxi else rxi }

/-- A whole frame taken at a frame boundary: FR.TAKEPFX, FR.TAKEPAY, then `D_DECODE` (45 R227; 47 R289 to R292,
R294). -/
def takeFrame (p : Byte) (w : List Byte) (d : Dec) : Dec :=
  let got := w.take p.toNat
  let d1 := { d with
    acc := accOfGroup (tobits codec.bitOrder (got.getLastD p))
    nb := 0
    pfx := p
    cnt := BitVec.ofNat 8 got.length
    buf := bufFill d.buf got
    rxi := { d.rxi with n := d.rxi.n + 8 * (1 + got.length) } }
  if got.length < p.toNat then raiseFault .truncatedPayload { d1 with rxi := declareEnd d1.rxi }
  else decodeFrame { d1 with st := .decode }

/-- The frame with prefix `p` and payload `w` arrives. -/
def receiveFrame (p : Byte) (w : List Byte) (s : State) : Result :=
  if frameReady s.dec then .next { s with dec := takeFrame p w s.dec }
  else .next { s with dec := offerFrame p w s.dec }

/-- A whole group taken at a group boundary (47 R288 to R290). -/
def takeGroup (t : BitTuple) (d : Dec) : Turn Dec :=
  byteComplete (tobyte codec.bitOrder t)
    { d with acc := accOfGroup t, nb := 0, rxi := { d.rxi with n := d.rxi.n + 8 } }

/-- The group arrives. -/
def receiveGroup (t : BitTuple) (s : State) : Result :=
  if (s.dec.st == .pfx || s.dec.st == .payload) && groupReady s.dec then
    match takeGroup t s.dec with
    | .moves d => .next { s with dec := d }
    | .stops f => .fault f
    | .waits => .next s
  else .next { s with dec := { s.dec with rxi := offer t.toList s.dec.rxi } }

/-! ### Bytes that are no instruction -/

/-- A frame byte stream without a first byte: RXI ends where a prefix is due (45 R220, 47 R294; log 15). -/
def endFrames (d : Dec) : Dec :=
  let d1 := { d with rxi := declareEnd d.rxi }
  if frameReady d then raiseFault .truncatedPrefix d1 else d1

/-- What bytes that are no instruction do. A CMD word with neither START bit is a write without effect (10 R35). No bytes
at all are nothing offered and nothing written; in the frame stream they are its end (log 15). An operation
number that 30 R93 does not list is refused: "No other host action is an operation of the codec" (30 R94; log 8). -/
def runNoInstruction (f : Format) (e : DecodeError) (s : State) : Result :=
  match e with
  | .noStartBit => .next s
  | .noBytes =>
    match f with
    | .frame => .next { s with dec := endFrames s.dec }
    | .bitgroup | .op | .cmd => .next s
  | .unknownOperation number => .refused (.noSuchOperation number)

/-! ### The meanings -/

/-- FRAME.SHORT, prefix 0..3 (45 R222). -/
def execFrameShort00 (p : BitVec 2) (w : List Byte) (s : State) : Result := receiveFrame (pfxShort00 p) w s

/-- FRAME.SHORT, prefix 4..5 (45 R222). -/
def execFrameShort04 (p : BitVec 1) (w : List Byte) (s : State) : Result := receiveFrame (pfxShort04 p) w s

/-- FRAME.EOF (45 R225). -/
def execFrameEof (w : List Byte) (s : State) : Result := receiveFrame 0x06 w s

/-- FRAME.DATA, prefix 7 (45 R226). -/
def execFrameData07 (w : List Byte) (s : State) : Result := receiveFrame 0x07 w s

/-- FRAME.DATA, prefix 8..15 (45 R226). -/
def execFrameData08 (p : BitVec 3) (w : List Byte) (s : State) : Result := receiveFrame (pfxData08 p) w s

/-- FRAME.DATA, prefix 16..31 (45 R226). -/
def execFrameData10 (p : BitVec 4) (w : List Byte) (s : State) : Result := receiveFrame (pfxData10 p) w s

/-- FRAME.DATA, prefix 32..63 (45 R226). -/
def execFrameData20 (p : BitVec 5) (w : List Byte) (s : State) : Result := receiveFrame (pfxData20 p) w s

/-- FRAME.DATA, prefix 64..127 (45 R226). -/
def execFrameData40 (p : BitVec 6) (w : List Byte) (s : State) : Result := receiveFrame (pfxData40 p) w s

/-- FRAME.DATA, prefix 128..255 (45 R226). -/
def execFrameData80 (p : BitVec 7) (w : List Byte) (s : State) : Result := receiveFrame (pfxData80 p) w s

/-- BITGROUP (30 R81; 40 R111; 47 R288). -/
def execBitgroup (t : BitTuple) (s : State) : Result := receiveGroup t s

end Sys2Proof.Machine
end

