-- ==== Sys2Proof/Machine/Dispatch.lean ====
section
/-! DEFINITION. One arm per constructor of Instr: its meaning. -/

namespace Sys2Proof.Machine

def exec (i : Instr) (s : State) : Host.Outcome State Fault Refusal :=
  match i with
  | .frameShort00 p w => Sys2Proof.Machine.execFrameShort00 p w s
  | .frameShort04 p w => Sys2Proof.Machine.execFrameShort04 p w s
  | .frameEof w => Sys2Proof.Machine.execFrameEof w s
  | .frameData07 w => Sys2Proof.Machine.execFrameData07 w s
  | .frameData08 p w => Sys2Proof.Machine.execFrameData08 p w s
  | .frameData10 p w => Sys2Proof.Machine.execFrameData10 p w s
  | .frameData20 p w => Sys2Proof.Machine.execFrameData20 p w s
  | .frameData40 p w => Sys2Proof.Machine.execFrameData40 p w s
  | .frameData80 p w => Sys2Proof.Machine.execFrameData80 p w s
  | .bitgroup t => Sys2Proof.Machine.execBitgroup t s
  | .bpTobits b => Sys2Proof.Machine.execBpTobits b s
  | .bpTobyte t => Sys2Proof.Machine.execBpTobyte t s
  | .bpExpand y => Sys2Proof.Machine.execBpExpand y s
  | .bpGroup x => Sys2Proof.Machine.execBpGroup x s
  | .gfAdd a b => Sys2Proof.Machine.execGfAdd a b s
  | .gfXtime a => Sys2Proof.Machine.execGfXtime a s
  | .gfMul a b => Sys2Proof.Machine.execGfMul a b s
  | .gfExp e => Sys2Proof.Machine.execGfExp e s
  | .gfLog a => Sys2Proof.Machine.execGfLog a s
  | .gfInv a => Sys2Proof.Machine.execGfInv a s
  | .gfDiv a b => Sys2Proof.Machine.execGfDiv a b s
  | .gfPeval w v => Sys2Proof.Machine.execGfPeval w v s
  | .rsParity m => Sys2Proof.Machine.execRsParity m s
  | .rsEnc m => Sys2Proof.Machine.execRsEnc m s
  | .rsSyn r => Sys2Proof.Machine.execRsSyn r s
  | .rsLocator syn => Sys2Proof.Machine.execRsLocator syn s
  | .rsChien c n => Sys2Proof.Machine.execRsChien c n s
  | .rsForney syn c pos n => Sys2Proof.Machine.execRsForney syn c pos n s
  | .rsDec r => Sys2Proof.Machine.execRsDec r s
  | .frSplit y => Sys2Proof.Machine.execFrSplit y s
  | .frPack b => Sys2Proof.Machine.execFrPack b s
  | .frEnc y => Sys2Proof.Machine.execFrEnc y s
  | .frTakepfx y => Sys2Proof.Machine.execFrTakepfx y s
  | .frTakepay p y => Sys2Proof.Machine.execFrTakepay p y s
  | .frChecklen p => Sys2Proof.Machine.execFrChecklen p s
  | .frMaxupd e => Sys2Proof.Machine.execFrMaxupd e s
  | .frEofdet b => Sys2Proof.Machine.execFrEofdet b s
  | .frDec y m => Sys2Proof.Machine.execFrDec y m s
  | .bsEnc y => Sys2Proof.Machine.execBsEnc y s
  | .bsDec z => Sys2Proof.Machine.execBsDec z s
  | .encStart d r => Sys2Proof.Machine.execEncStart d r s
  | .decStart e r => Sys2Proof.Machine.execDecStart e r s
  | .csrRead k => Sys2Proof.Machine.execCsrRead k s

end Sys2Proof.Machine
end

