-- ==== Sys2Proof/Machine/HostMoves.lean ====
section
/-! DEFINITION. The host's moves on the ports and CSRs, and reset (70 R362, R350; 47 R270). Every one is always permitted
(60 R330); the ones the rules ignore change nothing. None can fault (60 R310). -/

namespace Sys2Proof.Machine

/-- The host offers a byte on TXI (20 R52). -/
def hostOfferTxi (b : Byte) (s : State) : State := { s with enc := { s.enc with txi := offer [b] s.enc.txi } }

/-- The host declares TXI ended (20 R52). -/
def hostEndTxi (s : State) : State := { s with enc := { s.enc with txi := declareEnd s.enc.txi } }

/-- The host raises demand on TXO (20 R53). -/
def hostDemandTxo (s : State) : State := { s with enc := { s.enc with txo := raiseDemand s.enc.txo } }

/-- The host offers a bit on RXI (20 R52). -/
def hostOfferRxi (b : Bit) (s : State) : State := { s with dec := { s.dec with rxi := offer [b] s.dec.rxi } }

/-- The host declares RXI ended (20 R52). -/
def hostEndRxi (s : State) : State := { s with dec := { s.dec with rxi := declareEnd s.dec.rxi } }

/-- The host raises demand on RXO (20 R53). -/
def hostDemandRxo (s : State) : State := { s with dec := { s.dec with rxo := raiseDemand s.dec.rxo } }

end Sys2Proof.Machine
end

