-- ==== Sys2Proof/Machine/Pins.lean ====
section
/-! DEFINITION. The output signals of 20 R55, read from the state: the pin-level reading of the port records, which
the rules of 20 R52 and R53 define. What a `ready` input is at pin level is `demand > 0` here (20 R55).
DEDUCED (log 21). The data lines `txo_bit`, `rxo_data` and `rxo_last` have a value only while their `valid` is 1:
the spec gives none otherwise, and the model gives none, `none` (DESIGN CHOICE, safe; log 27). -/

namespace Sys2Proof.Machine

/-- The codec's outputs on the stream ports and on the CSR port (20 R55). -/
structure Pins where
  txiReady : Bool
  /-- none while `txo_valid` is 0 (log 27) -/
  txoBit : Option Bit
  txoValid : Bool
  txoEnd : Bool
  rxiReady : Bool
  /-- none while `rxo_valid` is 0 (log 27) -/
  rxoData : Option Byte
  rxoValid : Bool
  /-- none while `rxo_valid` is 0 (log 27) -/
  rxoLast : Option Bool
  rxoEnd : Bool
  rxoFault : Bool
  csrRdata : Byte
deriving DecidableEq, Repr

/-- `txi_ready`: ENC takes an offered byte or end mark now (20 R55, 47 R273). -/
def pinTxiReady (e : Enc) : Bool :=
  decide (0 < e.txo.demand) && e.st == .fill && !e.srcend && decide (e.blen.toNat < maxBlock)

/-- `rxi_ready`: DEC takes an offered bit or end mark now (20 R55, 47 R288). -/
def pinRxiReady (d : Dec) : Bool := decide (0 < d.rxo.demand) && (d.st == .pfx || d.st == .payload)

/-- The outputs, with `csr_sel` given (20 R55). -/
def pins (csrSel : BitVec 3) (s : State) : Pins where
  txiReady := pinTxiReady s.enc
  txoBit := if s.enc.st = .shift then some (shiftBit s.enc) else none
  txoValid := s.enc.st == .shift
  txoEnd := encDone s.enc
  rxiReady := pinRxiReady s.dec
  rxoData := if s.dec.st = .drain then s.dec.buf[s.dec.oi.toNat]? else none
  rxoValid := s.dec.st == .drain
  rxoLast := if s.dec.st = .drain then some (s.dec.oi.toNat + 1 == s.dec.olen.toNat) else none
  rxoEnd := decDone s.dec
  rxoFault := decFaulted s.dec
  csrRdata := csrValue csrSel s

end Sys2Proof.Machine
end

