-- ==== Sys2Proof/Machine/Step.lean ====
section
/-! DEFINITION. One step of the whole machine: the next move of the agenda, or an engine's enabled step when the
agenda is empty (47 R270; log 4). A step ends in a next state, a fault of the model or a refusal. -/

namespace Sys2Proof.Machine

/-- The instruction encoded by the bytes is run; bytes that encode none do what `runNoInstruction` says. Bytes after
the instruction are not its own and are not used. -/
def runBytes (f : Format) (bytes : List Byte) (s : State) : Host.Outcome State Fault Refusal :=
  match decode f bytes with
  | .ok (i, _) => exec i s
  | .error e => runNoInstruction f e s

/-- A move is made (47 R270, 70 R362). -/
def runMove (m : Move) (s : State) : Host.Outcome State Fault Refusal :=
  match m with
  | .reset => .next (resetMachine s)
  | .encTurn => encTurn s
  | .decTurn => decTurn s
  | .offerTxi b => .next (hostOfferTxi b s)
  | .endTxi => .next (hostEndTxi s)
  | .demandTxo => .next (hostDemandTxo s)
  | .offerRxi b => .next (hostOfferRxi b s)
  | .endRxi => .next (hostEndRxi s)
  | .demandRxo => .next (hostDemandRxo s)
  | .csrWrite k v => .next (writeCsr k v s)
  | .instr f bytes => runBytes f bytes s

/-- One step: the next move, taken off the agenda, or an engine's turn. -/
def step (s : State) : Host.Outcome State Fault Refusal :=
  match s.agenda with
  | [] => engineTurn s
  | m :: rest => runMove m { s with agenda := rest }

/-- The state with a word of the opcode table as the next thing to be run: it is put at the head of the
agenda, in the format and with the zero bytes that `decodeTableWord` reads it in (log 6, log 7). -/
def State.withFetchWord (s : State) (nbits w : Nat) : State :=
  { s with agenda := .instr (tableFormat w) (tableBytes nbits w) :: s.agenda }

end Sys2Proof.Machine
end

