-- ==== Sys2Proof/Safety.lean ====
section
/-! DEFINITION. What a run is judged by: the observations of 00 R12 and the invariants of 47 R271. -/

namespace Sys2Proof.Machine

/-! ### Observation (00 R12) -/

/-- What is observed of an encode session: the bits emitted, whether `End` followed, the bytes consumed. -/
structure ObsEnc where
  bits : List Bit
  ended : Bool
  consumed : Nat
deriving DecidableEq, Repr

/-- The bit of an event, if it is one. -/
def bitOfEvent : TxoEvent → Option Bit
  | .bit v => some v
  | .endMark => none

/-- The observation of an encode session. -/
def obsEnc (e : Enc) : ObsEnc where
  bits := e.txo.trace.filterMap bitOfEvent
  ended := e.txo.trace.getLast? == some .endMark
  consumed := e.txi.n

/-- What is observed of a decode session: the events on RXO (chunks with their boundaries, and the terminal event if
there is one), the CSRs DEC_MAXERR, DEC_FAULT and DEC_STATUS, the bits consumed. -/
structure ObsDec where
  events : List RxoEvent
  maxerr : Byte
  fault : Byte
  status : Byte
  consumed : Nat
deriving DecidableEq, Repr

/-- The observation of a decode session. -/
def obsDec (d : Dec) : ObsDec where
  events := d.rxo.trace
  maxerr := csrDecMaxerr d
  fault := csrDecFault d
  status := csrDecStatus d
  consumed := d.rxi.n

/-- The events of one chunk: `last` on its final byte only (30 R90). -/
def chunkEvents : List Byte → List RxoEvent
  | [] => []
  | [b] => [.byte b true]
  | b :: rest => .byte b false :: chunkEvents rest

/-- The terminal event of an outcome (47 R296). -/
def outcomeEvent : StreamEnd → RxoEvent
  | .done => .endMark
  | .fault f => .fault (faultCode f)

/-- The events of a whole decode session (47 R296). -/
def streamEvents (r : StreamResult) : List RxoEvent :=
  (r.blocks.map chunkEvents).flatten ++ [outcomeEvent r.outcome]

/-! ### The invariants of 47 R271 -/

/-- ENC's part. That `ENC.ST` is in 0..4 is in its type. -/
def EncInv (e : Enc) : Prop :=
  e.blen.toNat ≤ 249 ∧
  (e.st = .shift →
    e.flen.toNat = e.blen.toNat + 7 ∧ e.byi.toNat < e.flen.toNat ∧
    (bufGet e.fr 0).toNat = e.flen.toNat - 1 ∧ (e.lastf = true ↔ e.blen = 0))

/-- DEC's part. That `DEC.ST` is in 0..6 is in its type. -/
def DecInv (d : Dec) : Prop :=
  (d.st = .payload → 1 ≤ d.pfx.toNat ∧ d.cnt.toNat < d.pfx.toNat) ∧
  (d.st = .decode → d.cnt = d.pfx) ∧
  (d.st = .drain →
    1 ≤ d.olen.toNat ∧ d.olen.toNat + 6 = d.pfx.toNat ∧ d.olen.toNat ≤ 249 ∧ d.oi.toNat < d.olen.toNat) ∧
  (d.st ≠ .pfx → d.st ≠ .payload → d.nb = 0) ∧
  d.maxerr.toNat ≤ 3 ∧
  (d.fault ≠ 0 ↔ d.st = .fault) ∧
  (d.report = true → d.st = .done)

/-- The invariants of every reachable state (47 R271). -/
def Inv (s : State) : Prop := EncInv s.enc ∧ DecInv s.dec

/-- The move starts or resets DEC: reset, or a write of CMD with bit 1 set in any of its forms. -/
def restartsDec (m : Move) : Bool :=
  match m with
  | .reset => true
  | .csrWrite k v => k == 6 && v.getLsbD 1
  | .instr f bytes =>
    match decode f bytes with
    | .ok (.encStart d _, _) => d
    | .ok (.decStart _ _, _) => true
    | _ => false
  | _ => false

end Sys2Proof.Machine
end

