-- ==== Sys2Proof/Certificates/Slice0/Obligations.lean ====
section
/-! DEFINITION. The statements for the provers. OBLIGATIONS.json lists them. -/

open Sys2Proof Sys2Proof.Machine

/-! ### Encodings and the step -/

/-- For every well-formed instruction, decoding its encoding in its format gives it back, with no byte left
(30 R81, R82, R85, R94). The operand bytes of operations are the model's own (log 8). -/
def Obligations.DecodeEncodeRoundTrip : Prop :=
  ∀ i : Instr, i.WellFormed → decode i.format (encode i) = .ok (i, [])

/-- Every frame byte stream with a first byte holds a frame of the class its prefix selects, whose encoding is
the bytes it was read from; the next frame begins after the payload (30 R82, R85, R87). Where the stream has
fewer than `p` bytes after the prefix, the term it holds is the cut-short frame of log 15, the model's form:
30 R82 makes a frame `p + 1` bytes, and 45 R221 makes the short stream a truncation. -/
def Obligations.FramePrefixSelectsClass : Prop :=
  ∀ (p : Byte) (rest : List Byte), ∃ i : Instr,
    decode .frame (p :: rest) = .ok (i, rest.drop p.toNat) ∧ i.WellFormed ∧
    encode i = p :: rest.take p.toNat ∧
    frameClass i = some (if p.toNat < 6 then .short else if p.toNat = 6 then .eof else .data)

/-- Words decode to their instructions. Written out from the spec's encodings are prefix 0x03 (000000pp), 0x05
(0000010p), 0x06, 0x0B (00001ppp), the group 11010000 in stream order (byte 0x0B), the operation numbers 0x12
and 0x82, and the CMD words 0x01 and 0x02. The operand bytes after 0x12 and 0x82 are the model's own container
(log 8); that the CMD word 0x03 reads as ENC.START with `d` set is the model's choice of a term (log 22). -/
def Obligations.SampleWordsDecode : Prop :=
  decode .frame [0x03, 0xAA, 0xBB, 0xCC] = .ok (.frameShort00 3 [0xAA, 0xBB, 0xCC], []) ∧
  decode .frame [0x05, 1, 2, 3, 4, 5] = .ok (.frameShort04 1 [1, 2, 3, 4, 5], []) ∧
  decode .frame [0x06, 0, 0, 0, 0, 0, 0] = .ok (.frameEof [0, 0, 0, 0, 0, 0], []) ∧
  decode .frame [0x0B, 0x68, 0x65, 0x6C, 0x6C, 0x6F, 0xDF, 0x79, 0x63, 0xBB, 0xFB, 0xE7, 0x06] =
    .ok (.frameData08 3 [0x68, 0x65, 0x6C, 0x6C, 0x6F, 0xDF, 0x79, 0x63, 0xBB, 0xFB, 0xE7], [0x06]) ∧
  decode .bitgroup [0x0B] = .ok (.bitgroup #v[true, true, false, true, false, false, false, false], []) ∧
  decode .op [0x12, 0x53, 0xCA] = .ok (.gfMul 0x53 0xCA, []) ∧
  decode .op [0x82, 0x03] = .ok (.csrRead 3, []) ∧
  decode .cmd [0x01] = .ok (.encStart false 0, []) ∧
  decode .cmd [0x02] = .ok (.decStart false 0, []) ∧
  decode .cmd [0x03] = .ok (.encStart true 0, [])

/-- A step whose next move is to run bytes runs the instruction they decode to, on the state with that move
taken off the agenda; a CMD word with neither START bit changes nothing (10 R35); no bytes change nothing, but
in the frame stream they are its end (log 15); bytes that name no operation are refused by name (log 8); and a
table word put in by `withFetchWord` runs the instruction `decodeTableWord` names (log 6, log 7). The agenda
is the model's (log 4). -/
def Obligations.StepRunsDecodedInstruction : Prop :=
  (∀ (s : State) (f : Format) (bytes out : List Byte) (i : Instr) (rest : List Move),
    s.agenda = .instr f bytes :: rest → decode f bytes = .ok (i, out) →
    step s = exec i { s with agenda := rest }) ∧
  (∀ (s : State) (f : Format) (bytes : List Byte) (rest : List Move), s.agenda = .instr f bytes :: rest →
    (decode f bytes = .error .noStartBit → step s = .next { s with agenda := rest }) ∧
    (decode f bytes = .error .noBytes → f ≠ .frame → step s = .next { s with agenda := rest }) ∧
    (decode f bytes = .error .noBytes → f = .frame → step s = .next { s with
      agenda := rest
      dec := if frameReady s.dec then
          { s.dec with rxi := { s.dec.rxi with ended := true }, fault := 1, st := .fault, nb := 0 }
        else { s.dec with rxi := { s.dec.rxi with ended := true } } }) ∧
    (∀ number, decode f bytes = .error (.unknownOperation number) → step s = .refused (.noSuchOperation number))) ∧
  (∀ (s : State) (nbits w : Nat) (i : Instr),
    decodeTableWord nbits w = some i → step (s.withFetchWord nbits w) = exec i s)

/-! ### BitPacker -/

/-- BP.TOBITS completes in every state and gives bits 0 to 7 in this order; under `MSB_FIRST` the order is
reversed (40 R110). -/
def Obligations.TobitsGivesStreamOrder : Prop :=
  (∀ (b : Byte) (s : State),
    exec (.bpTobits b) s = .next { s with result := .bits ((List.range 8).map (fun k => b.getLsbD k)) }) ∧
  (∀ b : Byte, (tobits .lsbFirst b).toList = (List.range 8).map (fun k => b.getLsbD k)) ∧
  (∀ b : Byte, (tobits .msbFirst b).toList = (List.range 8).map (fun k => b.getLsbD (7 - k)))

/-- BP.TOBYTE completes in every state and gives the sum of `t[k] * 2^k`; under `MSB_FIRST` the weight of
`t[k]` is `2^(7-k)` (40 R111). -/
def Obligations.TobyteGivesWeightedSum : Prop :=
  (∀ (t : BitTuple) (s : State), ∃ v : Byte,
    exec (.bpTobyte t) s = .next { s with result := .byte v } ∧ v = tobyte .lsbFirst t) ∧
  (∀ t : BitTuple,
    (tobyte .lsbFirst t).toNat = ((List.range 8).map (fun k => (t.toList.getD k false).toNat * 2 ^ k)).sum) ∧
  (∀ t : BitTuple,
    (tobyte .msbFirst t).toNat = ((List.range 8).map (fun k => (t.toList.getD k false).toNat * 2 ^ (7 - k))).sum)

/-- The two operations are mutually inverse, in either bit order (40 R112). -/
def Obligations.BitTuplesBijective : Prop :=
  ∀ o : BitOrder,
    (∀ b : Byte, tobyte o (tobits o b) = b) ∧ (∀ t : BitTuple, tobits o (tobyte o t) = t)

/-- BP.EXPAND completes in every state; the result has 8 bits per byte, and its bit `8 i + k` is bit `k` of
byte `i` (40 R114). -/
def Obligations.ExpandGivesBytesBitByBit : Prop :=
  ∀ (y : List Byte) (s : State), ∃ l : List Bit,
    exec (.bpExpand y) s = .next { s with result := .bits l } ∧ l.length = 8 * y.length ∧
    ∀ i k, k < 8 → i < y.length → l.getD (8 * i + k) false = (y.getD i 0).getLsbD k

/-- BP.GROUP completes in every state; byte `i` of the result is the byte of bits `8 i` to `8 i + 7`, and a
trailing partial group is dropped (40 R115). -/
def Obligations.GroupGivesWholeBytes : Prop :=
  (∀ (x : List Bit) (s : State), ∃ l : List Byte,
    exec (.bpGroup x) s = .next { s with result := .bytes l } ∧ l.length = x.length / 8 ∧
    ∀ i k, k < 8 → i < x.length / 8 → (l.getD i 0).getLsbD k = x.getD (8 * i + k) false) ∧
  (∀ (o : BitOrder) (y : List Byte) (z : List Bit), z.length < 8 → bpGroup o (bpExpand o y ++ z) = y)

/-! ### GF(2^8) -/

/-- GF.ADD and GF.XTIME complete in every state: bit `k` of the sum is `(a[k] + b[k]) mod 2`; `ALPHA (*) a` is
`2a mod 256`, with 0x1D added when bit 7 was one (41 R131, R132). -/
def Obligations.GfAddAndXtimeResults : Prop :=
  (∀ (a b : Byte) (s : State), ∃ v : Byte,
    exec (.gfAdd a b) s = .next { s with result := .byte v } ∧
    ∀ k, k < 8 → (v.getLsbD k).toNat = ((a.getLsbD k).toNat + (b.getLsbD k).toNat) % 2) ∧
  (∀ (a : Byte) (s : State), ∃ v : Byte,
    exec (.gfXtime a) s = .next { s with result := .byte v } ∧
    v = if a.toNat < 128 then BitVec.ofNat 8 (2 * a.toNat) else BitVec.ofNat 8 (2 * a.toNat) ^^^ 0x1D)

/-- Multiplication is commutative, associative, distributes over `(+)`, has identity 0x01 and no zero divisors
(41 R133, R139). -/
def Obligations.GfMulFieldLaws : Prop :=
  ∀ a b c : Byte,
    gfMul a b = gfMul b a ∧ gfMul (gfMul a b) c = gfMul a (gfMul b c) ∧
    gfMul a (b ^^^ c) = gfMul a b ^^^ gfMul a c ∧ gfMul 0x01 b = b ∧
    (gfMul a b = 0x00 ↔ a = 0x00 ∨ b = 0x00)

/-- GF.MUL completes in every state, and its value is 0x00 for a zero operand, else `EXP[(LOG[a] + LOG[b]) mod
255]` (41 R133). -/
def Obligations.GfMulByLogarithms : Prop :=
  ∀ (a b : Byte) (s : State),
    exec (.gfMul a b) s = .next { s with
      result := .byte (if a = 0 ∨ b = 0 then 0x00 else gfExp (((gfLog a + gfLog b) % 255 : Nat) : Int)) }

/-- GF.EXP completes for every integer: its values satisfy the recurrence by GF.XTIME in both directions, have
period 255, and over 0..254 are the 255 nonzero bytes, each once (41 R134). -/
def Obligations.GfExpPowersOfAlpha : Prop :=
  (∀ (e : Int) (s : State), ∃ v : Byte,
    exec (.gfExp e) s = .next { s with result := .byte v } ∧ v = gfExp e ∧ v ≠ 0) ∧
  gfExp 0 = 0x01 ∧
  (∀ e : Int, gfExp (e + 1) = gfXtime (gfExp e)) ∧
  (∀ e : Int, gfExp e = gfExp (e % 255)) ∧
  (∀ a : Byte, a ≠ 0 → ∃ e : Nat, e < 255 ∧ gfExp e = a ∧ ∀ e' : Nat, e' < 255 → gfExp e' = a → e' = e)

/-- GF.LOG completes in every state, also for 0x00, where the spec states no result and nothing is said of it
(log 16). For a nonzero byte the result is the unique `e` in 0..254 with `ALPHA^e = a` (41 R135). -/
def Obligations.GfLogIsTheExponent : Prop :=
  ∀ (a : Byte) (s : State), ∃ e : Nat,
    exec (.gfLog a) s = .next { s with result := .exponent e } ∧
    (a ≠ 0 → e < 255 ∧ gfExp e = a ∧ ∀ e' : Nat, e' < 255 → gfExp e' = a → e' = e)

/-- GF.INV and GF.DIV complete in every state, also for an inverse of or a quotient by 0x00, where the spec
states no result and nothing is said of it (log 16). The inverse of a nonzero byte is the unique byte with
product 0x01; the quotient by a nonzero byte is the unique byte whose product with it is the dividend (41
R136, R137). -/
def Obligations.GfInverseAndQuotient : Prop :=
  (∀ (a : Byte) (s : State), ∃ v : Byte,
    exec (.gfInv a) s = .next { s with result := .byte v } ∧
    (a ≠ 0 → gfMul a v = 0x01 ∧ ∀ w, gfMul a w = 0x01 → w = v)) ∧
  (∀ (a b : Byte) (s : State), ∃ v : Byte,
    exec (.gfDiv a b) s = .next { s with result := .byte v } ∧
    (b ≠ 0 → gfMul v b = a ∧ ∀ w, gfMul w b = a → w = v))

/-- GF.PEVAL completes in every state with the value of the polynomial whose highest coefficient is first: the
sum of `w[i] (*) v^(n-1-i)`, the power being the product of that many factors `v` (41 R138). -/
def Obligations.GfPevalIsThePolynomialValue : Prop :=
  ∀ (w : List Byte) (v : Byte) (s : State),
    exec (.gfPeval w v) s = .next { s with
      result := .byte (((List.range w.length).map (fun i =>
        gfMul (w.getD i 0) ((List.replicate (w.length - 1 - i) v).foldl gfMul 0x01))).foldl (· ^^^ ·) 0x00) }

/-! ### Reed-Solomon encoder -/

/-- RS.PARITY and RS.ENC complete for every Block in every state. The encoding is the Block unchanged, then
the six parity bytes, and it is in `Code(n)` (42 R153, R154). -/
def Obligations.EncodingIsSystematicCodeword : Prop :=
  ∀ (m : Block) (s : State), ∃ p : List Byte,
    exec (.rsParity m) s = .next { s with result := .bytes p } ∧ p.length = 6 ∧
    exec (.rsEnc m) s = .next { s with result := .bytes (m.val ++ p) } ∧
    InCode (m.val.length + 6) (m.val ++ p)

/-- `RS.ENC` is injective and onto `Code(n)`: every codeword is the encoding of exactly one Block, its first
`n - 6` bytes (42 R155). -/
def Obligations.EveryCodewordIsTheEncodingOfItsBlock : Prop :=
  ∀ (n : Nat) (c : List Byte), 6 ≤ n → n ≤ 255 →
    (InCode n c ↔ c.length = n ∧ rsEnc (c.take (n - 6)) = c) ∧
    (InCode n c → ∀ m : List Byte, m.length = n - 6 → rsEnc m = c → m = c.take (n - 6))

/-! ### Reed-Solomon decoder -/

/-- Two codewords of the same length within distance 3 of one word are equal (43 R171). -/
def Obligations.CodewordWithinThreeIsUnique : Prop :=
  ∀ (n : Nat) (r c c' : List Byte), 6 ≤ n → n ≤ 255 → r.length = n → InCode n c → InCode n c' →
    dist c r ≤ 3 → dist c' r ≤ 3 → c = c'

/-- RS.SYN completes in every state. Syndrome `j` is the sum of `r[i] (*) (ALPHA^j)^(n-1-i)`, and the six are
all 0x00 exactly when the word is in `Code(n)` (43 R173). -/
def Obligations.SyndromesArePowerSums : Prop :=
  ∀ (r : List Byte) (s : State), ∃ l : List Byte,
    exec (.rsSyn r) s = .next { s with result := .bytes l } ∧ l.length = 6 ∧
    (∀ j, j < 6 → l.getD j 0 =
      ((List.range r.length).map (fun i =>
        gfMul (r.getD i 0) (gfExp ((j * (r.length - 1 - i) : Nat) : Int)))).foldl (· ^^^ ·) 0x00) ∧
    (InCode r.length r ↔ ∀ j, j < 6 → l.getD j 0 = 0x00)

/-- The syndromes of the errors `(e, x)`: a byte changed by `e` at the wire position whose power of `x` is `x`
(43 R173). -/
def errorSyndromes (errs : List (Byte × Nat)) : Syndromes :=
  Vector.ofFn (fun j : Fin 6 =>
    (errs.map (fun p => gfMul p.1 (gfExp ((j.val * p.2 : Nat) : Int)))).foldl (· ^^^ ·) 0x00)

/-- The product of `1 (+) X x` over up to three locators `X`, low power first (43 R174). -/
def productLocator : List Byte → List Byte
  | [a] => [0x01, a]
  | [a, b] => [0x01, a ^^^ b, gfMul a b]
  | [a, b, c] => [0x01, a ^^^ b ^^^ c, gfMul a b ^^^ gfMul a c ^^^ gfMul b c, gfMul a (gfMul b c)]
  | _ => []

/-- One to three errors of nonzero value at different locators. -/
def SomeErrors (errs : List (Byte × Nat)) : Prop :=
  1 ≤ errs.length ∧ errs.length ≤ 3 ∧ (∀ p ∈ errs, p.1 ≠ 0x00) ∧ (errs.map (fun p => gfExp p.2)).Nodup

/-- RS.LOCATOR completes for all syndromes in every state with a locator whose constant term is 0x01; for the
syndromes of one to three errors at different locators the result is the product of `1 (+) X x` over them, its
degree their number (43 R174). That the operation runs on six zero syndromes too, which R174 does not take as
its operand, is the model's (log 18). -/
def Obligations.LocatorOfUpToThreeErrors : Prop :=
  (∀ (syn : Syndromes) (s : State), ∃ c l,
    exec (.rsLocator syn) s = .next { s with result := .locator c l } ∧ c.head? = some 0x01) ∧
  (∀ (errs : List (Byte × Nat)) (s : State), SomeErrors errs →
    exec (.rsLocator (errorSyndromes errs)) s = .next { s with
      result := .locator (productLocator (errs.map (fun p => gfExp p.2))) errs.length })

/-- RS.CHIEN completes in every state with the positions, ascending, at which the inverse of the locator is a
root, and no others (43 R175). The value of the locator is computed from its list, low power first. -/
def Obligations.ChienFindsTheRoots : Prop :=
  ∀ (c : List Byte) (n : Byte) (s : State), ∃ l : List Nat,
    exec (.rsChien c n) s = .next { s with result := .positions l } ∧ l.Pairwise (· < ·) ∧
    ∀ i, i ∈ l ↔ i < n.toNat ∧
      c.foldr (fun a acc => a ^^^ gfMul acc (gfExp (-((n.toNat - 1 - i : Nat) : Int)))) 0x00 = 0x00

/-- `Omega(X^-1)` for `X = ALPHA^x`, `Omega` being the terms below `x^6` of the product of syndromes and
locator (43 R176). -/
def omegaAt (syn : Syndromes) (c : List Byte) (x : Int) : Byte :=
  ((List.range 6).map (fun k => gfMul
    (((List.range (k + 1)).map (fun j => gfMul (syn.toList.getD j 0x00) (c.getD (k - j) 0x00))).foldl (· ^^^ ·) 0x00)
    (gfExp (-(k * x))))).foldl (· ^^^ ·) 0x00

/-- `Lambda'(X^-1)` for `X = ALPHA^x`: the terms of odd power, each lowered by one (43 R176). -/
def derivativeAt (c : List Byte) (x : Int) : Byte :=
  (((List.range c.length).filter (fun k => k % 2 = 1)).map (fun k =>
    gfMul (c.getD k 0x00) (gfExp (-((k - 1 : Nat) * x))))).foldl (· ^^^ ·) 0x00

/-- RS.FORNEY completes in every state. It fails exactly where the derivative or the magnitude is 0x00 at some
position; else it gives one magnitude `E` per position with `E (*) Lambda'(X^-1) = X (*) Omega(X^-1)`. For the
syndromes of one to three errors in the word, with their locator and positions, the magnitudes are the errors'
values (43 R176). That the formula is also used for numbers that are no position of the word is the model's
(log 18). -/
def Obligations.ForneyGivesTheMagnitudes : Prop :=
  (∀ (syn : Syndromes) (c pos : List Byte) (n : Byte) (s : State), ∃ m : Option (List Byte),
    exec (.rsForney syn c pos n) s = .next { s with result := .magnitudes m } ∧
    (m = none ↔ ∃ i ∈ pos, derivativeAt c (n.toNat - 1 - i.toNat) = 0x00 ∨
      omegaAt syn c (n.toNat - 1 - i.toNat) = 0x00) ∧
    ∀ l, m = some l → l.length = pos.length ∧ ∀ k, k < pos.length →
      gfMul (l.getD k 0x00) (derivativeAt c (n.toNat - 1 - (pos.getD k 0).toNat)) =
        gfMul (gfExp (n.toNat - 1 - (pos.getD k 0).toNat)) (omegaAt syn c (n.toNat - 1 - (pos.getD k 0).toNat))) ∧
  (∀ (errs : List (Byte × Nat)) (n : Byte) (s : State), SomeErrors errs → (∀ p ∈ errs, p.2 < n.toNat) →
    exec (.rsForney (errorSyndromes errs) (productLocator (errs.map (fun p => gfExp p.2)))
        (errs.map (fun p => BitVec.ofNat 8 (n.toNat - 1 - p.2))) n) s =
      .next { s with result := .magnitudes (some (errs.map (fun p => p.1))) })

/-- RS.DEC completes for every word of 6 to 255 bytes in every state with the answer of its contract: `Ok(B,
e)` with `B` the Block of a codeword at distance exactly `e`, at most 3, from the word, and `Uncorrectable`
where every codeword is farther than 3 (43 R170). -/
def Obligations.RsDecMeetsItsContract : Prop :=
  ∀ (r : RsWord) (s : State),
    exec (.rsDec r) s = .next { s with result := .rsDec (rsDec r.val) } ∧ RsDecContract r.val (rsDec r.val)

/-- Every word within distance 3 of a codeword is decoded to that codeword's Block, with the distance as its
count (43 R170, R172, R178). -/
def Obligations.RsDecCorrectsUpToThreeErrors : Prop :=
  ∀ (n : Nat) (c r : List Byte), 6 ≤ n → n ≤ 255 → InCode n c → r.length = n → dist c r ≤ 3 →
    rsDec r = .ok (c.take (n - 6)) (dist c r)

/-! ### Framer, encode side -/

/-- FR.SPLIT completes in every state: the Blocks concatenate to the payload, each but the last has 249 bytes,
the last has 1 to 249, and there are `ceil(len / 249)` (44 R200). -/
def Obligations.SplitCutsThePayloadIntoBlocks : Prop :=
  ∀ (y : List Byte) (s : State), ∃ l : List (List Byte),
    exec (.frSplit y) s = .next { s with result := .byteSeqs l } ∧ l.flatten = y ∧
    l.length = (y.length + 248) / 249 ∧
    (∀ b ∈ l, 1 ≤ b.length ∧ b.length ≤ 249) ∧ (∀ b ∈ l.dropLast, b.length = 249)

/-- FR.PACK and FR.ENC complete in every state. A frame is the length of the coded payload, then the codeword
(44 R201). The frames of a payload end with the EOF frame, which no other is; every prefix is in 6..255; there
are `ceil(len / 249) + 1` frames (44 R202, R203). -/
def Obligations.FramesOfAPayload : Prop :=
  (∀ (b : Block) (s : State), ∃ f : List Byte,
    exec (.frPack b) s = .next { s with result := .bytes f } ∧ f.length = b.val.length + 7 ∧
    (f.getD 0 0).toNat = b.val.length + 6 ∧ f.drop 1 = rsEnc b.val) ∧
  (∀ (y : List Byte) (s : State), ∃ l : List (List Byte),
    exec (.frEnc y) s = .next { s with result := .byteSeqs (l ++ [[0x06, 0, 0, 0, 0, 0, 0]]) } ∧
    l = (frSplit y).map frPack ∧ l.length = (y.length + 248) / 249 ∧
    (∀ f ∈ l, 7 ≤ (f.getD 0 0).toNat) ∧
    (l ++ [[0x06, 0, 0, 0, 0, 0, 0]]).flatten.length = y.length + 7 * ((y.length + 248) / 249 + 1))

/-! ### Framer, decode side -/

/-- DEC stands at `D_BIT` in state `st` and the pull returns `End` (47 R288, R294). -/
def BitsEndAt (st : DecState) (d : Dec) : Prop :=
  d.st = st ∧ 0 < d.rxo.demand ∧ d.rxi.queue = [] ∧ d.rxi.ended = true

/-- DEC stands at `D_DECODE` with demand (47 R291). -/
def DecodesNow (d : Dec) : Prop := d.st = .decode ∧ 0 < d.rxo.demand

/-- FR.TAKEPFX, FR.TAKEPAY and FR.CHECKLEN complete in every state with their value; where they raise and DEC
stands at the step they are part of, they take their exception, whose entry is exactly `DEC.FAULT <- code`,
`DEC.ST <- D_FAULT`, `DEC.NB <- 0` (45 R220, R221, R222; 60 R316); elsewhere the fault is their answer and no
register changes (60 R310, R321; log 10). -/
def Obligations.FrameStepsGiveValuesOrRaise : Prop :=
  ∀ s : State,
    (∀ (p : Byte) (y : List Byte), exec (.frTakepfx (p :: y)) s = .next { s with result := .taken p y }) ∧
    (BitsEndAt .pfx s.dec →
      exec (.frTakepfx []) s = .next { s with dec := { s.dec with fault := 1, st := .fault, nb := 0 } }) ∧
    (¬ BitsEndAt .pfx s.dec → exec (.frTakepfx []) s = .next { s with result := .raised .truncatedPrefix }) ∧
    (∀ (p : Byte) (y : List Byte), p.toNat ≤ y.length →
      exec (.frTakepay p y) s = .next { s with result := .takenPayload (y.take p.toNat) (y.drop p.toNat) }) ∧
    (∀ (p : Byte) (y : List Byte), y.length < p.toNat → BitsEndAt .payload s.dec →
      exec (.frTakepay p y) s = .next { s with dec := { s.dec with fault := 2, st := .fault, nb := 0 } }) ∧
    (∀ (p : Byte) (y : List Byte), y.length < p.toNat → ¬ BitsEndAt .payload s.dec →
      exec (.frTakepay p y) s = .next { s with result := .raised .truncatedPayload }) ∧
    (∀ p : Byte, 6 ≤ p.toNat → exec (.frChecklen p) s = .next { s with result := .lengthOk }) ∧
    (∀ p : Byte, p.toNat < 6 → DecodesNow s.dec →
      exec (.frChecklen p) s = .next { s with dec := { s.dec with fault := 4, st := .fault, nb := 0 } }) ∧
    (∀ p : Byte, p.toNat < 6 → ¬ DecodesNow s.dec →
      exec (.frChecklen p) s = .next { s with result := .raised .frameTooShort })

/-- FR.MAXUPD completes in every state. At `D_DECODE`, `DEC.MAXERR` becomes the maximum of itself and `e` and
nothing else changes (45 R224); elsewhere no register changes, and the maximum is the answer (10 R34; log 26).
FR.EOFDET completes in every state: false for a nonempty Block, with no effect; true for the empty Block, at
`D_DECODE` with `DEC.REPORT` set iff `DEC.MAXERR != 0` and DEC in `D_DONE`, elsewhere with no register changed
(45 R225, R233; log 11). -/
def Obligations.MaxupdAndEofdetEffects : Prop :=
  (∀ (e : BitVec 2) (s : State), ∃ m : BitVec 8, m.toNat = max s.dec.maxerr.toNat e.toNat ∧
    (DecodesNow s.dec → exec (.frMaxupd e) s = .next { s with dec := { s.dec with maxerr := m } }) ∧
    (¬ DecodesNow s.dec → exec (.frMaxupd e) s = .next { s with result := .byte m })) ∧
  (∀ (b : Block) (s : State), b.val ≠ [] → exec (.frEofdet b) s = .next { s with result := .flag false }) ∧
  (∀ (b : Block) (s : State), b.val = [] →
    (DecodesNow s.dec → exec (.frEofdet b) s = .next { s with
      result := .flag true, dec := { s.dec with st := .done, report := decide (s.dec.maxerr ≠ 0) } }) ∧
    (¬ DecodesNow s.dec → exec (.frEofdet b) s = .next { s with result := .flag true }))

/-- FR.DEC completes in every state, and it is the function given by the recursion of 45 R226. -/
def Obligations.FrDecFollowsItsRecursion : Prop :=
  (∀ (y : List Byte) (m : BitVec 2) (s : State),
    exec (.frDec y m) s = .next { s with result := .stream (frDec y m.toNat) }) ∧
  (∀ m : Nat, frDec [] m = ⟨[], .fault .truncatedPrefix, m, 0⟩) ∧
  (∀ (p : Byte) (rest : List Byte) (m : Nat), frDec (p :: rest) m =
    if rest.length < p.toNat then ⟨[], .fault .truncatedPayload, m, rest.length + 1⟩
    else if p.toNat < 6 then ⟨[], .fault .frameTooShort, m, 1 + p.toNat⟩
    else
      match rsDec (rest.take p.toNat) with
      | .uncorrectable => ⟨[], .fault .uncorrectable, m, 1 + p.toNat⟩
      | .ok b e =>
        if b.length = 0 then ⟨[], .done, max m e, 1 + p.toNat⟩
        else
          ⟨b :: (frDec (rest.drop p.toNat) (max m e)).blocks,
            (frDec (rest.drop p.toNat) (max m e)).outcome,
            (frDec (rest.drop p.toNat) (max m e)).maxerr,
            1 + p.toNat + (frDec (rest.drop p.toNat) (max m e)).consumed⟩)

/-! ### Bitstream codec -/

/-- BS.ENC completes in every state; its result has `8 (len(S) + 7 (ceil(len(S) / 249) + 1))` bits (46 R250,
R252). -/
def Obligations.BsEncLength : Prop :=
  ∀ (y : List Byte) (s : State), ∃ z : List Bit,
    exec (.bsEnc y) s = .next { s with result := .bits z } ∧
    z = bpExpand .lsbFirst (frEnc y).flatten ∧
    z.length = 8 * (y.length + 7 * ((y.length + 248) / 249 + 1))

/-- BS.DEC completes in every state, and decoding what BS.ENC made gives the Blocks, `Done`, maximum 0 and
every bit consumed (46 R253). -/
def Obligations.BitstreamRoundTrip : Prop :=
  (∀ (z : List Bit) (s : State),
    exec (.bsDec z) s = .next { s with result := .stream (bsDec .lsbFirst z) }) ∧
  (∀ (o : BitOrder) (y : List Byte),
    bsDec o (bsEnc o y) = ⟨frSplit y, .done, 0, (bsEnc o y).length⟩)

/-- Bits after the EOF frame are not consumed and have no effect (46 R254). -/
def Obligations.BitsAfterEofAreIgnored : Prop :=
  ∀ (o : BitOrder) (y : List Byte) (g : List Bit), bsDec o (bsEnc o y ++ g) = bsDec o (bsEnc o y)

/-! ### Commands, CSRs, reset, host moves -/

/-- ENC.START is accepted in every state of ENC and has the effect of 47 R272: `BLK`, `FR`, `FLEN` and DEC are
unchanged. With bit 1 of the word set as well it starts DEC too (10 R35). -/
def Obligations.EncStartEffect : Prop :=
  ∀ (r : BitVec 6) (s : State),
    exec (.encStart false r) s = .next { s with enc := { s.enc with
      st := .fill, blen := 0, srcend := false, lastf := false, byi := 0, bii := 0
      txi := { queue := [], ended := false, n := 0 }, txo := { trace := [], demand := 0, n := 0 } } } ∧
    exec (.encStart true r) s = .next { s with enc := startEnc s.enc, dec := startDec s.dec }

/-- DEC.START is accepted in every state of DEC and has the effect of 47 R286: `ACC`, `PFX`, `BUF`, `OLEN` and
ENC are unchanged. With bit 0 of the word set as well it starts ENC too (10 R35). -/
def Obligations.DecStartEffect : Prop :=
  ∀ (r : BitVec 6) (s : State),
    exec (.decStart false r) s = .next { s with dec := { s.dec with
      st := .pfx, nb := 0, cnt := 0, oi := 0, maxerr := 0, fault := 0, report := false
      rxi := { queue := [], ended := false, n := 0 }, rxo := { trace := [], demand := 0, n := 0 } } } ∧
    exec (.decStart true r) s = .next { s with enc := startEnc s.enc, dec := startDec s.dec }

/-- CSR.READ completes in every state, changes no register, and gives each CSR's bits as 10 R29 to R35 lay
them out. -/
def Obligations.CsrReadLayouts : Prop :=
  ∀ (k : BitVec 3) (s : State), ∃ v : Byte,
    exec (.csrRead k) s = .next { s with result := .byte v } ∧
    (k = 0 → v = 0x06) ∧ (k = 1 → v = 0xFF) ∧
    (k = 2 → v.toNat =
      (match s.enc.st with | .idle => 0 | .fill => 1 | .code => 2 | .shift => 3 | .done => 4) + 8 * (decide (s.enc.st = .done)).toNat +
      16 * s.enc.srcend.toNat + 32 * s.enc.lastf.toNat) ∧
    (k = 3 → v.toNat =
      (match s.dec.st with
        | .idle => 0 | .pfx => 1 | .payload => 2 | .decode => 3 | .drain => 4 | .done => 5 | .fault => 6) + 8 * (decide (s.dec.st = .done)).toNat +
      16 * (decide (s.dec.st = .fault)).toNat + 32 * s.dec.report.toNat) ∧
    (k = 4 → v.toNat = s.dec.fault.toNat) ∧ (k = 5 → v = s.dec.maxerr) ∧ (k = 6 → v = 0x00) ∧ (k = 7 → v = 0x00)

/-- After reset both engines are idle and wait, whatever input is offered or demand raised: every CSR reads as
70 R351 says, no output signal is asserted (the signals as functions of the state: log 21), and a step with
nothing on the agenda changes nothing. Reset in any state leaves `State.reset` but for the agenda (log 4); the
registers 10 R43 leaves unspecified are zero there, the model's choice (log 1) (70 R350, R351, R352). -/
def Obligations.ResetLeavesBothEnginesIdle : Prop :=
  (∀ s : State, runMove .reset s = .next { State.reset with agenda := s.agenda }) ∧
  step State.reset = .next State.reset ∧
  (csrValue 0 State.reset = 0x06 ∧ csrValue 1 State.reset = 0xFF ∧ csrValue 2 State.reset = 0x00 ∧
    csrValue 3 State.reset = 0x00 ∧ csrValue 4 State.reset = 0x00 ∧ csrValue 5 State.reset = 0x00 ∧
    csrValue 6 State.reset = 0x00) ∧
  (∀ k, (pins k State.reset).txiReady = false ∧ (pins k State.reset).txoValid = false ∧
    (pins k State.reset).txoEnd = false ∧ (pins k State.reset).rxiReady = false ∧
    (pins k State.reset).rxoValid = false ∧ (pins k State.reset).rxoEnd = false ∧
    (pins k State.reset).rxoFault = false) ∧
  (∀ s : State, s.enc.st = .idle → s.dec.st = .idle → s.agenda = [] → step s = .next s)

/-- What the host's moves do. An element offered on TXI or RXI is appended to the queue, a declared end sets
`ended`, demand on TXO or RXO rises by one (20 R52, R53); after the end was declared, an element or an end
changes nothing (20 R52, 70 R362). A write of CSR6 starts the engines whose START bits are set (10 R35); a
write to another CSR, or of CMD with neither START bit, changes nothing (10 R35, 47 R299). -/
def Obligations.HostMoveEffects : Prop :=
  ∀ s : State,
    (s.enc.txi.ended = false → ∀ b, runMove (.offerTxi b) s = .next { s with enc := { s.enc with
      txi := { s.enc.txi with queue := s.enc.txi.queue ++ [b] } } }) ∧
    (s.dec.rxi.ended = false → ∀ b, runMove (.offerRxi b) s = .next { s with dec := { s.dec with
      rxi := { s.dec.rxi with queue := s.dec.rxi.queue ++ [b] } } }) ∧
    runMove .endTxi s = .next { s with enc := { s.enc with txi := { s.enc.txi with ended := true } } } ∧
    runMove .endRxi s = .next { s with dec := { s.dec with rxi := { s.dec.rxi with ended := true } } } ∧
    runMove .demandTxo s = .next { s with enc := { s.enc with
      txo := { s.enc.txo with demand := s.enc.txo.demand + 1 } } } ∧
    runMove .demandRxo s = .next { s with dec := { s.dec with
      rxo := { s.dec.rxo with demand := s.dec.rxo.demand + 1 } } } ∧
    (s.enc.txi.ended = true → (∀ b, runMove (.offerTxi b) s = .next s) ∧ runMove .endTxi s = .next s) ∧
    (s.dec.rxi.ended = true → (∀ b, runMove (.offerRxi b) s = .next s) ∧ runMove .endRxi s = .next s) ∧
    (∀ v : Byte, runMove (.csrWrite 6 v) s = .next { s with
      enc := if v.getLsbD 0 then startEnc s.enc else s.enc
      dec := if v.getLsbD 1 then startDec s.dec else s.dec }) ∧
    (∀ (k : BitVec 3) (v : Byte), k ≠ 6 → runMove (.csrWrite k v) s = .next s) ∧
    (∀ v : Byte, v.getLsbD 0 = false → v.getLsbD 1 = false → runMove (.csrWrite 6 v) s = .next s)

/-! ### Frames and bit groups as instructions -/

/-- The registers and ports no frame taken whole writes: ENC, the result, the agenda, and of DEC `OI` on an
end or fault, `RXO`, and RXI's queue. -/
def FrameLeaves (s t : State) : Prop :=
  t.enc = s.enc ∧ t.result = s.result ∧ t.agenda = s.agenda ∧ t.dec.rxo = s.dec.rxo ∧
  t.dec.rxi.queue = s.dec.rxi.queue

/-- A short frame taken whole: the fault FrameTooShort, with the prefix and payload in the registers (60 R315,
R316). -/
def ShortFrameTaken (o : Result) (p : Nat) (w : List Byte) (s : State) : Prop :=
  ∃ t, o = .next t ∧ FrameLeaves s t ∧ t.dec.st = .fault ∧ t.dec.fault = 4 ∧ t.dec.nb = 0 ∧
    t.dec.pfx.toNat = p ∧ t.dec.cnt.toNat = p ∧ bufTake t.dec.buf p = w ∧
    t.dec.buf.toList.drop p = s.dec.buf.toList.drop p ∧
    t.dec.maxerr = s.dec.maxerr ∧ t.dec.report = s.dec.report ∧ t.dec.olen = s.dec.olen ∧ t.dec.oi = s.dec.oi ∧
    t.dec.rxi.n = s.dec.rxi.n + 8 * (1 + p) ∧ t.dec.rxi.ended = s.dec.rxi.ended

/-- A complete frame with a prefix below 6, taken where DEC stands ready for it, raises FrameTooShort after
its payload (45 R222, 60 R315). That a frame is taken whole is the model's form (log 13). -/
def Obligations.ShortFramesRaiseFrameTooShort : Prop :=
  ∀ (s : State) (w : List Byte), frameReady s.dec = true →
    (∀ p : BitVec 2, w.length = p.toNat → ShortFrameTaken (exec (.frameShort00 p w) s) p.toNat w s) ∧
    (∀ p : BitVec 1, w.length = 4 + p.toNat → ShortFrameTaken (exec (.frameShort04 p w) s) (4 + p.toNat) w s)

/-- A decodable frame with an empty Block: the end of the stream, with the count taken into `MAXERR` first (47
R291, R292). -/
def EofFrameTaken (o : Result) (w : List Byte) (e : Nat) (s : State) : Prop :=
  ∃ t, o = .next t ∧ FrameLeaves s t ∧ t.dec.st = .done ∧ t.dec.pfx = 6 ∧ t.dec.cnt = 6 ∧ t.dec.nb = 0 ∧
    bufTake t.dec.buf 6 = w ∧ t.dec.buf.toList.drop 6 = s.dec.buf.toList.drop 6 ∧
    t.dec.maxerr.toNat = max s.dec.maxerr.toNat e ∧ (t.dec.report = true ↔ t.dec.maxerr ≠ 0) ∧
    t.dec.fault = s.dec.fault ∧ t.dec.olen = s.dec.olen ∧ t.dec.oi = s.dec.oi ∧
    t.dec.rxi.n = s.dec.rxi.n + 56 ∧ t.dec.rxi.ended = s.dec.rxi.ended

/-- A complete FRAME.EOF taken where DEC stands ready: with a decodable payload, which the six zero bytes ENC
emits are, the session ends; else Uncorrectable is raised and `MAXERR` stays (30 R86; 45 R223, R225; 47 R291,
R292). That a frame is taken whole is the model's form (log 13). -/
def Obligations.EofFrameEndsTheSession : Prop :=
  ∀ (s : State) (w : List Byte), frameReady s.dec = true → w.length = 6 →
    (∀ e, rsDec w = .ok [] e → EofFrameTaken (exec (.frameEof w) s) w e s) ∧
    (w = List.replicate 6 0x00 → EofFrameTaken (exec (.frameEof w) s) w 0 s) ∧
    (rsDec w = .uncorrectable → ∃ t, exec (.frameEof w) s = .next t ∧ FrameLeaves s t ∧
      t.dec.st = .fault ∧ t.dec.fault = 3 ∧ t.dec.maxerr = s.dec.maxerr ∧ bufTake t.dec.buf 6 = w)

/-- A data frame taken whole: decoded, `MAXERR` updated and DEC ready to drain the Block; or Uncorrectable
raised with `BUF` as received and `MAXERR` unchanged (47 R291; 60 R314). -/
def DataFrameTaken (o : Result) (p : Nat) (w : List Byte) (s : State) : Prop :=
  match rsDec w with
  | .ok b e =>
    ∃ t, o = .next t ∧ FrameLeaves s t ∧ t.dec.st = .drain ∧ t.dec.olen.toNat = p - 6 ∧ t.dec.oi = 0 ∧
      t.dec.nb = 0 ∧ t.dec.pfx.toNat = p ∧ t.dec.cnt.toNat = p ∧ bufTake t.dec.buf (p - 6) = b ∧
      t.dec.maxerr.toNat = max s.dec.maxerr.toNat e ∧ t.dec.fault = s.dec.fault ∧
      t.dec.report = s.dec.report ∧
      t.dec.rxi.n = s.dec.rxi.n + 8 * (1 + p) ∧ t.dec.rxi.ended = s.dec.rxi.ended
  | .uncorrectable =>
    ∃ t, o = .next t ∧ FrameLeaves s t ∧ t.dec.st = .fault ∧ t.dec.fault = 3 ∧ t.dec.nb = 0 ∧
      t.dec.pfx.toNat = p ∧ t.dec.cnt.toNat = p ∧ bufTake t.dec.buf p = w ∧
      t.dec.maxerr = s.dec.maxerr ∧ t.dec.report = s.dec.report ∧ t.dec.olen = s.dec.olen ∧
      t.dec.oi = s.dec.oi ∧ t.dec.rxi.n = s.dec.rxi.n + 8 * (1 + p) ∧ t.dec.rxi.ended = s.dec.rxi.ended

/-- A complete FRAME.DATA of each row, taken where DEC stands ready, has the effect of `D_DECODE` on its
payload (45 R223, R226; 47 R291). That a frame is taken whole is the model's form (log 13). -/
def Obligations.DataFramesAreDecoded : Prop :=
  ∀ (s : State) (w : List Byte), frameReady s.dec = true →
    (w.length = 7 → DataFrameTaken (exec (.frameData07 w) s) 7 w s) ∧
    (∀ p : BitVec 3, w.length = 8 + p.toNat → DataFrameTaken (exec (.frameData08 p w) s) (8 + p.toNat) w s) ∧
    (∀ p : BitVec 4, w.length = 16 + p.toNat → DataFrameTaken (exec (.frameData10 p w) s) (16 + p.toNat) w s) ∧
    (∀ p : BitVec 5, w.length = 32 + p.toNat → DataFrameTaken (exec (.frameData20 p w) s) (32 + p.toNat) w s) ∧
    (∀ p : BitVec 6, w.length = 64 + p.toNat → DataFrameTaken (exec (.frameData40 p w) s) (64 + p.toNat) w s) ∧
    (∀ p : BitVec 7, w.length = 128 + p.toNat → DataFrameTaken (exec (.frameData80 p w) s) (128 + p.toNat) w s)

/-- A frame that arrives where DEC does not stand ready for it is queued on RXI, all its bits in order, with
the end of RXI after a frame cut short, and changes nothing else; after RXI was declared ended it changes
nothing; and a frame cut short where DEC stands ready raises TruncatedPayload, its bits and the end taken (20
R52; 45 R221; 60 R313). The model's form of an arriving frame is log 13 and log 15. -/
def Obligations.FramesNotTakenAreQueued : Prop :=
  ∀ (i : Instr) (p : Byte) (w : List Byte) (s : State), frameClass i ≠ none → i.WellFormed → encode i = p :: w →
    (frameReady s.dec = false → w.length = p.toNat → s.dec.rxi.ended = false →
      exec i s = .next { s with dec := { s.dec with
        rxi := { s.dec.rxi with queue := s.dec.rxi.queue ++ bpExpand .lsbFirst (p :: w) } } }) ∧
    (frameReady s.dec = false → w.length < p.toNat → s.dec.rxi.ended = false →
      exec i s = .next { s with dec := { s.dec with
        rxi := { s.dec.rxi with queue := s.dec.rxi.queue ++ bpExpand .lsbFirst (p :: w), ended := true } } }) ∧
    (s.dec.rxi.ended = true → exec i s = .next s) ∧
    (frameReady s.dec = true → w.length < p.toNat → ∃ t, exec i s = .next t ∧ FrameLeaves s t ∧
      t.dec.st = .fault ∧ t.dec.fault = 2 ∧ t.dec.nb = 0 ∧ t.dec.cnt.toNat = w.length ∧ t.dec.pfx = p ∧
      t.dec.maxerr = s.dec.maxerr ∧ t.dec.rxi.n = s.dec.rxi.n + 8 * (1 + w.length) ∧ t.dec.rxi.ended = true)

/-- Taking a frame whole, the model's form of an arriving frame (log 13), is what DEC's steps do: from the
frame's bits queued on RXI, with the end of RXI after a frame cut short (log 15), `8 (1 + k)` bit steps for
the prefix and the `k` payload bytes there are and one more step (`D_DECODE`, or the end met) give the same
state of DEC (47 R288 to R294). -/
def Obligations.FrameTakenWholeIsItsSteps : Prop :=
  ∀ (p : Byte) (w : List Byte) (d : Dec), frameReady d = true →
    decRun (8 * (1 + min p.toNat w.length) + 1) (offerFrame p w d) = takeFrame p w d

/-- BITGROUP completes in every state that the invariant admits: where DEC stands at a group boundary and
takes bits, it is the eight bit steps of 47 R288 over the group's bits; elsewhere the bits are queued, or
ignored after RXI was declared ended. That a group is taken whole is the model's form (log 14). -/
def Obligations.BitGroupIsEightBitSteps : Prop :=
  ∀ (t : BitTuple) (s : State), DecInv s.dec →
    ((s.dec.st = .pfx ∨ s.dec.st = .payload) → groupReady s.dec = true →
      exec (.bitgroup t) s = .next { s with
        dec := decRun 8 { s.dec with rxi := { s.dec.rxi with queue := t.toList } } }) ∧
    (¬((s.dec.st = .pfx ∨ s.dec.st = .payload) ∧ groupReady s.dec = true) → s.dec.rxi.ended = false →
      exec (.bitgroup t) s = .next { s with dec := { s.dec with
        rxi := { s.dec.rxi with queue := s.dec.rxi.queue ++ t.toList } } }) ∧
    (s.dec.rxi.ended = true → exec (.bitgroup t) s = .next s)

/-! ### The engines -/

/-- ENC waits exactly in `E_IDLE`, without demand, or in `E_FILL` for the source (47 R281; `BLEN <= 249` is 47
R271); DEC waits exactly in `D_IDLE`, without demand, or in `D_PREFIX` and `D_PAYLOAD` for the channel (47
R285). A turn of an engine that waits changes nothing (log 5); a turn of an engine with an enabled step takes
that step and changes nothing else of the machine, and so does a step with that turn next on the agenda, and a
step with nothing on it, ENC before DEC (47 R270; log 4). -/
def Obligations.EnginesWaitAndMove : Prop :=
  (∀ e : Enc, e.blen.toNat ≤ 249 →
    (encStep e = .waits ↔ e.st = .idle ∨ e.txo.demand = 0 ∨
      (e.st = .fill ∧ e.srcend = false ∧ e.blen.toNat < 249 ∧ e.txi.queue = [] ∧ e.txi.ended = false))) ∧
  (∀ d : Dec, decStep d = .waits ↔ d.st = .idle ∨ d.rxo.demand = 0 ∨
    ((d.st = .pfx ∨ d.st = .payload) ∧ d.rxi.queue = [] ∧ d.rxi.ended = false)) ∧
  (∀ s : State,
    (encStep s.enc = .waits → runMove .encTurn s = .next s) ∧
    (decStep s.dec = .waits → runMove .decTurn s = .next s) ∧
    (∀ e', encStep s.enc = .moves e' → runMove .encTurn s = .next { s with enc := e' }) ∧
    (∀ d', decStep s.dec = .moves d' → runMove .decTurn s = .next { s with dec := d' }) ∧
    (∀ m rest, s.agenda = m :: rest → step s = runMove m { s with agenda := rest }) ∧
    (s.agenda = [] →
      (∀ e', encStep s.enc = .moves e' → step s = .next { s with enc := e' }) ∧
      (∀ d', encStep s.enc = .waits → decStep s.dec = .moves d' → step s = .next { s with dec := d' }) ∧
      (encStep s.enc = .waits → decStep s.dec = .waits → step s = .next s)))

/-- `E_FILL.pull` takes one byte into the Block, or notes the end of the source, or waits for it;
`E_FILL.close` closes a Block that is full or the last (47 R273, R274). -/
def Obligations.EncFillSteps : Prop :=
  ∀ e : Enc, e.st = .fill → 0 < e.txo.demand →
    (e.srcend = false → e.blen.toNat < 249 → ∀ v rest, e.txi.queue = v :: rest → ∃ e', encStep e = .moves e' ∧
      e' = { e with
        blk := e'.blk, blen := e.blen + 1, txi := { e.txi with queue := rest, n := e.txi.n + 1 } } ∧
      ∀ i, i < 249 → bufGet e'.blk i = if i = e.blen.toNat then v else bufGet e.blk i) ∧
    (e.srcend = false → e.blen.toNat < 249 → e.txi.queue = [] → e.txi.ended = true →
      encStep e = .moves { e with srcend := true }) ∧
    (e.srcend = false → e.blen.toNat < 249 → e.txi.queue = [] → e.txi.ended = false → encStep e = .waits) ∧
    (e.blen.toNat = 249 ∨ e.srcend = true → encStep e = .moves { e with st := .code })

/-- `E_CODE` puts the frame of the Block into the first `BLEN + 7` bytes of `FR`, sets its length, `LASTF` and
the indices, and changes nothing else, the other bytes of `FR` included (47 R275). -/
def Obligations.EncCodeStep : Prop :=
  ∀ e : Enc, e.st = .code → 0 < e.txo.demand → e.blen.toNat ≤ 249 → ∃ e', encStep e = .moves e' ∧
    e' = { e with
      fr := e'.fr, flen := e'.flen, lastf := decide (e.blen.toNat = 0), byi := 0, bii := 0, st := .shift } ∧
    bufTake e'.fr (e.blen.toNat + 7) = frPack (bufTake e.blk e.blen.toNat) ∧
    e'.fr.toList.drop (e.blen.toNat + 7) = e.fr.toList.drop (e.blen.toNat + 7) ∧
    e'.flen.toNat = e.blen.toNat + 7

/-- `E_SHIFT` emits bit `BII` of `FR[BYI]` and moves to the next bit, the next byte, or past the end of the
frame, to `E_DONE` after the EOF frame and to `E_FILL` after another; `E_DONE` presents `End`, once in the
trace (47 R277 to R280). -/
def Obligations.EncShiftAndDoneSteps : Prop :=
  (∀ e : Enc, e.st = .shift → 0 < e.txo.demand → e.byi.toNat < e.flen.toNat → ∃ e', encStep e = .moves e' ∧
    e'.txo = { trace := e.txo.trace ++ [.bit ((bufGet e.fr e.byi.toNat).getLsbD e.bii.toNat)]
               demand := e.txo.demand - 1, n := e.txo.n + 1 } ∧
    (e.bii.toNat < 7 → e' = { e with txo := e'.txo, bii := e.bii + 1 }) ∧
    (e.bii.toNat = 7 → e.byi.toNat + 1 < e.flen.toNat → e' = { e with txo := e'.txo, bii := 0, byi := e.byi + 1 }) ∧
    (e.bii.toNat = 7 → e.byi.toNat + 1 = e.flen.toNat → e.lastf = true → e' = { e with txo := e'.txo, st := .done }) ∧
    (e.bii.toNat = 7 → e.byi.toNat + 1 = e.flen.toNat → e.lastf = false →
      e' = { e with txo := e'.txo, st := .fill, blen := 0, byi := 0, bii := 0 })) ∧
  (∀ e : Enc, e.st = .done → 0 < e.txo.demand → ∃ tr, encStep e =
      .moves { e with txo := { e.txo with trace := tr, demand := e.txo.demand - 1 } } ∧
    (e.txo.trace.getLast? = some .endMark → tr = e.txo.trace) ∧
    (e.txo.trace.getLast? ≠ some .endMark → tr = e.txo.trace ++ [.endMark]))

/-- `D_BIT` takes one bit into the group; the eighth completes a byte, the least significant bit first, which
is the prefix or the next payload byte; at the end of RXI it raises TruncatedPrefix or TruncatedPayload and
drops the partial group (47 R288 to R290, R294). -/
def Obligations.DecBitSteps : Prop :=
  ∀ d : Dec, 0 < d.rxo.demand → (d.st = .pfx ∨ d.st = .payload) →
    (∀ b rest, d.rxi.queue = b :: rest → d.nb.toNat < 7 → ∃ acc, decStep d = .moves { d with
        rxi := { d.rxi with queue := rest, n := d.rxi.n + 1 }, acc := acc, nb := d.nb + 1 } ∧
      ∀ k, k < 8 → acc.getLsbD k = if k = d.nb.toNat then b else d.acc.getLsbD k) ∧
    (∀ b rest, d.rxi.queue = b :: rest → d.nb.toNat = 7 → ∀ y : Byte,
      (∀ k, k < 8 → y.getLsbD k = if k = 7 then b else d.acc.getLsbD k) →
      (d.st = .pfx → decStep d = .moves { d with
        rxi := { d.rxi with queue := rest, n := d.rxi.n + 1 }, acc := y, nb := 0, pfx := y, cnt := 0
        st := if y = 0 then .decode else .payload }) ∧
      (d.st = .payload → d.cnt.toNat < 255 → ∃ buf, decStep d = .moves { d with
          rxi := { d.rxi with queue := rest, n := d.rxi.n + 1 }, acc := y, nb := 0, buf := buf, cnt := d.cnt + 1
          st := if d.cnt + 1 = d.pfx then .decode else .payload } ∧
        ∀ i, i < 255 → bufGet buf i = if i = d.cnt.toNat then y else bufGet d.buf i)) ∧
    (d.rxi.queue = [] → d.rxi.ended = true →
      (d.st = .pfx → decStep d = .moves { d with fault := 1, st := .fault, nb := 0 }) ∧
      (d.st = .payload → decStep d = .moves { d with fault := 2, st := .fault, nb := 0 }))

/-- `D_DECODE` checks the length, decodes, and ends in a fault, in `D_DONE` or in `D_DRAIN` (47 R291, R292; 60
R316). -/
def Obligations.DecDecodeStep : Prop :=
  ∀ d : Dec, 0 < d.rxo.demand → d.st = .decode →
    (d.pfx.toNat < 6 → decStep d = .moves { d with fault := 4, st := .fault, nb := 0 }) ∧
    (6 ≤ d.pfx.toNat → rsDec (bufTake d.buf d.pfx.toNat) = .uncorrectable →
      decStep d = .moves { d with fault := 3, st := .fault, nb := 0 }) ∧
    (∀ b e, 6 ≤ d.pfx.toNat → rsDec (bufTake d.buf d.pfx.toNat) = .ok b e → ∃ d', decStep d = .moves d' ∧
      d'.buf.toList = b ++ d.buf.toList.drop b.length ∧ d'.maxerr.toNat = max d.maxerr.toNat e ∧
      (d.pfx.toNat = 6 → d' = { d with
        buf := d'.buf, maxerr := d'.maxerr, report := decide (d'.maxerr ≠ 0), st := .done }) ∧
      (6 < d.pfx.toNat → d' = { d with
        buf := d'.buf, maxerr := d'.maxerr, olen := d.pfx - 6, oi := 0, st := .drain }))

/-- `D_DRAIN` emits one byte of the Block, marked last at its end; `D_DONE` and `D_FAULT` present their
terminal event, once in the trace, and take no bit (47 R293, R297, R298). -/
def Obligations.DecDrainAndTerminalSteps : Prop :=
  ∀ d : Dec, 0 < d.rxo.demand →
    (d.st = .drain → d.oi.toNat < d.olen.toNat → d.olen.toNat ≤ 249 → ∃ d', decStep d = .moves d' ∧
      d'.rxo = {
        trace := d.rxo.trace ++ [.byte (bufGet d.buf d.oi.toNat) (decide (d.oi.toNat + 1 = d.olen.toNat))]
        demand := d.rxo.demand - 1
        n := d.rxo.n + 1 } ∧
      (d.oi.toNat + 1 < d.olen.toNat → d' = { d with rxo := d'.rxo, oi := d.oi + 1 }) ∧
      (d.oi.toNat + 1 = d.olen.toNat → d' = { d with rxo := d'.rxo, oi := 0, cnt := 0, st := .pfx })) ∧
    (∀ ev : RxoEvent, (d.st = .done ∧ ev = .endMark) ∨ (d.st = .fault ∧ ev = .fault d.fault) → ∃ tr,
      decStep d = .moves { d with rxo := { d.rxo with trace := tr, demand := d.rxo.demand - 1 } } ∧
      (d.rxo.trace.getLast? = some ev → tr = d.rxo.trace) ∧
      (d.rxo.trace.getLast? ≠ some ev → tr = d.rxo.trace ++ [ev]))

/-- ENC computes `BS.ENC`: a session with the bytes `y` and their end offered and demand `k` raised comes to
wait with the first `k` events of the bits of `BS.ENC(y)` and `End` on TXO, whatever registers the session
began with (47 R284). -/
def Obligations.EncComputesBsEnc : Prop :=
  ∀ (e : Enc) (y : List Byte) (k : Nat), ∃ steps : Nat,
    let e0 : Enc := { startEnc e with
      txi := { queue := y, ended := true, n := 0 }, txo := { trace := [], demand := k, n := 0 } }
    encStep (encRun steps e0) = .waits ∧
    (encRun steps e0).txo.trace = ((bsEnc .lsbFirst y).map TxoEvent.bit ++ [TxoEvent.endMark]).take k

/-- DEC computes `BS.DEC`: a session with the bits `z` and their end offered and demand `k` raised comes to
wait with the first `k` events of the chunks and the terminal event of `BS.DEC(z)` on RXO; with demand for all
of them, `MAXERR`, `FAULT`, `REPORT` and the bits consumed are those of `BS.DEC(z)` (47 R296). -/
def Obligations.DecComputesBsDec : Prop :=
  ∀ (d : Dec) (z : List Bit) (k : Nat), ∃ steps : Nat,
    let d0 : Dec := { startDec d with
      rxi := { queue := z, ended := true, n := 0 }, rxo := { trace := [], demand := k, n := 0 } }
    let r := bsDec .lsbFirst z
    let d1 := decRun steps d0
    decStep d1 = .waits ∧ d1.rxo.trace = (streamEvents r).take k ∧
    ((streamEvents r).length ≤ k →
      d1.maxerr.toNat = r.maxerr ∧ d1.rxi.n = r.consumed ∧
      (r.outcome = .done → d1.fault = 0 ∧ (d1.report = true ↔ r.maxerr ≠ 0)) ∧
      (∀ f, r.outcome = .fault f → d1.fault = faultCode f ∧ d1.report = false))

/-! ### Whole-machine rules -/

/-- A move of ENC's side: its turn and the host moves on its ports. -/
def encSide (m : Move) : Bool :=
  match m with
  | .encTurn | .offerTxi _ | .endTxi | .demandTxo => true
  | _ => false

/-- A move of DEC's side: its turn and the host moves on its ports. -/
def decSide (m : Move) : Bool :=
  match m with
  | .decTurn | .offerRxi _ | .endRxi | .demandRxo => true
  | _ => false

/-- Two moves, one after the other. -/
def runTwo (m m' : Move) (s : State) : Result :=
  match runMove m s with
  | .next t => runMove m' t
  | .fault f => .fault f
  | .refused r => .refused r

/-- A move of ENC's side and a move of DEC's side commute, and each leaves the other engine as it was (10 R20,
47 R300). -/
def Obligations.EnginesAreIndependent : Prop :=
  ∀ (m m' : Move) (s : State), encSide m = true → decSide m' = true →
    runTwo m m' s = runTwo m' m s ∧
    (∀ t, runMove m s = .next t → t.dec = s.dec ∧ t.result = s.result) ∧
    (∀ t, runMove m' s = .next t → t.enc = s.enc ∧ t.result = s.result)

/-- Offering an element or raising demand never disables an enabled step and never changes what it does (47
R300). -/
def Obligations.HostMovesKeepEnabledSteps : Prop :=
  (∀ (e e' : Enc) (b : Byte), encStep e = .moves e' →
    encStep { e with txi := offer [b] e.txi } = .moves { e' with txi := offer [b] e'.txi } ∧
    encStep { e with txo := raiseDemand e.txo } = .moves { e' with txo := raiseDemand e'.txo }) ∧
  (∀ (d d' : Dec) (b : Bit), decStep d = .moves d' →
    decStep { d with rxi := offer [b] d.rxi } = .moves { d' with rxi := offer [b] d'.rxi } ∧
    decStep { d with rxo := raiseDemand d.rxo } = .moves { d' with rxo := raiseDemand d'.rxo })

/-- The invariants of 47 R271 are kept by every step from every state that has them. -/
def Obligations.StepsKeepTheEngineInvariants : Prop :=
  ∀ s t : State, Machine.Inv s → step s = .next t → Machine.Inv t

/-- The invariants of 47 R271 hold after reset. -/
def Obligations.ResetHasTheEngineInvariants : Prop := Machine.Inv State.reset

/-- In a state with the invariants no step stops with a fault of the model: every buffer index is in range (20
R51). -/
def Obligations.NoBufferIndexFault : Prop :=
  ∀ (s : State) (f : Fault), Machine.Inv s → step s ≠ .fault f

/-- `D_DONE` and `D_FAULT` are left only by DEC.START or reset: every other step of the machine keeps the
state, the code, the report, `MAXERR`, and the counts of bits taken and bytes emitted (10 R34; 47 R297, R298;
60 R321, R322). That the internal operations run by themselves keep them too is log 10, log 11 and log 26. -/
def Obligations.TerminalStatesPersist : Prop :=
  ∀ s t : State, (s.dec.st = .done ∨ s.dec.st = .fault) →
    (∀ m rest, s.agenda = m :: rest → restartsDec m = false) → step s = .next t →
    t.dec.st = s.dec.st ∧ t.dec.fault = s.dec.fault ∧ t.dec.report = s.dec.report ∧ t.dec.maxerr = s.dec.maxerr ∧
    t.dec.rxi.n = s.dec.rxi.n ∧ t.dec.rxo.n = s.dec.rxo.n

/-- `DEC.MAXERR` never decreases but by DEC.START or reset (10 R34, 45 R224). -/
def Obligations.MaxerrNeverDecreases : Prop :=
  ∀ s t : State, (∀ m rest, s.agenda = m :: rest → restartsDec m = false) → step s = .next t →
    s.dec.maxerr.toNat ≤ t.dec.maxerr.toNat
end

