-- ==== Sys2Proof/Laws/Codec.lean ====
section
/-! SUPPORT. Constants computed from the configuration, and the buffers' small lemmas. -/

namespace Sys2Proof

@[simp] theorem codec_blockSize : codec.blockSize = 255 := rfl
@[simp] theorem codec_eccSymbols : codec.eccSymbols = 6 := rfl
@[simp] theorem codec_alpha : codec.alpha = 0x02 := rfl
@[simp] theorem codec_fcr : codec.fcr = 0 := rfl
@[simp] theorem codec_bitOrder : codec.bitOrder = .lsbFirst := rfl
@[simp] theorem maxBlock_eq : maxBlock = 249 := rfl
@[simp] theorem maxErrors_eq : maxErrors = 3 := rfl

namespace Machine

@[simp] theorem primLow_eq : primLow = 0x1D := by decide
@[simp] theorem timesAlpha_eq (x : Byte) : timesAlpha x = gfXtime x := by simp [timesAlpha]
@[simp] theorem wireExponent_eq (n i : Nat) : wireExponent n i = (n : Int) - 1 - i := rfl
@[simp] theorem frTooShort_eq (p : Byte) : frTooShort p = decide (p.toNat < 6) := rfl
@[simp] theorem frIsEof_eq (b : List Byte) : frIsEof b = decide (b.length = 0) := by
  cases b <;> simp [frIsEof]
@[simp] theorem csrEccsym_eq : csrEccsym = 0x06 := rfl
@[simp] theorem csrBlocksz_eq : csrBlocksz = 0xFF := rfl

/-- The coefficients 42 R150 lists for the configured parameters. -/
@[simp] theorem generatorTaps_eq : generatorTaps = #v[0x3F, 0x01, 0xDA, 0x20, 0xE3, 0x26] := by decide +kernel

/-! ### Buffers -/

@[simp] theorem bufFill_toList {n : Nat} (v : Vector Byte n) (l : List Byte) :
    (bufFill v l).toList = l.take n ++ v.toList.drop l.length := by
  simp [bufFill, Vector.toList]

theorem bufTake_length {n : Nat} (v : Vector Byte n) (k : Nat) : (bufTake v k).length = min k n := by
  simp [bufTake]

theorem bufTake_bufFill {n : Nat} (v : Vector Byte n) (l : List Byte) (h : l.length ≤ n) :
    bufTake (bufFill v l) l.length = l := by
  simp [bufTake, List.take_of_length_le h]

theorem bufGet_eq_getD {n : Nat} (v : Vector Byte n) (i : Nat) : bufGet v i = v.toList.getD i 0 := by
  rcases v with ⟨⟨a⟩, rfl⟩
  simp [bufGet, Vector.toList, List.getD_eq_getElem?_getD]

theorem bufGet_bufSet {n : Nat} (v : Vector Byte n) (i j : Nat) (b : Byte) (hi : i < n) :
    bufGet (bufSet v i b) j = if i = j then b else bufGet v j := by
  simp only [bufGet, bufSet, Vector.getElem?_setIfInBounds]
  split <;> simp_all

theorem bufSet_toList {n : Nat} (v : Vector Byte n) (i : Nat) (b : Byte) :
    (bufSet v i b).toList = v.toList.set i b := by
  simp [bufSet]

end Machine
end Sys2Proof
end

