-- ==== Sys2Proof/Laws/State.lean ====
section
/-! SUPPORT. One lemma per field per named update, each true by rfl: no later proof unfolds a record update. -/

namespace Sys2Proof.Machine

/-! ### `raiseFault` -/

@[simp] theorem raiseFault_st (f : FaultKind) (d : Dec) : (raiseFault f d).st = DecState.fault := rfl
@[simp] theorem raiseFault_acc (f : FaultKind) (d : Dec) : (raiseFault f d).acc = d.acc := rfl
@[simp] theorem raiseFault_nb (f : FaultKind) (d : Dec) : (raiseFault f d).nb = 0 := rfl
@[simp] theorem raiseFault_pfx (f : FaultKind) (d : Dec) : (raiseFault f d).pfx = d.pfx := rfl
@[simp] theorem raiseFault_cnt (f : FaultKind) (d : Dec) : (raiseFault f d).cnt = d.cnt := rfl
@[simp] theorem raiseFault_buf (f : FaultKind) (d : Dec) : (raiseFault f d).buf = d.buf := rfl
@[simp] theorem raiseFault_olen (f : FaultKind) (d : Dec) : (raiseFault f d).olen = d.olen := rfl
@[simp] theorem raiseFault_oi (f : FaultKind) (d : Dec) : (raiseFault f d).oi = d.oi := rfl
@[simp] theorem raiseFault_maxerr (f : FaultKind) (d : Dec) : (raiseFault f d).maxerr = d.maxerr := rfl
@[simp] theorem raiseFault_fault (f : FaultKind) (d : Dec) : (raiseFault f d).fault = faultCode f := rfl
@[simp] theorem raiseFault_report (f : FaultKind) (d : Dec) : (raiseFault f d).report = d.report := rfl
@[simp] theorem raiseFault_rxi (f : FaultKind) (d : Dec) : (raiseFault f d).rxi = d.rxi := rfl
@[simp] theorem raiseFault_rxo (f : FaultKind) (d : Dec) : (raiseFault f d).rxo = d.rxo := rfl

/-! ### `startDec` -/

@[simp] theorem startDec_st (d : Dec) : (startDec d).st = .pfx := rfl
@[simp] theorem startDec_acc (d : Dec) : (startDec d).acc = d.acc := rfl
@[simp] theorem startDec_nb (d : Dec) : (startDec d).nb = 0 := rfl
@[simp] theorem startDec_pfx (d : Dec) : (startDec d).pfx = d.pfx := rfl
@[simp] theorem startDec_cnt (d : Dec) : (startDec d).cnt = 0 := rfl
@[simp] theorem startDec_buf (d : Dec) : (startDec d).buf = d.buf := rfl
@[simp] theorem startDec_olen (d : Dec) : (startDec d).olen = d.olen := rfl
@[simp] theorem startDec_oi (d : Dec) : (startDec d).oi = 0 := rfl
@[simp] theorem startDec_maxerr (d : Dec) : (startDec d).maxerr = 0 := rfl
@[simp] theorem startDec_fault (d : Dec) : (startDec d).fault = 0 := rfl
@[simp] theorem startDec_report (d : Dec) : (startDec d).report = false := rfl
@[simp] theorem startDec_rxi (d : Dec) : (startDec d).rxi = {} := rfl
@[simp] theorem startDec_rxo (d : Dec) : (startDec d).rxo = {} := rfl

/-! ### `frMaxupd` -/

@[simp] theorem frMaxupd_st (e : Nat) (d : Dec) : (frMaxupd e d).st = d.st := rfl
@[simp] theorem frMaxupd_acc (e : Nat) (d : Dec) : (frMaxupd e d).acc = d.acc := rfl
@[simp] theorem frMaxupd_nb (e : Nat) (d : Dec) : (frMaxupd e d).nb = d.nb := rfl
@[simp] theorem frMaxupd_pfx (e : Nat) (d : Dec) : (frMaxupd e d).pfx = d.pfx := rfl
@[simp] theorem frMaxupd_cnt (e : Nat) (d : Dec) : (frMaxupd e d).cnt = d.cnt := rfl
@[simp] theorem frMaxupd_buf (e : Nat) (d : Dec) : (frMaxupd e d).buf = d.buf := rfl
@[simp] theorem frMaxupd_olen (e : Nat) (d : Dec) : (frMaxupd e d).olen = d.olen := rfl
@[simp] theorem frMaxupd_oi (e : Nat) (d : Dec) : (frMaxupd e d).oi = d.oi := rfl
@[simp] theorem frMaxupd_maxerr (e : Nat) (d : Dec) : (frMaxupd e d).maxerr = if d.maxerr.toNat < e then BitVec.ofNat 8 e else d.maxerr := rfl
@[simp] theorem frMaxupd_fault (e : Nat) (d : Dec) : (frMaxupd e d).fault = d.fault := rfl
@[simp] theorem frMaxupd_report (e : Nat) (d : Dec) : (frMaxupd e d).report = d.report := rfl
@[simp] theorem frMaxupd_rxi (e : Nat) (d : Dec) : (frMaxupd e d).rxi = d.rxi := rfl
@[simp] theorem frMaxupd_rxo (e : Nat) (d : Dec) : (frMaxupd e d).rxo = d.rxo := rfl

/-! ### `endOfStream` -/

@[simp] theorem endOfStream_st (d : Dec) : (endOfStream d).st = .done := rfl
@[simp] theorem endOfStream_acc (d : Dec) : (endOfStream d).acc = d.acc := rfl
@[simp] theorem endOfStream_nb (d : Dec) : (endOfStream d).nb = d.nb := rfl
@[simp] theorem endOfStream_pfx (d : Dec) : (endOfStream d).pfx = d.pfx := rfl
@[simp] theorem endOfStream_cnt (d : Dec) : (endOfStream d).cnt = d.cnt := rfl
@[simp] theorem endOfStream_buf (d : Dec) : (endOfStream d).buf = d.buf := rfl
@[simp] theorem endOfStream_olen (d : Dec) : (endOfStream d).olen = d.olen := rfl
@[simp] theorem endOfStream_oi (d : Dec) : (endOfStream d).oi = d.oi := rfl
@[simp] theorem endOfStream_maxerr (d : Dec) : (endOfStream d).maxerr = d.maxerr := rfl
@[simp] theorem endOfStream_fault (d : Dec) : (endOfStream d).fault = d.fault := rfl
@[simp] theorem endOfStream_report (d : Dec) : (endOfStream d).report = reportFlag d.maxerr := rfl
@[simp] theorem endOfStream_rxi (d : Dec) : (endOfStream d).rxi = d.rxi := rfl
@[simp] theorem endOfStream_rxo (d : Dec) : (endOfStream d).rxo = d.rxo := rfl

/-! ### `decPresent` -/

@[simp] theorem decPresent_st (ev : RxoEvent) (d : Dec) : (decPresent ev d).st = d.st := rfl
@[simp] theorem decPresent_acc (ev : RxoEvent) (d : Dec) : (decPresent ev d).acc = d.acc := rfl
@[simp] theorem decPresent_nb (ev : RxoEvent) (d : Dec) : (decPresent ev d).nb = d.nb := rfl
@[simp] theorem decPresent_pfx (ev : RxoEvent) (d : Dec) : (decPresent ev d).pfx = d.pfx := rfl
@[simp] theorem decPresent_cnt (ev : RxoEvent) (d : Dec) : (decPresent ev d).cnt = d.cnt := rfl
@[simp] theorem decPresent_buf (ev : RxoEvent) (d : Dec) : (decPresent ev d).buf = d.buf := rfl
@[simp] theorem decPresent_olen (ev : RxoEvent) (d : Dec) : (decPresent ev d).olen = d.olen := rfl
@[simp] theorem decPresent_oi (ev : RxoEvent) (d : Dec) : (decPresent ev d).oi = d.oi := rfl
@[simp] theorem decPresent_maxerr (ev : RxoEvent) (d : Dec) : (decPresent ev d).maxerr = d.maxerr := rfl
@[simp] theorem decPresent_fault (ev : RxoEvent) (d : Dec) : (decPresent ev d).fault = d.fault := rfl
@[simp] theorem decPresent_report (ev : RxoEvent) (d : Dec) : (decPresent ev d).report = d.report := rfl
@[simp] theorem decPresent_rxi (ev : RxoEvent) (d : Dec) : (decPresent ev d).rxi = d.rxi := rfl
@[simp] theorem decPresent_rxo (ev : RxoEvent) (d : Dec) : (decPresent ev d).rxo = present ev d.rxo := rfl

/-! ### `startEnc` -/

@[simp] theorem startEnc_st (e : Enc) : (startEnc e).st = .fill := rfl
@[simp] theorem startEnc_blk (e : Enc) : (startEnc e).blk = e.blk := rfl
@[simp] theorem startEnc_blen (e : Enc) : (startEnc e).blen = 0 := rfl
@[simp] theorem startEnc_fr (e : Enc) : (startEnc e).fr = e.fr := rfl
@[simp] theorem startEnc_flen (e : Enc) : (startEnc e).flen = e.flen := rfl
@[simp] theorem startEnc_byi (e : Enc) : (startEnc e).byi = 0 := rfl
@[simp] theorem startEnc_bii (e : Enc) : (startEnc e).bii = 0 := rfl
@[simp] theorem startEnc_srcend (e : Enc) : (startEnc e).srcend = false := rfl
@[simp] theorem startEnc_lastf (e : Enc) : (startEnc e).lastf = false := rfl
@[simp] theorem startEnc_txi (e : Enc) : (startEnc e).txi = {} := rfl
@[simp] theorem startEnc_txo (e : Enc) : (startEnc e).txo = {} := rfl

/-! ### `fillClose` -/

@[simp] theorem fillClose_st (e : Enc) : (fillClose e).st = .code := rfl
@[simp] theorem fillClose_blk (e : Enc) : (fillClose e).blk = e.blk := rfl
@[simp] theorem fillClose_blen (e : Enc) : (fillClose e).blen = e.blen := rfl
@[simp] theorem fillClose_fr (e : Enc) : (fillClose e).fr = e.fr := rfl
@[simp] theorem fillClose_flen (e : Enc) : (fillClose e).flen = e.flen := rfl
@[simp] theorem fillClose_byi (e : Enc) : (fillClose e).byi = e.byi := rfl
@[simp] theorem fillClose_bii (e : Enc) : (fillClose e).bii = e.bii := rfl
@[simp] theorem fillClose_srcend (e : Enc) : (fillClose e).srcend = e.srcend := rfl
@[simp] theorem fillClose_lastf (e : Enc) : (fillClose e).lastf = e.lastf := rfl
@[simp] theorem fillClose_txi (e : Enc) : (fillClose e).txi = e.txi := rfl
@[simp] theorem fillClose_txo (e : Enc) : (fillClose e).txo = e.txo := rfl

/-! ### `encPresent` -/

@[simp] theorem encPresent_st (e : Enc) : (encPresent e).st = e.st := rfl
@[simp] theorem encPresent_blk (e : Enc) : (encPresent e).blk = e.blk := rfl
@[simp] theorem encPresent_blen (e : Enc) : (encPresent e).blen = e.blen := rfl
@[simp] theorem encPresent_fr (e : Enc) : (encPresent e).fr = e.fr := rfl
@[simp] theorem encPresent_flen (e : Enc) : (encPresent e).flen = e.flen := rfl
@[simp] theorem encPresent_byi (e : Enc) : (encPresent e).byi = e.byi := rfl
@[simp] theorem encPresent_bii (e : Enc) : (encPresent e).bii = e.bii := rfl
@[simp] theorem encPresent_srcend (e : Enc) : (encPresent e).srcend = e.srcend := rfl
@[simp] theorem encPresent_lastf (e : Enc) : (encPresent e).lastf = e.lastf := rfl
@[simp] theorem encPresent_txi (e : Enc) : (encPresent e).txi = e.txi := rfl
@[simp] theorem encPresent_txo (e : Enc) : (encPresent e).txo = present .endMark e.txo := rfl

/-! ### `takeFault` -/

@[simp] theorem takeFault_enc (f : FaultKind) (s : State) : (takeFault f s).enc = s.enc := rfl
@[simp] theorem takeFault_dec (f : FaultKind) (s : State) : (takeFault f s).dec = raiseFault f s.dec := rfl
@[simp] theorem takeFault_result (f : FaultKind) (s : State) : (takeFault f s).result = s.result := rfl
@[simp] theorem takeFault_agenda (f : FaultKind) (s : State) : (takeFault f s).agenda = s.agenda := rfl

/-! ### `resetMachine` -/

@[simp] theorem resetMachine_enc (s : State) : (resetMachine s).enc = {} := rfl
@[simp] theorem resetMachine_dec (s : State) : (resetMachine s).dec = {} := rfl
@[simp] theorem resetMachine_result (s : State) : (resetMachine s).result = .none := rfl
@[simp] theorem resetMachine_agenda (s : State) : (resetMachine s).agenda = s.agenda := rfl

/-! ### `writeCmd` -/

@[simp] theorem writeCmd_enc (v : Byte) (s : State) : (writeCmd v s).enc = if v.getLsbD 0 then startEnc s.enc else s.enc := rfl
@[simp] theorem writeCmd_dec (v : Byte) (s : State) : (writeCmd v s).dec = if v.getLsbD 1 then startDec s.dec else s.dec := rfl
@[simp] theorem writeCmd_result (v : Byte) (s : State) : (writeCmd v s).result = s.result := rfl
@[simp] theorem writeCmd_agenda (v : Byte) (s : State) : (writeCmd v s).agenda = s.agenda := rfl

/-! ### `hostOfferTxi` -/

@[simp] theorem hostOfferTxi_enc (b : Byte) (s : State) : (hostOfferTxi b s).enc = { s.enc with txi := offer [b] s.enc.txi } := rfl
@[simp] theorem hostOfferTxi_dec (b : Byte) (s : State) : (hostOfferTxi b s).dec = s.dec := rfl
@[simp] theorem hostOfferTxi_result (b : Byte) (s : State) : (hostOfferTxi b s).result = s.result := rfl
@[simp] theorem hostOfferTxi_agenda (b : Byte) (s : State) : (hostOfferTxi b s).agenda = s.agenda := rfl

/-! ### `hostEndTxi` -/

@[simp] theorem hostEndTxi_enc (s : State) : (hostEndTxi s).enc = { s.enc with txi := declareEnd s.enc.txi } := rfl
@[simp] theorem hostEndTxi_dec (s : State) : (hostEndTxi s).dec = s.dec := rfl
@[simp] theorem hostEndTxi_result (s : State) : (hostEndTxi s).result = s.result := rfl
@[simp] theorem hostEndTxi_agenda (s : State) : (hostEndTxi s).agenda = s.agenda := rfl

/-! ### `hostDemandTxo` -/

@[simp] theorem hostDemandTxo_enc (s : State) : (hostDemandTxo s).enc = { s.enc with txo := raiseDemand s.enc.txo } := rfl
@[simp] theorem hostDemandTxo_dec (s : State) : (hostDemandTxo s).dec = s.dec := rfl
@[simp] theorem hostDemandTxo_result (s : State) : (hostDemandTxo s).result = s.result := rfl
@[simp] theorem hostDemandTxo_agenda (s : State) : (hostDemandTxo s).agenda = s.agenda := rfl

/-! ### `hostOfferRxi` -/

@[simp] theorem hostOfferRxi_enc (b : Bit) (s : State) : (hostOfferRxi b s).enc = s.enc := rfl
@[simp] theorem hostOfferRxi_dec (b : Bit) (s : State) : (hostOfferRxi b s).dec = { s.dec with rxi := offer [b] s.dec.rxi } := rfl
@[simp] theorem hostOfferRxi_result (b : Bit) (s : State) : (hostOfferRxi b s).result = s.result := rfl
@[simp] theorem hostOfferRxi_agenda (b : Bit) (s : State) : (hostOfferRxi b s).agenda = s.agenda := rfl

/-! ### `hostEndRxi` -/

@[simp] theorem hostEndRxi_enc (s : State) : (hostEndRxi s).enc = s.enc := rfl
@[simp] theorem hostEndRxi_dec (s : State) : (hostEndRxi s).dec = { s.dec with rxi := declareEnd s.dec.rxi } := rfl
@[simp] theorem hostEndRxi_result (s : State) : (hostEndRxi s).result = s.result := rfl
@[simp] theorem hostEndRxi_agenda (s : State) : (hostEndRxi s).agenda = s.agenda := rfl

/-! ### `hostDemandRxo` -/

@[simp] theorem hostDemandRxo_enc (s : State) : (hostDemandRxo s).enc = s.enc := rfl
@[simp] theorem hostDemandRxo_dec (s : State) : (hostDemandRxo s).dec = { s.dec with rxo := raiseDemand s.dec.rxo } := rfl
@[simp] theorem hostDemandRxo_result (s : State) : (hostDemandRxo s).result = s.result := rfl
@[simp] theorem hostDemandRxo_agenda (s : State) : (hostDemandRxo s).agenda = s.agenda := rfl

/-! ### Reset -/

@[simp] theorem reset_enc : State.reset.enc = {} := rfl
@[simp] theorem reset_dec : State.reset.dec = {} := rfl
@[simp] theorem reset_result : State.reset.result = .none := rfl
@[simp] theorem reset_agenda : State.reset.agenda = [] := rfl

/-! ### The state with a table word to be run -/

@[simp] theorem withFetchWord_enc (s : State) (nbits w : Nat) : (s.withFetchWord nbits w).enc = s.enc := rfl
@[simp] theorem withFetchWord_dec (s : State) (nbits w : Nat) : (s.withFetchWord nbits w).dec = s.dec := rfl
@[simp] theorem withFetchWord_result (s : State) (nbits w : Nat) : (s.withFetchWord nbits w).result = s.result := rfl
@[simp] theorem withFetchWord_agenda (s : State) (nbits w : Nat) :
    (s.withFetchWord nbits w).agenda = .instr (tableFormat w) (tableBytes nbits w) :: s.agenda := rfl

/-! ### Ports -/

@[simp] theorem emit_trace {α : Type} (e : α) (p : OutPort α) : (emit e p).trace = p.trace ++ [e] := rfl
@[simp] theorem emit_demand {α : Type} (e : α) (p : OutPort α) : (emit e p).demand = p.demand - 1 := rfl
@[simp] theorem emit_n {α : Type} (e : α) (p : OutPort α) : (emit e p).n = p.n + 1 := rfl
@[simp] theorem present_trace {α : Type} [DecidableEq α] (e : α) (p : OutPort α) :
    (present e p).trace = if p.trace.getLast? = some e then p.trace else p.trace ++ [e] := rfl
@[simp] theorem present_demand {α : Type} [DecidableEq α] (e : α) (p : OutPort α) :
    (present e p).demand = p.demand - 1 := rfl
@[simp] theorem present_n {α : Type} [DecidableEq α] (e : α) (p : OutPort α) : (present e p).n = p.n := rfl
@[simp] theorem declareEnd_queue {α : Type} (p : InPort α) : (declareEnd p).queue = p.queue := rfl
@[simp] theorem declareEnd_ended {α : Type} (p : InPort α) : (declareEnd p).ended = true := rfl
@[simp] theorem declareEnd_n {α : Type} (p : InPort α) : (declareEnd p).n = p.n := rfl
@[simp] theorem raiseDemand_trace {α : Type} (p : OutPort α) : (raiseDemand p).trace = p.trace := rfl
@[simp] theorem raiseDemand_demand {α : Type} (p : OutPort α) : (raiseDemand p).demand = p.demand + 1 := rfl
@[simp] theorem raiseDemand_n {α : Type} (p : OutPort α) : (raiseDemand p).n = p.n := rfl
@[simp] theorem offer_n {α : Type} (l : List α) (p : InPort α) : (offer l p).n = p.n := by
  simp only [offer]; split <;> rfl
@[simp] theorem offer_ended {α : Type} (l : List α) (p : InPort α) : (offer l p).ended = p.ended := by
  simp only [offer]; split <;> rfl
theorem offer_queue {α : Type} (l : List α) (p : InPort α) :
    (offer l p).queue = if p.ended then p.queue else p.queue ++ l := by
  simp only [offer]; split <;> rfl

end Sys2Proof.Machine
end

