-- ==== Sys2Proof/Laws/PerInstr.lean ====
section
/-! SUPPORT. Per instruction: the first byte of its encoding has the bits its row of spec/opcode_table.json fixes. -/

namespace Sys2Proof.Laws.RowPattern

/-- `match` and `mask` of the instruction's row (30 R100); BITGROUP fixes no bit. -/
def matchMask : Instr → Byte × Byte
  | .frameShort00 _ _ => (0x00, 0xFC)
  | .frameShort04 _ _ => (0x04, 0xFE)
  | .frameEof _ => (0x06, 0xFF)
  | .frameData07 _ => (0x07, 0xFF)
  | .frameData08 _ _ => (0x08, 0xF8)
  | .frameData10 _ _ => (0x10, 0xF0)
  | .frameData20 _ _ => (0x20, 0xE0)
  | .frameData40 _ _ => (0x40, 0xC0)
  | .frameData80 _ _ => (0x80, 0x80)
  | .bitgroup _ => (0x00, 0x00)
  | .bpTobits _ => (0x01, 0xFF)
  | .bpTobyte _ => (0x02, 0xFF)
  | .bpExpand _ => (0x03, 0xFF)
  | .bpGroup _ => (0x04, 0xFF)
  | .gfAdd _ _ => (0x10, 0xFF)
  | .gfXtime _ => (0x11, 0xFF)
  | .gfMul _ _ => (0x12, 0xFF)
  | .gfExp _ => (0x13, 0xFF)
  | .gfLog _ => (0x14, 0xFF)
  | .gfInv _ => (0x15, 0xFF)
  | .gfDiv _ _ => (0x16, 0xFF)
  | .gfPeval _ _ => (0x17, 0xFF)
  | .rsParity _ => (0x20, 0xFF)
  | .rsEnc _ => (0x21, 0xFF)
  | .rsSyn _ => (0x28, 0xFF)
  | .rsLocator _ => (0x29, 0xFF)
  | .rsChien _ _ => (0x2A, 0xFF)
  | .rsForney _ _ _ _ => (0x2B, 0xFF)
  | .rsDec _ => (0x2C, 0xFF)
  | .frSplit _ => (0x30, 0xFF)
  | .frPack _ => (0x31, 0xFF)
  | .frEnc _ => (0x32, 0xFF)
  | .frTakepfx _ => (0x38, 0xFF)
  | .frTakepay _ _ => (0x39, 0xFF)
  | .frChecklen _ => (0x3A, 0xFF)
  | .frMaxupd _ => (0x3B, 0xFF)
  | .frEofdet _ => (0x3C, 0xFF)
  | .frDec _ _ => (0x3D, 0xFF)
  | .bsEnc _ => (0x40, 0xFF)
  | .bsDec _ => (0x41, 0xFF)
  | .encStart _ _ => (0x01, 0x01)
  | .decStart _ _ => (0x02, 0x02)
  | .csrRead _ => (0x82, 0xFF)

/-- The encoding has a first byte, and it matches the row. -/
def Statement (i : Instr) : Prop :=
  ∃ b rest, encode i = b :: rest ∧ b &&& (matchMask i).2 = (matchMask i).1

theorem frameShort00 (p : BitVec 2) (payload : List Byte) : Statement (.frameShort00 p payload) :=
  ⟨_, _, rfl, by change pfxShort00 p &&& 0xFC = 0x00; clear payload; revert p; decide⟩
theorem frameShort04 (p : BitVec 1) (payload : List Byte) : Statement (.frameShort04 p payload) :=
  ⟨_, _, rfl, by change pfxShort04 p &&& 0xFE = 0x04; clear payload; revert p; decide⟩
theorem frameEof (payload : List Byte) : Statement (.frameEof payload) :=
  ⟨_, _, rfl, by simp [matchMask]⟩
theorem frameData07 (payload : List Byte) : Statement (.frameData07 payload) :=
  ⟨_, _, rfl, by simp [matchMask]⟩
theorem frameData08 (p : BitVec 3) (payload : List Byte) : Statement (.frameData08 p payload) :=
  ⟨_, _, rfl, by change pfxData08 p &&& 0xF8 = 0x08; clear payload; revert p; decide⟩
theorem frameData10 (p : BitVec 4) (payload : List Byte) : Statement (.frameData10 p payload) :=
  ⟨_, _, rfl, by change pfxData10 p &&& 0xF0 = 0x10; clear payload; revert p; decide⟩
theorem frameData20 (p : BitVec 5) (payload : List Byte) : Statement (.frameData20 p payload) :=
  ⟨_, _, rfl, by change pfxData20 p &&& 0xE0 = 0x20; clear payload; revert p; decide⟩
theorem frameData40 (p : BitVec 6) (payload : List Byte) : Statement (.frameData40 p payload) :=
  ⟨_, _, rfl, by change pfxData40 p &&& 0xC0 = 0x40; clear payload; revert p; decide⟩
theorem frameData80 (p : BitVec 7) (payload : List Byte) : Statement (.frameData80 p payload) :=
  ⟨_, _, rfl, by change pfxData80 p &&& 0x80 = 0x80; clear payload; revert p; decide⟩
theorem bitgroup (t : BitTuple) : Statement (.bitgroup t) :=
  ⟨_, _, rfl, by simp [matchMask]⟩
theorem bpTobits (b : Byte) : Statement (.bpTobits b) :=
  ⟨_, _, rfl, by simp [matchMask]⟩
theorem bpTobyte (t : BitTuple) : Statement (.bpTobyte t) :=
  ⟨_, _, rfl, by simp [matchMask]⟩
theorem bpExpand (y : List Byte) : Statement (.bpExpand y) :=
  ⟨_, _, rfl, by simp [matchMask]⟩
theorem bpGroup (x : List Bit) : Statement (.bpGroup x) :=
  ⟨_, _, rfl, by simp [matchMask]⟩
theorem gfAdd (a b : Byte) : Statement (.gfAdd a b) :=
  ⟨_, _, rfl, by simp [matchMask]⟩
theorem gfXtime (a : Byte) : Statement (.gfXtime a) :=
  ⟨_, _, rfl, by simp [matchMask]⟩
theorem gfMul (a b : Byte) : Statement (.gfMul a b) :=
  ⟨_, _, rfl, by simp [matchMask]⟩
theorem gfExp (e : Int) : Statement (.gfExp e) :=
  ⟨_, _, rfl, by simp [matchMask]⟩
theorem gfLog (a : Byte) : Statement (.gfLog a) :=
  ⟨_, _, rfl, by simp [matchMask]⟩
theorem gfInv (a : Byte) : Statement (.gfInv a) :=
  ⟨_, _, rfl, by simp [matchMask]⟩
theorem gfDiv (a b : Byte) : Statement (.gfDiv a b) :=
  ⟨_, _, rfl, by simp [matchMask]⟩
theorem gfPeval (w : List Byte) (v : Byte) : Statement (.gfPeval w v) :=
  ⟨_, _, rfl, by simp [matchMask]⟩
theorem rsParity (m : Block) : Statement (.rsParity m) :=
  ⟨_, _, rfl, by simp [matchMask]⟩
theorem rsEnc (m : Block) : Statement (.rsEnc m) :=
  ⟨_, _, rfl, by simp [matchMask]⟩
theorem rsSyn (r : List Byte) : Statement (.rsSyn r) :=
  ⟨_, _, rfl, by simp [matchMask]⟩
theorem rsLocator (s : Syndromes) : Statement (.rsLocator s) :=
  ⟨_, _, rfl, by simp [matchMask]⟩
theorem rsChien (c : List Byte) (n : Byte) : Statement (.rsChien c n) :=
  ⟨_, _, rfl, by simp [matchMask]⟩
theorem rsForney (s : Syndromes) (c : List Byte) (pos : List Byte) (n : Byte) : Statement (.rsForney s c pos n) :=
  ⟨_, _, rfl, by simp [matchMask]⟩
theorem rsDec (r : RsWord) : Statement (.rsDec r) :=
  ⟨_, _, rfl, by simp [matchMask]⟩
theorem frSplit (s : List Byte) : Statement (.frSplit s) :=
  ⟨_, _, rfl, by simp [matchMask]⟩
theorem frPack (b : Block) : Statement (.frPack b) :=
  ⟨_, _, rfl, by simp [matchMask]⟩
theorem frEnc (s : List Byte) : Statement (.frEnc s) :=
  ⟨_, _, rfl, by simp [matchMask]⟩
theorem frTakepfx (y : List Byte) : Statement (.frTakepfx y) :=
  ⟨_, _, rfl, by simp [matchMask]⟩
theorem frTakepay (p : Byte) (y : List Byte) : Statement (.frTakepay p y) :=
  ⟨_, _, rfl, by simp [matchMask]⟩
theorem frChecklen (p : Byte) : Statement (.frChecklen p) :=
  ⟨_, _, rfl, by simp [matchMask]⟩
theorem frMaxupd (e : BitVec 2) : Statement (.frMaxupd e) :=
  ⟨_, _, rfl, by simp [matchMask]⟩
theorem frEofdet (b : Block) : Statement (.frEofdet b) :=
  ⟨_, _, rfl, by simp [matchMask]⟩
theorem frDec (y : List Byte) (m : BitVec 2) : Statement (.frDec y m) :=
  ⟨_, _, rfl, by simp [matchMask]⟩
theorem bsEnc (s : List Byte) : Statement (.bsEnc s) :=
  ⟨_, _, rfl, by simp [matchMask]⟩
theorem bsDec (z : List Bit) : Statement (.bsDec z) :=
  ⟨_, _, rfl, by simp [matchMask]⟩
theorem encStart (d : Bit) (r : BitVec 6) : Statement (.encStart d r) :=
  ⟨_, _, rfl, by revert d r; decide⟩
theorem decStart (e : Bit) (r : BitVec 6) : Statement (.decStart e r) :=
  ⟨_, _, rfl, by revert e r; decide⟩
theorem csrRead (k : BitVec 3) : Statement (.csrRead k) :=
  ⟨_, _, rfl, by simp [matchMask]⟩

end Sys2Proof.Laws.RowPattern
end

