-- ==== Sys2Proof/Laws/Steps.lean ====
section
/-! SUPPORT. What each shared operation can do, said once: one inversion lemma per operation. -/

namespace Sys2Proof.Machine

/-! ### Ports -/

theorem pull_cases {α : Type} {p : InPort α} {x : Pulled α × InPort α} (h : pull p = some x) :
    (∃ v rest, p.queue = v :: rest ∧ x = (.elem v, { p with queue := rest, n := p.n + 1 })) ∨
    (p.queue = [] ∧ p.ended = true ∧ x = (.endMark, p)) := by
  unfold pull at h
  split at h
  · rename_i v rest hq
    exact .inl ⟨v, rest, hq, by simpa using h.symm⟩
  · rename_i hq
    split at h
    · rename_i he
      exact .inr ⟨hq, he, by simpa using h.symm⟩
    · cases h

theorem pull_none {α : Type} {p : InPort α} : pull p = none ↔ p.queue = [] ∧ p.ended = false := by
  unfold pull
  split <;> rename_i h <;> simp [h]

/-! ### ENC -/

theorem fillPull_cases {e e' : Enc} (h : fillPull e = .moves e') :
    (∃ v rest, e.txi.queue = v :: rest ∧
      e' = { e with
        blk := bufSet e.blk e.blen.toNat v
        blen := e.blen + 1
        txi := { e.txi with queue := rest, n := e.txi.n + 1 } }) ∨
    (e.txi.queue = [] ∧ e.txi.ended = true ∧ e' = { e with srcend := true }) := by
  unfold fillPull at h
  split at h
  · cases h
  · rename_i v txi hp
    obtain ⟨v', rest, hq, hx⟩ | ⟨-, -, hx⟩ := pull_cases hp
    · simp only [Prod.mk.injEq, Pulled.elem.injEq] at hx
      obtain ⟨rfl, rfl⟩ := hx
      exact .inl ⟨v, rest, hq, by simpa using h.symm⟩
    · simp at hx
  · rename_i txi hp
    obtain ⟨v', rest, hq, hx⟩ | ⟨hq, he, hx⟩ := pull_cases hp
    · simp at hx
    · simp only [Prod.mk.injEq, true_and] at hx
      subst hx
      exact .inr ⟨hq, he, by simpa using h.symm⟩

/-- Every move ENC can make (47 R273 to R280). -/
theorem encStep_cases {e e' : Enc} (h : encStep e = .moves e') :
    0 < e.txo.demand ∧
    ((e.st = .fill ∧ (e.blen.toNat = 249 ∨ e.srcend = true) ∧ e' = fillClose e) ∨
     (e.st = .fill ∧ e.srcend = false ∧ e.blen.toNat < 249 ∧ fillPull e = .moves e') ∨
     (e.st = .code ∧ codeFrame e = .moves e') ∨
     (e.st = .shift ∧ e' = shiftOut e) ∨
     (e.st = .done ∧ e' = encPresent e)) := by
  unfold encStep at h
  split at h
  · cases h
  · rename_i hd
    refine ⟨Nat.pos_of_ne_zero hd, ?_⟩
    split at h <;> rename_i hst
    · cases h
    · split at h
      · rename_i hc
        exact .inl ⟨hst, by simpa using hc, by simpa using h.symm⟩
      · rename_i hc
        split at h
        · rename_i hlt
          simp only [maxBlock_eq, not_or, Bool.not_eq_true] at hc hlt
          exact .inr (.inl ⟨hst, hc.2, hlt, h⟩)
        · cases h
    · exact .inr (.inr (.inl ⟨hst, h⟩))
    · exact .inr (.inr (.inr (.inl ⟨hst, by simpa using h.symm⟩)))
    · exact .inr (.inr (.inr (.inr ⟨hst, by simpa using h.symm⟩)))

theorem codeFrame_cases {e e' : Enc} (h : codeFrame e = .moves e') :
    e.blen.toNat ≤ 249 ∧
    e' = { e with
      fr := bufFill e.fr (frPack (bufTake e.blk e.blen.toNat))
      flen := BitVec.ofNat 9 (e.blen.toNat + 6 + 1)
      lastf := lastFrameFlag e.blen
      byi := 0
      bii := 0
      st := .shift } := by
  unfold codeFrame at h
  split at h
  · rename_i hl
    exact ⟨by simpa using hl, by simpa using h.symm⟩
  · cases h

/-- What follows a bit (47 R277 to R279). -/
theorem shiftNext_cases (e : Enc) :
    (e.bii.toNat < 7 ∧ shiftNext e = { e with bii := e.bii + 1 }) ∨
    (7 ≤ e.bii.toNat ∧ e.byi.toNat + 1 < e.flen.toNat ∧ shiftNext e = { e with bii := 0, byi := e.byi + 1 }) ∨
    (7 ≤ e.bii.toNat ∧ e.flen.toNat ≤ e.byi.toNat + 1 ∧ e.lastf = true ∧ shiftNext e = { e with st := .done }) ∨
    (7 ≤ e.bii.toNat ∧ e.flen.toNat ≤ e.byi.toNat + 1 ∧ e.lastf = false ∧
      shiftNext e = { e with st := .fill, blen := 0, byi := 0, bii := 0 }) := by
  unfold shiftNext
  split
  · exact .inl ⟨‹_›, rfl⟩
  · split
    · exact .inr (.inl ⟨by omega, ‹_›, rfl⟩)
    · split
      · exact .inr (.inr (.inl ⟨by omega, by omega, ‹_›, rfl⟩))
      · rename_i hl
        exact .inr (.inr (.inr ⟨by omega, by omega, by simpa using hl, rfl⟩))

/-! ### DEC -/

theorem byteComplete_cases {y : Byte} {d d' : Dec} (h : byteComplete y d = .moves d') :
    (d.st = .pfx ∧ d' = { d with pfx := y, cnt := 0, st := if y = 0 then .decode else .payload }) ∨
    (d.st = .payload ∧ d.cnt.toNat < 255 ∧
      d' = { d with
        buf := bufSet d.buf d.cnt.toNat y
        cnt := d.cnt + 1
        st := if d.cnt + 1 = d.pfx then .decode else .payload }) := by
  unfold byteComplete at h
  split at h <;> rename_i hst
  · exact .inl ⟨hst, by simpa using h.symm⟩
  · split at h
    · rename_i hc
      exact .inr ⟨hst, hc, by simpa using h.symm⟩
    · cases h
  · cases h

theorem bitTaken_cases {b : Bit} {d d' : Dec} (h : bitTaken b d = .moves d') :
    (d.nb.toNat < 7 ∧ d' = { d with acc := accWrite d.acc d.nb.toNat b, nb := d.nb + 1 }) ∨
    (7 ≤ d.nb.toNat ∧
      byteComplete (tobyte codec.bitOrder (tupleOfByte (accWrite d.acc d.nb.toNat b)))
        { d with acc := accWrite d.acc d.nb.toNat b, nb := 0 } = .moves d') := by
  unfold bitTaken at h
  simp only at h
  split at h
  · exact .inl ⟨‹_›, by simpa using h.symm⟩
  · exact .inr ⟨by omega, h⟩

theorem takeBit_cases {d d' : Dec} (h : takeBit d = .moves d') :
    (∃ b rest, d.rxi.queue = b :: rest ∧
      bitTaken b { d with rxi := { d.rxi with queue := rest, n := d.rxi.n + 1 } } = .moves d') ∨
    (d.rxi.queue = [] ∧ d.rxi.ended = true ∧
      ((d.st = .pfx ∧ d' = raiseFault .truncatedPrefix d) ∨
       (d.st = .payload ∧ d' = raiseFault .truncatedPayload d))) := by
  unfold takeBit at h
  split at h
  · cases h
  · rename_i b rxi hp
    obtain ⟨v', rest, hq, hx⟩ | ⟨-, -, hx⟩ := pull_cases hp
    · simp only [Prod.mk.injEq, Pulled.elem.injEq] at hx
      obtain ⟨rfl, rfl⟩ := hx
      exact .inl ⟨b, rest, hq, h⟩
    · simp at hx
  · rename_i rxi hp
    obtain ⟨v', rest, hq, hx⟩ | ⟨hq, he, hx⟩ := pull_cases hp
    · simp at hx
    · simp only [Prod.mk.injEq, true_and] at hx
      subst hx
      refine .inr ⟨hq, he, ?_⟩
      unfold bitsEnded at h
      split at h <;> rename_i hst
      · exact .inl ⟨hst, by simpa using h.symm⟩
      · exact .inr ⟨hst, by simpa using h.symm⟩
      · cases h

/-- The three ways `D_DECODE` ends a frame (47 R291, R292). -/
theorem decodeFrame_cases (d : Dec) :
    (d.pfx.toNat < 6 ∧ decodeFrame d = raiseFault .frameTooShort d) ∨
    (6 ≤ d.pfx.toNat ∧ rsDec (bufTake d.buf d.pfx.toNat) = .uncorrectable ∧
      decodeFrame d = raiseFault .uncorrectable d) ∨
    (∃ b e, 6 ≤ d.pfx.toNat ∧ rsDec (bufTake d.buf d.pfx.toNat) = .ok b e ∧
      ((b = [] ∧ decodeFrame d = endOfStream (frMaxupd e { d with buf := bufFill d.buf b })) ∨
       (b ≠ [] ∧ decodeFrame d =
          { frMaxupd e { d with buf := bufFill d.buf b } with
            olen := BitVec.ofNat 8 b.length, oi := 0, st := .drain }))) := by
  unfold decodeFrame
  split
  · rename_i h
    exact .inl ⟨by simpa using h, rfl⟩
  · rename_i h
    have h6 : 6 ≤ d.pfx.toNat := by simpa using h
    split
    · exact .inr (.inl ⟨h6, ‹_›, rfl⟩)
    · rename_i b e hr
      refine .inr (.inr ⟨b, e, h6, hr, ?_⟩)
      by_cases hb : b = []
      · exact .inl ⟨hb, by simp [hb]⟩
      · exact .inr ⟨hb, by simp [hb]⟩

theorem drainByte_cases {d d' : Dec} (h : drainByte d = .moves d') :
    d.oi.toNat < 255 ∧
    ((d.oi.toNat + 1 < d.olen.toNat ∧
        d' = { d with rxo := emit (.byte (bufGet d.buf d.oi.toNat) false) d.rxo, oi := d.oi + 1 }) ∨
     (d.olen.toNat ≤ d.oi.toNat + 1 ∧
        d' = { d with
          rxo := emit (.byte (bufGet d.buf d.oi.toNat) (d.oi.toNat + 1 == d.olen.toNat)) d.rxo
          oi := 0
          cnt := 0
          st := .pfx })) := by
  unfold drainByte at h
  split at h
  · rename_i hlt
    refine ⟨hlt, ?_⟩
    simp only at h
    split at h
    · rename_i hl
      refine .inl ⟨hl, ?_⟩
      have hne : (d.oi.toNat + 1 == d.olen.toNat) = false := by simp; omega
      rw [hne] at h
      simpa using h.symm
    · exact .inr ⟨by omega, by simpa using h.symm⟩
  · cases h

/-- Every move DEC can make (47 R288 to R298). -/
theorem decStep_cases {d d' : Dec} (h : decStep d = .moves d') :
    0 < d.rxo.demand ∧
    (((d.st = .pfx ∨ d.st = .payload) ∧ takeBit d = .moves d') ∨
     (d.st = .decode ∧ d' = decodeFrame d) ∨
     (d.st = .drain ∧ drainByte d = .moves d') ∨
     (d.st = .done ∧ d' = decPresent .endMark d) ∨
     (d.st = .fault ∧ d' = decPresent (.fault d.fault) d)) := by
  unfold decStep at h
  split at h
  · cases h
  · rename_i hd
    refine ⟨Nat.pos_of_ne_zero hd, ?_⟩
    split at h <;> rename_i hst
    · cases h
    · exact .inl ⟨.inl hst, h⟩
    · exact .inl ⟨.inr hst, h⟩
    · exact .inr (.inl ⟨hst, by simpa using h.symm⟩)
    · exact .inr (.inr (.inl ⟨hst, h⟩))
    · exact .inr (.inr (.inr (.inl ⟨hst, by simpa using h.symm⟩)))
    · exact .inr (.inr (.inr (.inr ⟨hst, by simpa using h.symm⟩)))

/-! ### RS.DEC -/

@[simp] theorem correctWord_length (w : List Byte) (l : List (Nat × Byte)) :
    (correctWord w l).length = w.length := by
  induction l generalizing w with
  | nil => rfl
  | cons x rest ih => obtain ⟨i, e⟩ := x; simp [correctWord, ih]

/-- The two ways `RS.DEC` answers `Ok` (43 R177). -/
theorem rsDec_ok_cases {r b : List Byte} {e : Nat} (h : rsDec r = .ok b e) :
    (synZero (rsSyn r) = true ∧ b = r.take (r.length - 6) ∧ e = 0) ∨
    (synZero (rsSyn r) = false ∧ e ≤ 3 ∧ (rsChien (rsLocator (rsSyn r)).1 r.length).length = e ∧
      ∃ mags,
        rsForney (rsSyn r) (rsLocator (rsSyn r)).1 (rsChien (rsLocator (rsSyn r)).1 r.length) r.length = some mags ∧
        synZero (rsSyn (correctWord r ((rsChien (rsLocator (rsSyn r)).1 r.length).zip mags))) = true ∧
        b = (correctWord r ((rsChien (rsLocator (rsSyn r)).1 r.length).zip mags)).take (r.length - 6)) := by
  unfold rsDec at h
  simp only at h
  split at h
  · rename_i hz
    simp only [RsResult.ok.injEq] at h
    exact .inl ⟨hz, h.1.symm, h.2.symm⟩
  · rename_i hz
    split at h
    · cases h
    · rename_i hv
      split at h
      · cases h
      · rename_i hp
        split at h
        · cases h
        · rename_i mags hm
          split at h
          · rename_i hs
            simp only [RsResult.ok.injEq] at h
            refine .inr ⟨by simpa using hz, by omega, by omega, mags, hm, hs, ?_⟩
            simpa using h.1.symm
          · cases h

/-- An `Ok` answer's Block has `n - 6` bytes and at most 3 errors (43 R170, R179). -/
theorem rsDec_ok_length {r b : List Byte} {e : Nat} (h : rsDec r = .ok b e) :
    b.length = r.length - 6 ∧ e ≤ 3 := by
  obtain ⟨-, rfl, rfl⟩ | ⟨-, he, -, mags, -, -, rfl⟩ := rsDec_ok_cases h
  · simp
  · exact ⟨by simp, he⟩

/-! ### The internal operations of DEC run by themselves -/

theorem atBitsEnd_iff {st : DecState} {d : Dec} :
    atBitsEnd st d = true ↔ d.st = st ∧ 0 < d.rxo.demand ∧ d.rxi.queue = [] ∧ d.rxi.ended = true := by
  simp [atBitsEnd, and_assoc]

theorem atDecode_iff {d : Dec} : atDecode d = true ↔ d.st = .decode ∧ 0 < d.rxo.demand := by
  simp [atDecode]

/-- An operation raises, or leaves the fault as its answer (60 R310). -/
theorem raiseAt_cases (here : Bool) (f : FaultKind) (s : State) :
    (here = true ∧ raiseAt here f s = takeFault f s) ∨
    (here = false ∧ raiseAt here f s = { s with result := .raised f }) := by
  cases here
  · exact .inr ⟨rfl, rfl⟩
  · exact .inl ⟨rfl, rfl⟩

/-- The end of the frame stream (45 R220). -/
theorem endFrames_cases (d : Dec) :
    (frameReady d = true ∧
      endFrames d = raiseFault .truncatedPrefix { d with rxi := declareEnd d.rxi }) ∨
    (frameReady d = false ∧ endFrames d = { d with rxi := declareEnd d.rxi }) := by
  cases h : frameReady d <;> simp [endFrames, h]

/-! ### Frames and bit groups -/

theorem receiveFrame_next (p : Byte) (w : List Byte) (s : State) :
    receiveFrame p w s =
      .next { s with dec := if frameReady s.dec then takeFrame p w s.dec else offerFrame p w s.dec } := by
  unfold receiveFrame
  split <;> rfl

/-! ### The machine -/

/-- One step: an engine's turn, or the next move. -/
theorem step_cases (s : State) :
    (s.agenda = [] ∧ step s = engineTurn s) ∨
    (∃ m rest, s.agenda = m :: rest ∧ step s = runMove m { s with agenda := rest }) := by
  unfold step
  split <;> rename_i h
  · exact .inl ⟨h, rfl⟩
  · exact .inr ⟨_, _, h, rfl⟩

/-- What bytes that are no instruction do, where they do not stop the machine (10 R35; log 8, log 15). -/
theorem runNoInstruction_next {f : Format} {e : DecodeError} {s t : State} (h : runNoInstruction f e s = .next t) :
    t = s ∨ (e = .noBytes ∧ f = .frame ∧ t = { s with dec := endFrames s.dec }) := by
  cases e <;> simp only [runNoInstruction] at h
  · cases f <;> simp only [Host.Outcome.next.injEq] at h <;> simp [h.symm]
  · cases h
  · simp only [Host.Outcome.next.injEq] at h
    exact .inl h.symm

/-- Bytes run the instruction the decoder reads, or do what bytes that are none do. -/
theorem runBytes_next {f : Format} {bytes : List Byte} {s t : State} (h : runBytes f bytes s = .next t) :
    (∃ i rest, decode f bytes = .ok (i, rest) ∧ exec i s = .next t) ∨
    t = s ∨ (f = .frame ∧ t = { s with dec := endFrames s.dec }) := by
  unfold runBytes at h
  split at h
  · exact .inl ⟨_, _, ‹_›, h⟩
  · obtain h | ⟨-, hf, h⟩ := runNoInstruction_next h
    · exact .inr (.inl h)
    · exact .inr (.inr ⟨hf, h⟩)

end Sys2Proof.Machine
end

