-- ==== Sys2Proof/Tests/Slice0.lean ====
section
/-! SUPPORT. The model's own tests. Expected values are the vectors V<n> and programs P<n> of spec/95_test_vectors.md
or are written out by hand from the rule named. The witnesses at the end meet the hypotheses of the
statements, one clause at a time. -/

namespace Sys2Proof.Tests
open Sys2Proof.Machine

-- Each kernel evaluation would else take a thread of its own.
set_option Elab.async false

/-! ### Well-formedness: an ill-formed term for each check -/

theorem test_wf_payload_too_long :
    Instr.wf (.frameShort00 2 [1, 2, 3]) = false ∧ Instr.wf (.frameShort04 1 (List.replicate 6 0)) = false ∧
    Instr.wf (.frameEof (List.replicate 7 0)) = false ∧ Instr.wf (.frameData07 (List.replicate 8 0)) = false ∧
    Instr.wf (.frameData08 0 (List.replicate 9 0)) = false ∧
    Instr.wf (.frameData10 0 (List.replicate 17 0)) = false ∧
    Instr.wf (.frameData20 0 (List.replicate 33 0)) = false ∧
    Instr.wf (.frameData40 0 (List.replicate 65 0)) = false ∧
    Instr.wf (.frameData80 0 (List.replicate 129 0)) = false := by decide +kernel

theorem test_wf_exponent_too_wide :
    Instr.wf (.gfExp (2 ^ 31)) = false ∧ Instr.wf (.gfExp (-(2 ^ 31) - 1)) = false := by decide

theorem test_wf_both_starts_as_decStart : Instr.wf (.decStart true 0) = false := by decide

/-! ### Decoding: a word of every row, bit by bit from 30 R81, R85, R93, R94 -/

theorem test_decode_frame_rows :
    decode .frame [0b00000010, 7, 8] = .ok (.frameShort00 2 [7, 8], []) ∧
    decode .frame [0b00000100, 1, 2, 3, 4] = .ok (.frameShort04 0 [1, 2, 3, 4], []) ∧
    decode .frame [0b00000110, 0, 0, 0, 0, 0, 0, 9] = .ok (.frameEof [0, 0, 0, 0, 0, 0], [9]) ∧
    decode .frame [0b00000111, 1, 2, 3, 4, 5, 6, 7] = .ok (.frameData07 [1, 2, 3, 4, 5, 6, 7], []) ∧
    decode .frame [0b00001101, 1] = .ok (.frameData08 5 [1], []) ∧
    decode .frame [0b00011001, 1] = .ok (.frameData10 9 [1], []) ∧
    decode .frame [0b00110001, 1] = .ok (.frameData20 17 [1], []) ∧
    decode .frame [0b01100001, 1] = .ok (.frameData40 33 [1], []) ∧
    decode .frame [0b11000001, 1] = .ok (.frameData80 65 [1], []) ∧
    decode .frame [] = .error .noBytes := by decide +kernel

theorem test_decode_bitgroup :
    decode .bitgroup [0b10000000] = .ok (.bitgroup #v[false, false, false, false, false, false, false, true], []) ∧
    decode .bitgroup [] = .error .noBytes := by decide +kernel

theorem test_decode_cmd_rows :
    decode .cmd [0b10101001] = .ok (.encStart false 0b101010, []) ∧
    decode .cmd [0b00000011] = .ok (.encStart true 0, []) ∧
    decode .cmd [0b01000010] = .ok (.decStart false 0b010000, []) ∧
    decode .cmd [0b11111100] = .error .noStartBit := by decide +kernel

/-- The numbers are 30 R93's; the operand bytes after them are the model's (log 8). -/
theorem test_decode_bp_rows :
    decode .op [0b00000001, 0xA5] = .ok (.bpTobits 0xA5, []) ∧
    decode .op [0b00000010, 0x01] =
      .ok (.bpTobyte #v[true, false, false, false, false, false, false, false], []) ∧
    decode .op [0b00000011, 1, 0x0B, 1, 0x68, 0] = .ok (.bpExpand [0x0B, 0x68], []) ∧
    decode .op [0b00000100, 1, 1, 1, 0, 0] = .ok (.bpGroup [true, false], []) := by decide +kernel

theorem test_decode_gf_rows :
    decode .op [0b00010000, 0x53, 0xCA] = .ok (.gfAdd 0x53 0xCA, []) ∧
    decode .op [0b00010001, 0x80] = .ok (.gfXtime 0x80, []) ∧
    decode .op [0b00010010, 0x53, 0xCA] = .ok (.gfMul 0x53 0xCA, []) ∧
    decode .op [0b00010011, 0xFE, 0xFF, 0xFF, 0xFF] = .ok (.gfExp (-2), []) ∧
    decode .op [0b00010100, 0x1D] = .ok (.gfLog 0x1D, []) ∧
    decode .op [0b00010101, 0x53] = .ok (.gfInv 0x53, []) ∧
    decode .op [0b00010110, 0x26, 0xE3] = .ok (.gfDiv 0x26 0xE3, []) ∧
    decode .op [0b00010111, 0x02, 1, 0x68, 0] = .ok (.gfPeval [0x68] 0x02, []) := by decide +kernel

theorem test_decode_rs_rows :
    decode .op [0b00100000, 1, 0x68, 0] = .ok (.rsParity ⟨[0x68], by decide⟩, []) ∧
    decode .op [0b00100001, 0] = .ok (.rsEnc ⟨[], by decide⟩, []) ∧
    decode .op [0b00101000, 1, 0x68, 0] = .ok (.rsSyn [0x68], []) ∧
    decode .op [0b00101001, 1, 2, 3, 4, 5, 6] = .ok (.rsLocator #v[1, 2, 3, 4, 5, 6], []) ∧
    decode .op [0b00101010, 11, 1, 0x01, 1, 0x74, 0] = .ok (.rsChien [0x01, 0x74] 11, []) ∧
    decode .op [0b00101011, 1, 2, 3, 4, 5, 6, 11, 1, 0x01, 0, 1, 10, 0] =
      .ok (.rsForney #v[1, 2, 3, 4, 5, 6] [0x01] [10] 11, []) ∧
    decode .op [0b00101100, 0, 1, 2, 3, 4, 5, 6] = .ok (.rsDec ⟨[1, 2, 3, 4, 5, 6], by decide⟩, []) := by
  decide +kernel

theorem test_decode_fr_rows :
    decode .op [0b00110000, 1, 0x68, 0] = .ok (.frSplit [0x68], []) ∧
    decode .op [0b00110001, 1, 0x68, 0] = .ok (.frPack ⟨[0x68], by decide⟩, []) ∧
    decode .op [0b00110010, 1, 0x68, 0] = .ok (.frEnc [0x68], []) ∧
    decode .op [0b00111000, 1, 0x68, 0] = .ok (.frTakepfx [0x68], []) ∧
    decode .op [0b00111001, 0x07, 1, 0x68, 0] = .ok (.frTakepay 0x07 [0x68], []) ∧
    decode .op [0b00111010, 0x07] = .ok (.frChecklen 0x07, []) ∧
    decode .op [0b00111011, 0x03] = .ok (.frMaxupd 3, []) ∧
    decode .op [0b00111100, 0] = .ok (.frEofdet ⟨[], by decide⟩, []) ∧
    decode .op [0b00111101, 0x02, 1, 0x68, 0] = .ok (.frDec [0x68] 2, []) := by decide +kernel

theorem test_decode_bs_and_csr_rows :
    decode .op [0b01000000, 1, 0x68, 0] = .ok (.bsEnc [0x68], []) ∧
    decode .op [0b01000001, 1, 1, 0] = .ok (.bsDec [true], []) ∧
    decode .op [0b10000000] = .ok (.encStart false 0, []) ∧
    decode .op [0b10000001] = .ok (.decStart false 0, []) ∧
    decode .op [0b10000010, 0x05] = .ok (.csrRead 5, []) := by decide +kernel

theorem test_decode_rejects_by_name :
    decode .op [0x05] = .error (.unknownOperation 0x05) ∧ decode .op [] = .error .noBytes := by decide +kernel

/-- The container's own choices (log 8): bytes that are not there read as 0x00, and excess bits are not read. -/
theorem test_decode_container :
    decode .op [0x12, 0x53] = .ok (.gfMul 0x53 0x00, []) ∧ decode .op [0x3B, 0x06] = .ok (.frMaxupd 2, []) ∧
    decode .op [0x82, 0x0D] = .ok (.csrRead 5, []) ∧
    decode .op [0x2C, 0xFF, 1] = .ok (.rsDec ⟨1 :: List.replicate 254 0, by decide +kernel⟩, []) := by decide +kernel

theorem test_table_word_runs :
    decodeTableWord 8 0x12 = some (.gfMul 0 0) ∧ decodeTableWord 8 0x05 = some (.frameShort04 1 [0, 0, 0, 0, 0]) ∧
    decodeTableWord 8 0x82 = some (.csrRead 0) ∧
    (State.reset.withFetchWord 8 0x82).agenda.length = 1 := by decide +kernel

/-! ### The operations -/

/-- What an outcome leaves in `result`. -/
def resultOf : Result → Option OpResult
  | .next t => some t.result
  | .fault _ => none
  | .refused _ => none

/-- What an outcome leaves in DEC. -/
def decOf : Result → Option Dec
  | .next t => some t.dec
  | .fault _ => none
  | .refused _ => none

/-- What an outcome leaves in ENC. -/
def encOf : Result → Option Enc
  | .next t => some t.enc
  | .fault _ => none
  | .refused _ => none

/-- Runs an operation from reset. -/
def resultFrom (i : Instr) : Option OpResult := resultOf (exec i State.reset)

/-- V5, V4. -/
theorem test_bp_tobits :
    resultFrom (.bpTobits 0xA5) = some (.bits [true, false, true, false, false, true, false, true]) ∧
    resultFrom (.bpTobits 0x80) = some (.bits [false, false, false, false, false, false, false, true]) := by
  decide +kernel

/-- 40 R111's example: 00010110 is 0x68. -/
theorem test_bp_tobyte :
    resultFrom (.bpTobyte #v[false, false, false, true, false, true, true, false]) = some (.byte 0x68) := by
  decide +kernel

/-- V8. -/
theorem test_bp_expand :
    resultFrom (.bpExpand [0x0B, 0x68]) =
      some (.bits [true, true, false, true, false, false, false, false,
        false, false, false, true, false, true, true, false]) := by decide +kernel

/-- V10 and 40 R115's example. -/
theorem test_bp_group :
    resultFrom (.bpGroup [true, true, false, true, false, false, false]) = some (.bytes []) ∧
    resultFrom (.bpGroup [true, true, false, true, false, false, false, false, true, false, true]) =
      some (.bytes [0x0B]) := by decide +kernel

/-- V11. -/
theorem test_gf_add : resultFrom (.gfAdd 0x53 0xCA) = some (.byte 0x99) := by decide +kernel

/-- V12. -/
theorem test_gf_xtime :
    resultFrom (.gfXtime 0x80) = some (.byte 0x1D) ∧ resultFrom (.gfXtime 0x8E) = some (.byte 0x01) := by
  decide +kernel

/-- V13, V14. -/
theorem test_gf_mul :
    resultFrom (.gfMul 0x53 0xCA) = some (.byte 0x8F) ∧ resultFrom (.gfMul 0xFF 0xFF) = some (.byte 0xE2) ∧
    resultFrom (.gfMul 0x00 0x9A) = some (.byte 0x00) := by decide +kernel

/-- V15. -/
theorem test_gf_exp :
    resultFrom (.gfExp 254) = some (.byte 0x8E) ∧ resultFrom (.gfExp 256) = some (.byte 0x02) ∧
    resultFrom (.gfExp (-1)) = some (.byte 0x8E) := by decide +kernel

/-- V16. -/
theorem test_gf_log :
    resultFrom (.gfLog 0x01) = some (.exponent 0) ∧ resultFrom (.gfLog 0x8E) = some (.exponent 254) := by
  decide +kernel

/-- V17. -/
theorem test_gf_inv : resultFrom (.gfInv 0x53) = some (.byte 0x8C) := by decide +kernel

/-- V18. -/
theorem test_gf_div :
    resultFrom (.gfDiv 0x26 0xE3) = some (.byte 0x71) ∧ resultFrom (.gfDiv 0x00 0xE3) = some (.byte 0x00) := by
  decide +kernel

/-- V19, V20. -/
theorem test_gf_peval :
    resultFrom (.gfPeval [0x01, 0x3F, 0x01, 0xDA, 0x20, 0xE3, 0x26] 0x40) = some (.byte 0xF7) ∧
    resultFrom (.gfPeval [0x68, 0x65, 0x6C, 0x6C, 0x6F] 0x00) = some (.byte 0x6F) := by decide +kernel

/-- "hello" (V27). -/
def hello : List Byte := [0x68, 0x65, 0x6C, 0x6C, 0x6F]

/-- Its parity (V27). -/
def helloParity : List Byte := [0xDF, 0x79, 0x63, 0xBB, 0xFB, 0xE7]

theorem test_rs_parity : resultFrom (.rsParity ⟨hello, by decide⟩) = some (.bytes helloParity) := by
  decide +kernel

/-- V23. -/
theorem test_rs_enc :
    resultFrom (.rsEnc ⟨[0x01], by decide⟩) = some (.bytes [0x01, 0x3F, 0x01, 0xDA, 0x20, 0xE3, 0x26]) := by
  decide +kernel

/-- The word of V33. -/
def word33 : List Byte := [0x68, 0x00, 0x6C, 0x6C, 0x6F, 0xDF, 0x79, 0x63, 0xBA, 0xFB, 0xE7]

/-- V33. -/
theorem test_rs_syn : resultFrom (.rsSyn word33) = some (.bytes [0x64, 0xE3, 0xCF, 0xC6, 0xCD, 0x99]) := by
  decide +kernel

/-- V33's worked decode. -/
theorem test_rs_locator :
    resultFrom (.rsLocator #v[0x64, 0xE3, 0xCF, 0xC6, 0xCD, 0x99]) = some (.locator [0x01, 0x3E, 0xE8] 2) := by
  decide +kernel

/-- 43 R175's example. -/
theorem test_rs_chien : resultFrom (.rsChien [0x01, 0x3E, 0xE8] 11) = some (.positions [1, 8]) := by
  decide +kernel

/-- V33's worked decode. -/
theorem test_rs_forney :
    resultFrom (.rsForney #v[0x64, 0xE3, 0xCF, 0xC6, 0xCD, 0x99] [0x01, 0x3E, 0xE8] [1, 8] 11) =
      some (.magnitudes (some [0x65, 0x01])) := by decide +kernel

/-- V33. -/
theorem test_rs_dec_corrects : resultFrom (.rsDec ⟨word33, by decide⟩) = some (.rsDec (.ok hello 2)) := by
  decide +kernel

/-- V40. -/
theorem test_rs_dec_uncorrectable :
    resultFrom (.rsDec ⟨[0x01, 0x01, 0x01, 0x01, 0x00, 0x00], by decide⟩) = some (.rsDec .uncorrectable) := by
  decide +kernel

/-- 44 R200: 250 bytes give Blocks of 249 and 1, and 249 bytes one Block. -/
theorem test_fr_split :
    (frSplit (List.replicate 250 0x00)).map List.length = [249, 1] ∧
    (frSplit (List.replicate 249 0x00)).map List.length = [249] ∧
    resultFrom (.frSplit []) = some (.byteSeqs []) := by decide +kernel

/-- 44 R201: the EOF frame. -/
theorem test_fr_pack : resultFrom (.frPack ⟨[], by decide⟩) = some (.bytes [0x06, 0, 0, 0, 0, 0, 0]) := by
  decide +kernel

/-- V42. -/
theorem test_fr_enc :
    resultFrom (.frEnc hello) = some (.byteSeqs [0x0B :: (hello ++ helloParity), [0x06, 0, 0, 0, 0, 0, 0]]) := by
  decide +kernel

/-- DEC in a fresh session with demand for one event and the given maximum. -/
def readyDec (m : BitVec 8) : Dec := { startDec {} with maxerr := m, rxo := { demand := 1 } }

/-- The machine with that DEC. -/
def ready (m : BitVec 8) : State := { dec := readyDec m }

/-- DEC in state `st` with demand, at the end of RXI. -/
def endedIn (st : DecState) : State := { dec := { readyDec 0 with st := st, rxi := { ended := true } } }

/-- DEC about to decode a frame, its maximum 2. -/
def decoding : State := { dec := { readyDec 2 with st := .decode } }

/-- 45 R220; 60 R310: in `D_IDLE` no fault is taken. -/
theorem test_fr_takepfx :
    resultFrom (.frTakepfx [0x0B, 0x68]) = some (.taken 0x0B [0x68]) ∧
    (decOf (exec (.frTakepfx []) (endedIn .pfx))).map (fun d => (d.fault, d.st)) = some (1, .fault) ∧
    resultFrom (.frTakepfx []) = some (.raised .truncatedPrefix) := by
  decide +kernel

/-- 45 R221; V54. -/
theorem test_fr_takepay :
    resultFrom (.frTakepay 2 [7, 8, 9]) = some (.takenPayload [7, 8] [9]) ∧
    (decOf (exec (.frTakepay 5 [1, 2]) (endedIn .payload))).map (·.fault) = some 2 := by decide +kernel

/-- 45 R222. -/
theorem test_fr_checklen :
    resultFrom (.frChecklen 6) = some .lengthOk ∧
    (decOf (exec (.frChecklen 5) decoding)).map (·.fault) = some 4 ∧
    (decOf (exec (.frChecklen 5) State.reset)).map (·.fault) = some 0 := by decide +kernel

/-- 45 R224: the maximum of 2 and 3, and of 2 and 0; 10 R34: `D_DONE` keeps the register. -/
theorem test_fr_maxupd :
    (decOf (exec (.frMaxupd 3) decoding)).map (·.maxerr) = some 3 ∧
    (decOf (exec (.frMaxupd 0) decoding)).map (·.maxerr) = some 2 ∧
    (decOf (exec (.frMaxupd 3) { dec := { readyDec 1 with st := .done } })).map (·.maxerr) = some 1 := by
  decide +kernel

/-- 45 R225, R233; 60 R321: `D_FAULT` is not left. -/
theorem test_fr_eofdet :
    (decOf (exec (.frEofdet ⟨[], by decide⟩) decoding)).map (fun d => (d.st, d.report)) = some (.done, true) ∧
    (decOf (exec (.frEofdet ⟨[], by decide⟩) { dec := raiseFault .uncorrectable (readyDec 2) })).map (·.st) =
      some .fault ∧
    resultFrom (.frEofdet ⟨[0x00], by decide⟩) = some (.flag false) := by decide +kernel

/-- V46, V52. -/
theorem test_fr_dec :
    resultFrom (.frDec (0x0B :: (hello ++ helloParity) ++ [0x06, 0, 0, 0, 0, 0, 0]) 0) =
      some (.stream ⟨[hello], .done, 0, 19⟩) ∧
    resultFrom (.frDec [0x00] 0) = some (.stream ⟨[], .fault .frameTooShort, 0, 1⟩) := by decide +kernel

/-- V64: 01100000 and 48 zeros. -/
theorem test_bs_enc :
    resultFrom (.bsEnc []) = some (.bits ([false, true, true] ++ List.replicate 53 false)) := by decide +kernel

/-- V67, V68 (the first 3 bits). -/
theorem test_bs_dec :
    resultFrom (.bsDec ([false, true, true] ++ List.replicate 53 false)) = some (.stream ⟨[], .done, 0, 56⟩) ∧
    resultFrom (.bsDec [true, true, false]) = some (.stream ⟨[], .fault .truncatedPrefix, 0, 3⟩) := by
  decide +kernel

/-! ### Commands, frames, engines -/

/-- P1: after ENC.START, CSR2 reads 01; the other bit starts DEC (10 R35). -/
theorem test_enc_start :
    (encOf (exec (.encStart false 0) State.reset)).map csrEncStatus = some 0x01 ∧
    (decOf (exec (.encStart true 0) State.reset)).map csrDecStatus = some 0x01 := by decide +kernel

/-- P3: DEC.START in a fault clears it. -/
theorem test_dec_start :
    (decOf (exec (.decStart false 0) { dec := { raiseFault .uncorrectable {} with pfx := 11 } })).map
      (fun d => (csrDecStatus d, d.fault, d.pfx)) = some (0x01, 0, 11) := by decide +kernel

/-- P1: the constant CSRs; P3: CSR3 reads 16 after a fault. -/
theorem test_csr_read :
    resultFrom (.csrRead 0) = some (.byte 0x06) ∧ resultFrom (.csrRead 1) = some (.byte 0xFF) ∧
    resultOf (exec (.csrRead 3) { dec := raiseFault .uncorrectable {} }) = some (.byte 0x16) := by decide +kernel

/-- P5, first session: prefix 3. -/
theorem test_frame_short00 :
    (decOf (exec (.frameShort00 3 [0xAA, 0xBB, 0xCC]) (ready 0))).map
      (fun d => (d.fault, d.cnt, d.pfx, d.rxi.n, csrDecStatus d)) = some (4, 3, 3, 32, 0x16) := by decide +kernel

/-- P5, second session: prefix 5 and two bytes. -/
theorem test_frame_short04 :
    (decOf (exec (.frameShort04 1 [1, 2]) (ready 0))).map
      (fun d => (d.fault, d.cnt, d.pfx, d.rxi.n, csrDecStatus d)) = some (2, 2, 5, 24, 0x16) := by decide +kernel

/-- P2: the EOF frame with one error, after a frame with two. -/
theorem test_frame_eof :
    (decOf (exec (.frameEof [0, 0, 1, 0, 0, 0]) (ready 2))).map
      (fun d => (d.cnt, d.pfx, d.maxerr, csrDecStatus d)) = some (6, 6, 2, 0x2D) := by decide +kernel

/-- V23 as a frame: the Block is the byte 01. -/
theorem test_frame_data07 :
    (decOf (exec (.frameData07 [0x01, 0x3F, 0x01, 0xDA, 0x20, 0xE3, 0x26]) (ready 0))).map
      (fun d => (d.st, d.olen, bufTake d.buf 1)) = some (.drain, 1, [0x01]) := by decide +kernel

/-- P2: the data frame with two errors. -/
theorem test_frame_data08 :
    (decOf (exec (.frameData08 3 word33) (ready 0))).map
      (fun d => (d.st, d.olen, d.maxerr, bufTake d.buf 5)) = some (.drain, 5, 2, hello) := by decide +kernel

/-- An all-zero word of any length is the codeword of the zero Block (42 R153), so the longer rows are taken too. -/
theorem test_frame_data10_data20 :
    (decOf (exec (.frameData10 0 (List.replicate 16 0)) (ready 0))).map (fun d => (d.st, d.olen)) =
      some (.drain, 10) ∧
    (decOf (exec (.frameData20 0 (List.replicate 32 0)) (ready 0))).map (fun d => (d.st, d.olen)) =
      some (.drain, 26) := by decide +kernel

/-- A payload cut short (60 R313). -/
theorem test_frame_data40_data80 :
    (decOf (exec (.frameData40 1 [1, 2, 3]) (ready 0))).map (fun d => (d.fault, d.cnt)) = some (2, 3) ∧
    (decOf (exec (.frameData80 1 []) (ready 0))).map (fun d => (d.fault, d.rxi.n)) = some (2, 8) := by
  decide +kernel

/-- 47 R289: the group 11010000 is the prefix 0x0B. -/
theorem test_bitgroup :
    (decOf (exec (.bitgroup #v[true, true, false, true, false, false, false, false]) (ready 0))).map
      (fun d => (d.st, d.pfx, d.nb, d.rxi.n)) = some (.payload, 0x0B, 0, 8) := by decide +kernel

/-- P1: an empty source gives the EOF frame; after its 56 bits CSR2 reads 3C. -/
theorem test_encode_engine :
    (fun e => (csrEncStatus e, e.txo.trace.length, e.flen, e.byi, e.bii))
      (encRun 80 { startEnc {} with txi := { ended := true }, txo := { demand := 58 } }) =
      (0x3C, 57, 7, 6, 7) := by decide +kernel

/-- P3, second session: four bits, then the end. -/
theorem test_decode_engine :
    (fun d => (d.fault, d.nb, d.rxi.n, d.rxo.trace))
      (decRun 10 { readyDec 0 with rxi := { queue := [false, true, true, false], ended := true } }) =
      (1, 0, 4, [.fault 1]) := by decide +kernel

/-! ### Witnesses for the hypotheses of the statements -/

theorem witness_DecodeEncodeRoundTrip :
    Instr.WellFormed (.gfExp (-(2 ^ 31))) ∧ Instr.WellFormed (.gfExp (2 ^ 31 - 1)) ∧
    Instr.WellFormed (.frameData80 127 (List.replicate 255 0)) ∧
    Instr.WellFormed (.decStart false 0x3F) := by
  decide +kernel

/-- A machine about to run a GF.ADD. -/
def aboutToAdd : State := { agenda := [.instr .op [0x10, 1, 2], .reset] }

theorem witness_StepRunsDecodedInstruction :
    aboutToAdd.agenda = .instr .op [0x10, 1, 2] :: [.reset] ∧ decode .op [0x10, 1, 2] = .ok (.gfAdd 1 2, []) ∧
    decode .op [0x05] = .error (.unknownOperation 0x05) ∧ decode .cmd [0xFC] = .error .noStartBit ∧
    decode .cmd [] = .error .noBytes ∧ decode .frame [] = .error .noBytes ∧ frameReady (ready 0).dec = true ∧
    decodeTableWord 8 0x10 = some (.gfAdd 0 0) := by
  decide +kernel

theorem witness_GroupGivesWholeBytes : ([true, true, true, true, true, true, true] : List Bit).length < 8 := by
  decide

theorem witness_ExpandGivesBytesBitByBit : 7 < 8 ∧ 1 < [(0x0B : Byte), 0x68].length := by decide

theorem witness_GfExpPowersOfAlpha : (0x8E : Byte) ≠ 0 ∧ 254 < 255 ∧ gfExp (254 : Nat) = 0x8E := by decide +kernel

theorem witness_GfLogIsTheExponent : (0x8E : Byte) ≠ 0 ∧ gfExp (254 : Nat) = 0x8E := by decide +kernel

theorem witness_SplitCutsThePayloadIntoBlocks : [0x68] ∈ frSplit [0x68] := by decide

theorem witness_GfInverseAndQuotient :
    (0xFF : Byte) ≠ 0 ∧ gfMul 0xFF 0xFD = 0x01 ∧ gfMul 0x71 0xE3 = 0x26 := by decide +kernel

theorem test_gfPeval_zeros (v : Byte) (k : Nat) : gfPeval (List.replicate k 0x00) v = 0x00 := by
  have h0 : ∀ w : Byte, gfMul 0#8 w = 0#8 := by decide +kernel
  unfold gfPeval
  induction k with
  | zero => rfl
  | succ k ih => simpa [List.replicate_succ, h0] using ih

/-- The zero word of any length is a codeword (42 R151). -/
theorem test_inCode_zeros (n : Nat) : InCode n (List.replicate n 0x00) :=
  ⟨by simp, fun _ _ => test_gfPeval_zeros _ _⟩

theorem witness_EveryCodewordIsTheEncodingOfItsBlock :
    InCode 6 (List.replicate 6 0x00) ∧ InCode 255 (List.replicate 255 0x00) ∧
    (List.replicate 249 (0x00 : Byte)).length = 255 - 6 :=
  ⟨test_inCode_zeros 6, test_inCode_zeros 255, List.length_replicate⟩

/-- The zero word of length 255 with three errors, at the first, a middle and the last byte. -/
def threeErrors : List Byte := 0x01 :: List.replicate 126 0x00 ++ [0x80] ++ List.replicate 126 0x00 ++ [0xFF]

theorem witness_CodewordWithinThreeIsUnique :
    threeErrors.length = 255 ∧ InCode 255 (List.replicate 255 0x00) ∧
    dist (List.replicate 255 0x00) threeErrors = 3 :=
  ⟨by decide +kernel, test_inCode_zeros 255, by decide +kernel⟩

theorem witness_RsDecCorrectsUpToThreeErrors :
    InCode 6 (List.replicate 6 0x00) ∧ dist (List.replicate 6 0x00) [0x11, 0x00, 0x22, 0x00, 0x00, 0x33] = 3 :=
  ⟨test_inCode_zeros 6, by decide +kernel⟩

/-- One error FF at wire position 0 of 11 (V32), two errors (V33), and three at the ends and the middle of 255. -/
theorem witness_LocatorOfUpToThreeErrors :
    SomeErrors [(0xFF, 10)] ∧ SomeErrors [(0x65, 9), (0x01, 2)] ∧ SomeErrors [(0x01, 254), (0x80, 127), (0xFF, 0)] ∧
    errorSyndromes [(0xFF, 10)] = #v[0xFF, 0x37, 0x64, 0xA7, 0xEF, 0x24] ∧
    errorSyndromes [(0x65, 9), (0x01, 2)] = #v[0x64, 0xE3, 0xCF, 0xC6, 0xCD, 0x99] := by
  unfold SomeErrors; decide +kernel

theorem witness_ForneyGivesTheMagnitudes :
    rsForney #v[0x64, 0xE3, 0xCF, 0xC6, 0xCD, 0x99] [0x01, 0x3E, 0xE8] [1, 8] 11 = some [0x65, 0x01] ∧
    rsForney #v[0, 0, 0, 0, 0, 0] [0x01] [0] 11 = none ∧ SomeErrors [(0x01, 254), (0x80, 127), (0xFF, 0)] ∧
    (∀ p ∈ [((0x01 : Byte), 254), (0x80, 127), (0xFF, 0)], p.2 < (255 : Byte).toNat) := by
  unfold SomeErrors; decide +kernel

/-- Both answers occur (V39, V40). -/
theorem witness_RsDecMeetsItsContract :
    rsDec [0x01, 0x01, 0x01, 0x01, 0x00, 0x00] = .uncorrectable ∧ rsDec [0x11, 0x00, 0x22, 0x00, 0x00, 0x33] = .ok [] 3 := by
  decide +kernel

theorem witness_FrameStepsGiveValuesOrRaise :
    (2 : Byte).toNat ≤ [(7 : Byte), 8].length ∧ [(7 : Byte)].length < (2 : Byte).toNat ∧
    6 ≤ (6 : Byte).toNat ∧ (5 : Byte).toNat < 6 ∧ BitsEndAt .pfx (endedIn .pfx).dec ∧
    BitsEndAt .payload (endedIn .payload).dec ∧ DecodesNow decoding.dec ∧ ¬ BitsEndAt .pfx {} ∧
    ¬ BitsEndAt .payload {} ∧ ¬ DecodesNow {} := by
  unfold BitsEndAt DecodesNow; decide +kernel

theorem witness_MaxupdAndEofdetEffects :
    (⟨[0x00], by decide⟩ : Block).val ≠ [] ∧ (⟨[], by decide⟩ : Block).val = [] ∧
    DecodesNow decoding.dec ∧ ¬ DecodesNow {} := by
  unfold DecodesNow; decide +kernel

theorem witness_ResetLeavesBothEnginesIdle :
    State.reset.enc.st = .idle ∧ State.reset.dec.st = .idle ∧ State.reset.agenda = [] := by decide

theorem witness_HostMoveEffects :
    State.reset.enc.txi.ended = false ∧ State.reset.dec.rxi.ended = false ∧
    ({ enc := { txi := { ended := true } } } : State).enc.txi.ended = true ∧
    ({ dec := { rxi := { ended := true } } } : State).dec.rxi.ended = true ∧ (5 : BitVec 3) ≠ 6 ∧
    (0xFC : Byte).getLsbD 0 = false ∧ (0xFC : Byte).getLsbD 1 = false := by decide +kernel

theorem witness_ShortFramesRaiseFrameTooShort :
    frameReady (ready 0).dec = true ∧ ([] : List Byte).length = (0 : BitVec 2).toNat ∧
    [(1 : Byte), 2, 3].length = (3 : BitVec 2).toNat ∧ [(1 : Byte), 2, 3, 4, 5].length = 4 + (1 : BitVec 1).toNat := by
  decide +kernel

theorem witness_EofFrameEndsTheSession :
    frameReady (ready 0).dec = true ∧ rsDec [0x11, 0x00, 0x22, 0x00, 0x00, 0x33] = .ok [] 3 ∧
    rsDec [0xFF, 0xFF, 0xFF, 0xFF, 0xFF, 0xFF] = .uncorrectable ∧ (List.replicate 6 (0x00 : Byte)).length = 6 := by
  decide +kernel

/-- Both outcomes of a data frame occur (V33, V35). -/
theorem witness_DataFramesAreDecoded :
    frameReady (ready 3).dec = true ∧ word33.length = 8 + (3 : BitVec 3).toNat ∧
    rsDec [0x97, 0x9A, 0x93, 0x93, 0x6F, 0xDF, 0x79, 0x63, 0xBB, 0xFB, 0xE7] = .uncorrectable ∧
    [(0 : Byte), 0, 0, 0, 0, 0, 0].length = 7 ∧ (List.replicate 31 (0 : Byte)).length = 16 + (15 : BitVec 4).toNat ∧
    (List.replicate 63 (0 : Byte)).length = 32 + (31 : BitVec 5).toNat ∧
    (List.replicate 127 (0 : Byte)).length = 64 + (63 : BitVec 6).toNat ∧
    (List.replicate 255 (0 : Byte)).length = 128 + (127 : BitVec 7).toNat := by decide +kernel

/-- The clauses: DEC draining, RXI ended, and a frame cut short where DEC stands ready. -/
theorem witness_FramesNotTakenAreQueued :
    frameClass (.frameShort00 2 [7, 8]) ≠ none ∧ Instr.WellFormed (.frameShort00 2 [7, 8]) ∧
    encode (.frameShort00 2 [7, 8]) = 2 :: [7, 8] ∧ frameReady ({ st := .drain } : Dec) = false ∧
    [(7 : Byte), 8].length = (2 : Byte).toNat ∧ ({ rxi := { ended := true } } : Dec).rxi.ended = true ∧
    frameReady (ready 0).dec = true ∧ Instr.WellFormed (.frameShort00 2 [7]) ∧
    encode (.frameShort00 2 [7]) = 2 :: [7] ∧ [(7 : Byte)].length < (2 : Byte).toNat := by decide +kernel

theorem witness_FrameTakenWholeIsItsSteps : frameReady (readyDec 0) = true := by decide +kernel

/-- DEC before the last byte of the longest payload. -/
def lastByteDec : Dec := { readyDec 0 with st := .payload, pfx := 255, cnt := 254 }

theorem witness_BitGroupIsEightBitSteps :
    DecInv (readyDec 0) ∧ (readyDec 0).st = .pfx ∧ groupReady (readyDec 0) = true ∧
    DecInv lastByteDec ∧ lastByteDec.st = .payload ∧ groupReady lastByteDec = true ∧
    DecInv {} ∧ groupReady {} = false ∧ ({} : Dec).rxi.ended = false ∧
    DecInv { rxi := { ended := true } } := by
  refine ⟨?_, by decide +kernel, by decide +kernel, ?_, by decide +kernel, by decide +kernel, ?_,
    by decide +kernel, by decide +kernel, ?_⟩ <;> unfold DecInv <;> decide +kernel

/-- ENC in `E_FILL` with demand, a byte on offer and `k` bytes in the Block. -/
def fillEnc (k : BitVec 8) (q : List Byte) (ended : Bool) : Enc :=
  { startEnc {} with blen := k, txi := { queue := q, ended := ended }, txo := { demand := 1 } }

theorem witness_EnginesWaitAndMove :
    (fillEnc 248 [] false).blen.toNat ≤ 249 ∧ encStep (fillEnc 248 [] false) = .waits ∧
    decStep (readyDec 0) = .waits ∧ encStep (fillEnc 249 [] false) = .moves (fillClose (fillEnc 249 [] false)) ∧
    decStep (endedIn .pfx).dec = .moves (raiseFault .truncatedPrefix (endedIn .pfx).dec) ∧
    encStep (endedIn .pfx).enc = .waits ∧ (endedIn .pfx).agenda = [] := by decide +kernel

theorem witness_EncFillSteps :
    (fillEnc 248 [7] false).st = .fill ∧ 0 < (fillEnc 248 [7] false).txo.demand ∧
    (fillEnc 248 [7] false).srcend = false ∧ (fillEnc 248 [7] false).blen.toNat < 249 ∧
    (fillEnc 248 [7] false).txi.queue = 7 :: [] ∧ (fillEnc 0 [] true).txi.ended = true ∧
    (fillEnc 248 [] false).txi.ended = false ∧
    (fillEnc 249 [7] false).blen.toNat = 249 := by decide +kernel

/-- ENC in `E_CODE` with `k` bytes in the Block. -/
def codeEnc (k : BitVec 8) : Enc := { fillEnc k [] true with srcend := true, st := .code }

theorem witness_EncCodeStep :
    (codeEnc 249).st = .code ∧ 0 < (codeEnc 249).txo.demand ∧ (codeEnc 249).blen.toNat ≤ 249 ∧
    (codeEnc 0).blen.toNat ≤ 249 := by decide +kernel

/-- ENC in `E_SHIFT` at bit `j` of byte `i` of an 8-byte frame. -/
def shiftEnc (i : BitVec 8) (j : BitVec 3) (last : Bool) : Enc :=
  { fillEnc 1 [] true with st := .shift, flen := 8, byi := i, bii := j, lastf := last }

theorem witness_EncShiftAndDoneSteps :
    (shiftEnc 7 6 false).byi.toNat < (shiftEnc 7 6 false).flen.toNat ∧ (shiftEnc 7 6 false).bii.toNat < 7 ∧
    (shiftEnc 6 7 false).bii.toNat = 7 ∧ (shiftEnc 6 7 false).byi.toNat + 1 < (shiftEnc 6 7 false).flen.toNat ∧
    (shiftEnc 7 7 true).byi.toNat + 1 = (shiftEnc 7 7 true).flen.toNat ∧ (shiftEnc 7 7 true).lastf = true ∧
    (shiftEnc 7 7 false).lastf = false ∧ 0 < (shiftEnc 7 7 false).txo.demand ∧
    ({ shiftEnc 0 0 true with st := .done } : Enc).st = .done ∧
    (shiftEnc 0 0 true).txo.trace.getLast? ≠ some .endMark ∧
    ([.endMark] : List TxoEvent).getLast? = some .endMark := by decide +kernel

theorem witness_DecBitSteps :
    0 < ({ readyDec 0 with nb := 6, rxi := { queue := [true] } } : Dec).rxo.demand ∧
    ({ readyDec 0 with nb := 6, rxi := { queue := [true] } } : Dec).nb.toNat < 7 ∧
    ({ readyDec 0 with nb := 7, acc := 0x02, rxi := { queue := [true] } } : Dec).nb.toNat = 7 ∧
    (∀ k : Fin 8, (0x82 : Byte).getLsbD k = if k.val = 7 then true else (0x02 : Byte).getLsbD k) ∧
    lastByteDec.cnt.toNat < 255 ∧ (readyDec 0).st = .pfx ∧ lastByteDec.st = .payload := by decide +kernel

/-- DEC in `D_DECODE` with prefix `p` and a zero payload, or with the bytes `l`. -/
def decodeDec (p : BitVec 8) (l : List Byte) : Dec :=
  { readyDec 0 with st := .decode, pfx := p, cnt := p, buf := bufFill (Vector.replicate 255 0) l }

theorem witness_DecDecodeStep :
    0 < (decodeDec 5 []).rxo.demand ∧ (decodeDec 5 []).pfx.toNat < 6 ∧
    rsDec (bufTake (decodeDec 6 [1, 1, 1, 1]).buf 6) = .uncorrectable ∧
    rsDec (bufTake (decodeDec 6 [1, 1, 1]).buf 6) = .ok [] 3 ∧
    rsDec (bufTake (decodeDec 7 []).buf 7) = .ok [0] 0 := by decide +kernel

/-- DEC in `D_DRAIN` at the last byte of the longest Block, or in a terminal state. -/
def drainDec (i : BitVec 8) : Dec := { readyDec 0 with st := .drain, pfx := 255, olen := 249, oi := i }

theorem witness_DecDrainAndTerminalSteps :
    0 < (drainDec 247).rxo.demand ∧ (drainDec 247).oi.toNat + 1 < (drainDec 247).olen.toNat ∧
    (drainDec 248).oi.toNat + 1 = (drainDec 248).olen.toNat ∧ (drainDec 248).olen.toNat ≤ 249 ∧
    ({ readyDec 0 with st := .done } : Dec).st = .done ∧
    (raiseFault .uncorrectable (readyDec 0)).st = .fault ∧
    (readyDec 0).rxo.trace.getLast? ≠ some .endMark := by decide +kernel

/-- Both kinds of outcome of `BS.DEC`, with the demand that is just enough. -/
theorem witness_DecComputesBsDec :
    (bsDec .lsbFirst []).outcome = .fault .truncatedPrefix ∧ (streamEvents (bsDec .lsbFirst [])).length ≤ 1 ∧
    (bsDec .lsbFirst ([false, true, true] ++ List.replicate 53 false)).outcome = .done ∧
    (streamEvents (bsDec .lsbFirst ([false, true, true] ++ List.replicate 53 false))).length ≤ 1 := by
  decide +kernel

theorem witness_EnginesAreIndependent :
    encSide .encTurn = true ∧ encSide (.offerTxi 1) = true ∧ decSide .decTurn = true ∧
    runMove (.offerTxi 1) State.reset = .next (hostOfferTxi 1 State.reset) :=
  ⟨rfl, rfl, rfl, rfl⟩

theorem witness_HostMovesKeepEnabledSteps :
    encStep (fillEnc 249 [] false) = .moves (fillClose (fillEnc 249 [] false)) ∧
    decStep (decodeDec 5 []) = .moves (decodeFrame (decodeDec 5 [])) := by decide +kernel

/-- The invariants of a fresh session. -/
theorem test_inv_ready : Machine.Inv (ready 0) := by unfold Machine.Inv EncInv DecInv; decide +kernel

theorem witness_StepsKeepTheEngineInvariants :
    Machine.Inv { ready 0 with agenda := [.instr .frame [0x00]] } ∧
    step { ready 0 with agenda := [.instr .frame [0x00]] } = receiveFrame 0x00 [] (ready 0) :=
  ⟨test_inv_ready, rfl⟩

theorem witness_NoBufferIndexFault : Machine.Inv (ready 0) := test_inv_ready

/-- A faulted session with demand, and nothing on the agenda. -/
def faulted : State := { dec := raiseFault .frameTooShort (readyDec 2) }

theorem witness_TerminalStatesPersist :
    faulted.dec.st = .fault ∧ faulted.agenda = [] ∧
    step faulted = .next { faulted with dec := decPresent (.fault 4) faulted.dec } ∧
    restartsDec (.instr .op [0x3B, 3]) = false :=
  ⟨rfl, rfl, rfl, by decide +kernel⟩

theorem witness_MaxerrNeverDecreases :
    restartsDec (.csrWrite 6 1) = false ∧ restartsDec .decTurn = false ∧
    step { faulted with agenda := [.csrWrite 6 1] } = .next (writeCsr 6 1 faulted) :=
  ⟨by decide +kernel, rfl, rfl⟩

end Sys2Proof.Tests
end

section
/-! PROOFS. The BP family (spec/40_bitpacker.md): the two bit orders are treated as one, through the number of the
bit that stands at a stream position. -/

namespace Sys2Proof.Machine

/-! ### The dispatch of the four rows -/

theorem exec_bpTobits (b : Byte) (s : State) : exec (.bpTobits b) s = execBpTobits b s := rfl

theorem exec_bpTobyte (t : BitTuple) (s : State) : exec (.bpTobyte t) s = execBpTobyte t s := rfl

theorem exec_bpExpand (y : List Byte) (s : State) : exec (.bpExpand y) s = execBpExpand y s := rfl

theorem exec_bpGroup (x : List Bit) (s : State) : exec (.bpGroup x) s = execBpGroup x s := rfl

/-! ### The bit at a stream position -/

/-- The number of the byte's bit that stands at position `k` of the stream (40 R110). -/
def bitIndex (o : BitOrder) (k : Nat) : Nat :=
  match o with
  | .lsbFirst => k
  | .msbFirst => 7 - k

@[simp] theorem bitIndex_lsbFirst (k : Nat) : bitIndex .lsbFirst k = k := rfl

@[simp] theorem bitIndex_msbFirst (k : Nat) : bitIndex .msbFirst k = 7 - k := rfl

theorem bitIndex_lt (o : BitOrder) {k : Nat} (hk : k < 8) : bitIndex o k < 8 := by
  cases o <;> simp only [bitIndex] <;> omega

theorem bitIndex_bitIndex (o : BitOrder) {k : Nat} (hk : k < 8) : bitIndex o (bitIndex o k) = k := by
  cases o <;> simp only [bitIndex]; omega

/-! ### One byte -/

theorem tobits_toList (o : BitOrder) (b : Byte) :
    (tobits o b).toList = (List.range 8).map fun k => b.getLsbD (bitIndex o k) := by
  cases o <;> rfl

theorem tobits_getElem (o : BitOrder) (b : Byte) {k : Nat} (hk : k < 8) :
    (tobits o b)[k] = b.getLsbD (bitIndex o k) := by
  rw [← Vector.getElem_toList (by simpa using hk)]
  simp [tobits_toList]

/-- The weighted sum of 40 R111 is the number whose binary digits are the bits. -/
theorem tobyte_eq_ofNat_ofBits (o : BitOrder) (t : BitTuple) :
    tobyte o t = BitVec.ofNat 8 (Nat.ofBits fun k : Fin 8 => t[bitIndex o k]'(bitIndex_lt o k.isLt)) := by
  cases o <;> simp only [tobyte] <;> congr 1 <;> simp [Nat.ofBits_succ] <;> omega

theorem tobyte_toNat_eq_ofBits (o : BitOrder) (t : BitTuple) :
    (tobyte o t).toNat = Nat.ofBits fun k : Fin 8 => t[bitIndex o k]'(bitIndex_lt o k.isLt) := by
  rw [tobyte_eq_ofNat_ofBits, BitVec.toNat_ofNat, Nat.mod_eq_of_lt (Nat.ofBits_lt_two_pow _)]

/-- The weight of a stream position is that of the bit it stands for (40 R111). -/
theorem tobyte_toNat (o : BitOrder) (t : BitTuple) :
    (tobyte o t).toNat =
      ((List.range 8).map fun k => (t.toList.getD k false).toNat * 2 ^ bitIndex o k).sum := by
  rw [tobyte_toNat_eq_ofBits]
  cases o <;> simp [Nat.ofBits_succ, List.range_succ] <;> omega

theorem tobyte_getLsbD (o : BitOrder) (t : BitTuple) {k : Nat} (hk : k < 8) :
    (tobyte o t).getLsbD k = t[bitIndex o k]'(bitIndex_lt o hk) := by
  rw [BitVec.getLsbD, tobyte_toNat_eq_ofBits, Nat.testBit_ofBits_lt _ k hk]

@[simp] theorem tobyte_tobits (o : BitOrder) (b : Byte) : tobyte o (tobits o b) = b := by
  refine BitVec.eq_of_getLsbD_eq fun k hk => ?_
  rw [tobyte_getLsbD o _ hk, tobits_getElem, bitIndex_bitIndex o hk]

@[simp] theorem tobits_tobyte (o : BitOrder) (t : BitTuple) : tobits o (tobyte o t) = t := by
  refine Vector.ext fun k hk => ?_
  simp only [tobits_getElem, tobyte_getLsbD o t (bitIndex_lt o hk), bitIndex_bitIndex o hk]

/-! ### Bit sequences -/

/-- Position `8 (i + 1) + k` of a sequence is position `8 i + k` behind its first group. -/
theorem getD_group_append (t : BitTuple) (rest : List Bit) (i k : Nat) :
    (t.toList ++ rest).getD (8 * (i + 1) + k) false = rest.getD (8 * i + k) false := by
  rw [List.getD_append_right _ _ _ _ (by simp; omega)]
  congr 1
  simp; omega

theorem getD_group_append_head (t : BitTuple) (rest : List Bit) {k : Nat} (hk : k < 8) :
    (t.toList ++ rest).getD k false = t[k] := by
  rw [List.getD_append _ _ _ _ (by simpa using hk)]
  simp [hk]

/-- A bit sequence is shorter than a group, or it is a group and a bit sequence behind it: the recursion of
`BP.GROUP` (40 R115). -/
theorem bits_induction {motive : List Bit → Prop} (short : ∀ x, x.length < 8 → motive x)
    (group : ∀ (t : BitTuple) (rest : List Bit), motive rest → motive (t.toList ++ rest)) (x : List Bit) :
    motive x := by
  by_cases hx : x.length < 8
  · exact short x hx
  · have split : (⟨(x.take 8).toArray, by simp; omega⟩ : BitTuple).toList ++ x.drop 8 = x := by simp
    rw [← split]
    exact group _ _ (bits_induction short group (x.drop 8))
  termination_by x.length
  decreasing_by simp; omega

@[simp] theorem bpExpand_nil (o : BitOrder) : bpExpand o [] = [] := rfl

@[simp] theorem bpExpand_cons (o : BitOrder) (b : Byte) (y : List Byte) :
    bpExpand o (b :: y) = (tobits o b).toList ++ bpExpand o y := rfl

theorem bpGroup_short (o : BitOrder) {x : List Bit} (hx : x.length < 8) : bpGroup o x = [] := by
  rw [bpGroup]
  rintro b0 b1 b2 b3 b4 b5 b6 b7 rest rfl
  simp at hx; omega

@[simp] theorem bpGroup_append (o : BitOrder) (t : BitTuple) (rest : List Bit) :
    bpGroup o (t.toList ++ rest) = tobyte o t :: bpGroup o rest := by
  match t with
  | ⟨⟨[_, _, _, _, _, _, _, _]⟩, rfl⟩ => rfl

@[simp] theorem bpExpand_length (o : BitOrder) (y : List Byte) : (bpExpand o y).length = 8 * y.length := by
  induction y with
  | nil => rfl
  | cons b y ih => simp [ih]; omega

theorem bpExpand_getD (o : BitOrder) (y : List Byte) {i k : Nat} (hk : k < 8) (hi : i < y.length) :
    (bpExpand o y).getD (8 * i + k) false = (y.getD i 0).getLsbD (bitIndex o k) := by
  induction y generalizing i with
  | nil => simp at hi
  | cons b y ih =>
    rw [bpExpand_cons]
    cases i with
    | zero => rw [Nat.mul_zero, Nat.zero_add, getD_group_append_head _ _ hk, tobits_getElem, List.getD_cons_zero]
    | succ i => rw [getD_group_append, ih (by simpa using hi), List.getD_cons_succ]

theorem bpGroup_length (o : BitOrder) (x : List Bit) : (bpGroup o x).length = x.length / 8 := by
  induction x using bits_induction with
  | short x hx => simp [bpGroup_short o hx, Nat.div_eq_of_lt hx]
  | group t rest ih => simp [ih]

theorem bpGroup_getLsbD (o : BitOrder) (x : List Bit) {i k : Nat} (hk : k < 8) (hi : i < x.length / 8) :
    ((bpGroup o x).getD i 0).getLsbD k = x.getD (8 * i + bitIndex o k) false := by
  induction x using bits_induction generalizing i with
  | short x hx => omega
  | group t rest ih =>
    rw [bpGroup_append]
    cases i with
    | zero =>
      rw [Nat.mul_zero, Nat.zero_add, getD_group_append_head _ _ (bitIndex_lt o hk), List.getD_cons_zero,
        tobyte_getLsbD o t hk]
    | succ i =>
      rw [getD_group_append, List.getD_cons_succ]
      exact ih (by simp at hi; omega)

/-- Grouping undoes expanding, and a trailing partial group is dropped (40 R115). -/
theorem bpGroup_bpExpand_append (o : BitOrder) (y : List Byte) {z : List Bit} (hz : z.length < 8) :
    bpGroup o (bpExpand o y ++ z) = y := by
  induction y with
  | nil => exact bpGroup_short o hz
  | cons b y ih => rw [bpExpand_cons, List.append_assoc, bpGroup_append, tobyte_tobits, ih]

/-! ### The statements -/

/-- Settles O8: the length and the bits of `bpExpand`, by induction over the bytes. -/
theorem expandGivesBytesBitByBit : Obligations.ExpandGivesBytesBitByBit := fun y s =>
  ⟨bpExpand .lsbFirst y, exec_bpExpand y s, bpExpand_length _ y, fun _ _ => bpExpand_getD .lsbFirst y⟩

/-- Settles O9: the length and the bits of `bpGroup`, by induction over the groups of the sequence. -/
theorem groupGivesWholeBytes : Obligations.GroupGivesWholeBytes :=
  ⟨fun x s =>
    ⟨bpGroup .lsbFirst x, exec_bpGroup x s, bpGroup_length _ x, fun _ _ => bpGroup_getLsbD .lsbFirst x⟩,
   fun o y _ => bpGroup_bpExpand_append o y⟩

/-- Settles O5: both bit orders are the list of the bits at the stream positions. -/
theorem tobitsGivesStreamOrder : Obligations.TobitsGivesStreamOrder :=
  ⟨fun b s => by rw [exec_bpTobits, execBpTobits, tobits_toList]; rfl,
   tobits_toList .lsbFirst, tobits_toList .msbFirst⟩

/-- Settles O6: both bit orders are one weighted sum over the stream positions. -/
theorem tobyteGivesWeightedSum : Obligations.TobyteGivesWeightedSum :=
  ⟨fun t s => ⟨tobyte .lsbFirst t, exec_bpTobyte t s, rfl⟩, tobyte_toNat .lsbFirst, tobyte_toNat .msbFirst⟩

/-- Settles O7: the bit at each stream position is read back, in both directions. -/
theorem bitTuplesBijective : Obligations.BitTuplesBijective := fun o =>
  ⟨tobyte_tobits o, tobits_tobyte o⟩

end Sys2Proof.Machine
end

section
/-! PROOFS. The GF family (spec/41_gf256.md): GF.MUL is additive in each operand, so that its laws are checked at the
eight powers of two; the powers of `ALPHA` are the orbit of 0x01 under GF.XTIME. -/

namespace Sys2Proof.Machine

/-! ### The dispatch of the four rows -/

theorem exec_gfAdd (a b : Byte) (s : State) : exec (.gfAdd a b) s = execGfAdd a b s := rfl

theorem exec_gfXtime (a : Byte) (s : State) : exec (.gfXtime a) s = execGfXtime a s := rfl

theorem exec_gfExp (e : Int) (s : State) : exec (.gfExp e) s = execGfExp e s := rfl

theorem exec_gfPeval (w : List Byte) (v : Byte) (s : State) : exec (.gfPeval w v) s = execGfPeval w v s := rfl

/-! ### GF.ADD and GF.XTIME -/

theorem gfAdd_getLsbD_toNat (a b : Byte) (k : Nat) :
    ((gfAdd a b).getLsbD k).toNat = ((a.getLsbD k).toNat + (b.getLsbD k).toNat) % 2 := by
  rw [gfAdd, BitVec.getLsbD_xor]
  cases a.getLsbD k <;> cases b.getLsbD k <;> rfl

/-- The bit `c` times the byte `t`: what one turn of 41 R133 adds, and the reduction of 41 R132. -/
def bitTimes (c : Bit) (t : Byte) : Byte := if c then t else 0x00

theorem bitTimes_xor_left (c c' : Bit) (t : Byte) : bitTimes (c ^^ c') t = bitTimes c t ^^^ bitTimes c' t := by
  cases c <;> cases c' <;> simp [bitTimes]

theorem bitTimes_xor_right (c : Bit) (t t' : Byte) : bitTimes c (t ^^^ t') = bitTimes c t ^^^ bitTimes c t' := by
  cases c <;> simp [bitTimes]

theorem gfXtime_eq_xor (a : Byte) : gfXtime a = a <<< 1 ^^^ bitTimes (a.getLsbD 7) 0x1D := by
  unfold gfXtime bitTimes
  split <;> simp

theorem getLsbD_seven_eq_decide (a : Byte) : a.getLsbD 7 = decide (128 ≤ a.toNat) := BitVec.msb_eq_decide a

theorem shiftLeft_one_eq_ofNat (a : Byte) : a <<< 1 = BitVec.ofNat 8 (2 * a.toNat) :=
  BitVec.eq_of_toNat_eq (by simp [Nat.shiftLeft_eq, Nat.mul_comm])

theorem gfXtime_eq_double (a : Byte) :
    gfXtime a = if a.toNat < 128 then BitVec.ofNat 8 (2 * a.toNat) else BitVec.ofNat 8 (2 * a.toNat) ^^^ 0x1D := by
  rw [gfXtime_eq_xor, shiftLeft_one_eq_ofNat, getLsbD_seven_eq_decide]
  by_cases low : a.toNat < 128 <;> simp [bitTimes, low]

theorem xor_xor_xor_comm (a b c d : Byte) : a ^^^ b ^^^ (c ^^^ d) = a ^^^ c ^^^ (b ^^^ d) := by ac_rfl

theorem gfXtime_xor (a b : Byte) : gfXtime (a ^^^ b) = gfXtime a ^^^ gfXtime b := by
  simp only [gfXtime_eq_xor, BitVec.shiftLeft_xor_distrib, BitVec.getLsbD_xor, bitTimes_xor_left]
  exact xor_xor_xor_comm ..

/-! ### GF.MUL is additive in each operand -/

/-- Every byte is a sum of the eight powers of two. -/
theorem byte_xor_induction {motive : Byte → Prop} (basis : ∀ k : Fin 8, motive (BitVec.twoPow 8 k))
    (xor : ∀ x y, motive x → motive y → motive (x ^^^ y)) (b : Byte) : motive b := by
  have sum_of_bits : ∀ b : Byte,
      ((List.finRange 8).filter fun k : Fin 8 => b.getLsbD k).foldl (fun acc (k : Fin 8) => acc ^^^ BitVec.twoPow 8 k)
        0x00 = b := by decide +kernel
  have zero : motive 0x00 := xor _ _ (basis 0) (basis 0)
  rw [← sum_of_bits b]
  exact List.foldlRecOn _ _ zero fun acc h k _ => xor _ _ h (basis k)

theorem gfMulTurn_eq (b r t : Byte) (k : Nat) :
    gfMulTurn b (r, t) k = (r ^^^ bitTimes (b.getLsbD k) t, gfXtime t) := by
  unfold gfMulTurn bitTimes
  split <;> simp

/-- The loop of 41 R133 on a sum of two pairs. -/
theorem foldl_gfMulTurn_xor_left (b : Byte) (ks : List Nat) (r r' t t' : Byte) :
    (ks.foldl (gfMulTurn b) (r ^^^ r', t ^^^ t')).1 =
      (ks.foldl (gfMulTurn b) (r, t)).1 ^^^ (ks.foldl (gfMulTurn b) (r', t')).1 := by
  induction ks generalizing r r' t t' with
  | nil => rfl
  | cons k ks ih =>
    simp only [List.foldl_cons, gfMulTurn_eq, ← ih, gfXtime_xor, bitTimes_xor_right]
    rw [xor_xor_xor_comm]

/-- The loop of 41 R133 for a sum of two multipliers. -/
theorem foldl_gfMulTurn_xor_right (b b' : Byte) (ks : List Nat) (r r' t : Byte) :
    (ks.foldl (gfMulTurn (b ^^^ b')) (r ^^^ r', t)).1 =
      (ks.foldl (gfMulTurn b) (r, t)).1 ^^^ (ks.foldl (gfMulTurn b') (r', t)).1 := by
  induction ks generalizing r r' t with
  | nil => rfl
  | cons k ks ih =>
    simp only [List.foldl_cons, gfMulTurn_eq, ← ih, BitVec.getLsbD_xor, bitTimes_xor_left]
    rw [xor_xor_xor_comm]

theorem gfMul_xor_left (a a' b : Byte) : gfMul (a ^^^ a') b = gfMul a b ^^^ gfMul a' b :=
  foldl_gfMulTurn_xor_left b _ 0x00 0x00 a a'

theorem gfMul_xor_right (a b b' : Byte) : gfMul a (b ^^^ b') = gfMul a b ^^^ gfMul a b' :=
  foldl_gfMulTurn_xor_right b b' _ 0x00 0x00 a

theorem gfMul_zero_left (b : Byte) : gfMul 0x00 b = 0x00 := by
  simpa using gfMul_xor_left 0x00 0x00 b

theorem gfMul_zero_right (a : Byte) : gfMul a 0x00 = 0x00 := by
  simpa using gfMul_xor_right a 0x00 0x00

/-! ### The laws of GF.MUL -/

theorem gfMul_comm (a b : Byte) : gfMul a b = gfMul b a := by
  have basis : ∀ i j : Fin 8,
      gfMul (BitVec.twoPow 8 i) (BitVec.twoPow 8 j) = gfMul (BitVec.twoPow 8 j) (BitVec.twoPow 8 i) := by decide +kernel
  induction a using byte_xor_induction with
  | xor x y hx hy => rw [gfMul_xor_left, gfMul_xor_right, hx, hy]
  | basis i =>
    induction b using byte_xor_induction with
    | xor x y hx hy => rw [gfMul_xor_left, gfMul_xor_right, hx, hy]
    | basis j => exact basis i j

theorem gfMul_assoc (a b c : Byte) : gfMul (gfMul a b) c = gfMul a (gfMul b c) := by
  have basis : ∀ i j k : Fin 8, gfMul (gfMul (BitVec.twoPow 8 i) (BitVec.twoPow 8 j)) (BitVec.twoPow 8 k) =
      gfMul (BitVec.twoPow 8 i) (gfMul (BitVec.twoPow 8 j) (BitVec.twoPow 8 k)) := by decide +kernel
  induction a using byte_xor_induction with
  | xor x y hx hy => simp only [gfMul_xor_left, hx, hy]
  | basis i =>
    induction b using byte_xor_induction with
    | xor x y hx hy => simp only [gfMul_xor_left, gfMul_xor_right, hx, hy]
    | basis j =>
      induction c using byte_xor_induction with
      | xor x y hx hy => simp only [gfMul_xor_right, hx, hy]
      | basis k => exact basis i j k

theorem gfMul_one_right (a : Byte) : gfMul a 0x01 = a := by
  simp [gfMul, gfMulTurn]

theorem gfMul_one_left (b : Byte) : gfMul 0x01 b = b := by
  rw [gfMul_comm, gfMul_one_right]

/-! ### The powers of `ALPHA` -/

theorem gfPow_succ (n : Nat) : gfPow (n + 1) = gfXtime (gfPow n) := by rw [gfPow, timesAlpha_eq]

theorem gfPow_eq_iterate (n : Nat) : gfPow n = gfXtime^[n] 0x01 := by
  induction n with
  | zero => rfl
  | succ n ih => rw [gfPow_succ, ih, Function.iterate_succ_apply']

theorem gfXtime_isPeriodicPt : Function.IsPeriodicPt gfXtime 255 0x01 := by
  unfold Function.IsPeriodicPt Function.IsFixedPt
  decide +kernel

/-- `ALPHA` is primitive (41 R134): of the divisors of 255, only 255 is a period. -/
theorem gfXtime_minimalPeriod : Function.minimalPeriod gfXtime 0x01 = 255 := by
  have only_period : ∀ d ∈ Nat.divisors 255, gfXtime^[d] 0x01 = 0x01 → d = 255 := by decide +kernel
  exact only_period _ (Nat.mem_divisors.2 ⟨gfXtime_isPeriodicPt.minimalPeriod_dvd, by decide⟩)
    (Function.isPeriodicPt_minimalPeriod gfXtime 0x01)

theorem gfPow_mod (n : Nat) : gfPow (n % 255) = gfPow n := by
  simp only [gfPow_eq_iterate, gfXtime_isPeriodicPt.iterate_mod_apply]

theorem gfPow_injOn : Set.InjOn gfPow (Set.Iio 255) := by
  rw [funext gfPow_eq_iterate, ← gfXtime_minimalPeriod]
  exact Function.iterate_injOn_Iio_minimalPeriod

theorem gfXtime_eq_zero_iff (a : Byte) : gfXtime a = 0x00 ↔ a = 0x00 := by
  revert a; decide +kernel

theorem gfPow_ne_zero (n : Nat) : gfPow n ≠ 0x00 := by
  induction n with
  | zero => decide
  | succ n ih => rwa [gfPow_succ, Ne, gfXtime_eq_zero_iff]

/-- 255 different nonzero bytes are all the nonzero bytes. -/
theorem exists_gfPow_eq {a : Byte} (ha : a ≠ 0x00) : ∃ n < 255, gfPow n = a := by
  have powers_eq : (Finset.range 255).image gfPow = Finset.univ.erase (0x00 : Byte) := by
    refine Finset.eq_of_subset_of_card_le (fun b hb => ?_) ?_
    · obtain ⟨n, -, rfl⟩ := Finset.mem_image.1 hb
      simpa using gfPow_ne_zero n
    · rw [Finset.card_image_of_injOn (by simpa using gfPow_injOn)]
      decide +kernel
  have ha' : a ∈ (Finset.range 255).image gfPow := by simpa [powers_eq] using ha
  simpa using ha'

@[simp] theorem gfExp_natCast (n : Nat) : gfExp n = gfPow n := by
  rw [← gfPow_mod n, gfExp]; rfl

theorem gfExp_emod (e : Int) : gfExp (e % 255) = gfExp e := by
  simp only [gfExp, Int.emod_emod]

theorem gfExp_ne_zero (e : Int) : gfExp e ≠ 0x00 := gfPow_ne_zero _

theorem gfExp_add_one (e : Int) : gfExp (e + 1) = gfXtime (gfExp e) := by
  obtain ⟨n, hn⟩ := Int.eq_ofNat_of_zero_le (Int.emod_nonneg e (by decide : (255 : Int) ≠ 0))
  calc gfExp (e + 1) = gfExp ((n + 1 : Nat) : Int) := by
        rw [← gfExp_emod, ← Int.emod_add_emod, hn, gfExp_emod, Int.natCast_add_one]
    _ = gfXtime (gfExp n) := by rw [gfExp_natCast, gfExp_natCast, gfPow_succ]
    _ = gfXtime (gfExp e) := by rw [← hn, gfExp_emod]

/-- The exponent in 0..254 of a nonzero byte exists and is unique (41 R134, R135). -/
theorem existsUnique_gfExp_eq {a : Byte} (ha : a ≠ 0x00) :
    ∃ e : Nat, e < 255 ∧ gfExp e = a ∧ ∀ e' : Nat, e' < 255 → gfExp e' = a → e' = e := by
  obtain ⟨e, he, rfl⟩ := exists_gfPow_eq ha
  refine ⟨e, he, gfExp_natCast e, fun e' he' h => gfPow_injOn he' he ?_⟩
  rwa [gfExp_natCast] at h

/-! ### Horner's rule -/

/-- The product of `k` factors `v`. -/
def gfPower (v : Byte) (k : Nat) : Byte := (List.replicate k v).foldl gfMul 0x01

@[simp] theorem gfPower_zero (v : Byte) : gfPower v 0 = 0x01 := rfl

theorem gfPower_succ (v : Byte) (k : Nat) : gfPower v (k + 1) = gfMul (gfPower v k) v := by
  simp [gfPower, List.replicate_succ']

/-- The terms `w[i] (*) v^(n-1-i)` of the polynomial, highest power first (41 R138). -/
def pevalTerms (w : List Byte) (v : Byte) : List Byte :=
  (List.range w.length).map fun i => gfMul (w.getD i 0) (gfPower v (w.length - 1 - i))

/-- A coefficient more, at the low end, raises the power of all the others by one. -/
theorem pevalTerms_append_singleton (w : List Byte) (c v : Byte) :
    pevalTerms (w ++ [c]) v = (pevalTerms w v).map (gfMul · v) ++ [c] := by
  have term : ∀ i ∈ List.range w.length, gfMul ((w ++ [c]).getD i 0) (gfPower v (w.length - i)) =
      gfMul (gfMul (w.getD i 0) (gfPower v (w.length - 1 - i))) v := by
    intro i hi
    have hi : i < w.length := List.mem_range.1 hi
    rw [List.getD_append _ _ _ _ hi, gfMul_assoc, ← gfPower_succ]
    congr 2; omega
  rw [pevalTerms, List.length_append, List.length_singleton, Nat.add_sub_cancel, List.range_succ, List.map_append,
    List.map_congr_left term]
  simpa [pevalTerms] using gfMul_one_right c

theorem gfMul_foldl_xor (l : List Byte) (v : Byte) :
    gfMul (l.foldl (· ^^^ ·) 0x00) v = (l.map (gfMul · v)).foldl (· ^^^ ·) 0x00 := by
  have hom := List.foldl_hom (l := l) (init := 0x00) (gfMul · v) (g₁ := (· ^^^ ·))
    (g₂ := fun x y => x ^^^ gfMul y v) fun x y => (gfMul_xor_left x y v).symm
  rw [← hom, List.foldl_map, gfMul_zero_left]

@[simp] theorem gfPeval_append_singleton (w : List Byte) (c v : Byte) :
    gfPeval (w ++ [c]) v = gfMul (gfPeval w v) v ^^^ c := by
  simp [gfPeval]

theorem gfPeval_eq_sum (w : List Byte) (v : Byte) :
    gfPeval w v = (pevalTerms w v).foldl (· ^^^ ·) 0x00 := by
  induction w using List.reverseRecOn with
  | nil => rfl
  | append_singleton w c ih =>
    rw [gfPeval_append_singleton, ih, gfMul_foldl_xor, pevalTerms_append_singleton, List.foldl_concat]

/-! ### The statements -/

/-- Settles O13: 255 is the least period of the powers, so they are 255 different nonzero bytes. -/
theorem gfExpPowersOfAlpha : Obligations.GfExpPowersOfAlpha :=
  ⟨fun e s => ⟨gfExp e, exec_gfExp e s, rfl, gfExp_ne_zero e⟩, rfl, gfExp_add_one,
   fun e => (gfExp_emod e).symm, fun _ => existsUnique_gfExp_eq⟩

/-- Settles O16: Horner's rule adds one term after the other, by induction from the low end of the word. -/
theorem gfPevalIsThePolynomialValue : Obligations.GfPevalIsThePolynomialValue := fun w v s => by
  rw [exec_gfPeval, execGfPeval, gfPeval_eq_sum]; rfl

/-- Settles O10: the bits of a sum, and the shift with its reduction as numbers. -/
theorem gfAddAndXtimeResults : Obligations.GfAddAndXtimeResults :=
  ⟨fun a b s => ⟨gfAdd a b, exec_gfAdd a b s, fun k _ => gfAdd_getLsbD_toNat a b k⟩,
   fun a s => ⟨gfXtime a, exec_gfXtime a s, gfXtime_eq_double a⟩⟩

end Sys2Proof.Machine
end

section
/-! PROOFS. The Reed-Solomon encoder (spec/42_rs_encode.md): each turn of RS.PARITY adds a multiple of the generator,
so the encoding has the generator's roots; a word of six bytes with these six roots is zero, so the parity is the
only one. -/

namespace Sys2Proof.Machine

/-! ### The dispatch of the two rows -/

theorem exec_rsParity (m : Block) (s : State) : exec (.rsParity m) s = execRsParity m s := rfl

theorem exec_rsEnc (m : Block) (s : State) : exec (.rsEnc m) s = execRsEnc m s := rfl

/-! ### GF.MUL has no zero divisors -/

@[simp] theorem zero_gfMul (b : Byte) : gfMul 0#8 b = 0#8 := gfMul_zero_left b

@[simp] theorem gfMul_zero (a : Byte) : gfMul a 0#8 = 0#8 := gfMul_zero_right a

@[simp] theorem gfMul_one (a : Byte) : gfMul a 1#8 = a := gfMul_one_right a

theorem gfXtime_eq_gfMul (a : Byte) : gfXtime a = gfMul 0x02 a := by revert a; decide +kernel

theorem gfPow_add (i j : Nat) : gfPow (i + j) = gfMul (gfPow i) (gfPow j) := by
  induction i with
  | zero => rw [Nat.zero_add]; exact (gfMul_one_left _).symm
  | succ i ih =>
    rw [Nat.add_right_comm, gfPow_succ, gfPow_succ, ih, gfXtime_eq_gfMul, gfXtime_eq_gfMul, gfMul_assoc]

/-- Two nonzero bytes are powers of `ALPHA`, and so is their product (41 R133, R139). -/
theorem gfMul_eq_zero_iff (a b : Byte) : gfMul a b = 0#8 ↔ a = 0#8 ∨ b = 0#8 := by
  constructor
  · contrapose!
    rintro ⟨ha, hb⟩
    obtain ⟨i, -, rfl⟩ := exists_gfPow_eq ha
    obtain ⟨j, -, rfl⟩ := exists_gfPow_eq hb
    rw [← gfPow_add]
    exact gfPow_ne_zero _
  · rintro (rfl | rfl)
    · exact zero_gfMul b
    · exact gfMul_zero a

/-! ### Values of words, from the high end -/

@[simp] theorem gfPeval_nil (v : Byte) : gfPeval [] v = 0#8 := rfl

@[simp] theorem gfPeval_singleton (a v : Byte) : gfPeval [a] v = a := by
  simp [gfPeval]

/-- One turn of Horner's rule (41 R138). -/
theorem gfPeval_cons_cons (a b : Byte) (w : List Byte) (v : Byte) :
    gfPeval (a :: b :: w) v = gfPeval ((gfMul a v ^^^ b) :: w) v := by
  simp [gfPeval]

theorem gfPeval_zero_cons (w : List Byte) (v : Byte) : gfPeval (0#8 :: w) v = gfPeval w v := by
  simp [gfPeval]

theorem gfPeval_append (u w : List Byte) (v : Byte) :
    gfPeval (u ++ w) v = gfMul (gfPeval u v) (gfPower v w.length) ^^^ gfPeval w v := by
  induction w using List.reverseRecOn with
  | nil => simp
  | append_singleton w c ih =>
    rw [← List.append_assoc, gfPeval_append_singleton, ih, gfMul_xor_left, gfMul_assoc, ← gfPower_succ,
      gfPeval_append_singleton, List.length_append, List.length_singleton, BitVec.xor_assoc]

theorem gfPeval_map_gfMul (f : Byte) (w : List Byte) (v : Byte) :
    gfPeval (w.map (gfMul f)) v = gfMul f (gfPeval w v) := by
  induction w using List.reverseRecOn with
  | nil => exact (gfMul_zero f).symm
  | append_singleton w c ih =>
    rw [List.map_append, List.map_singleton, gfPeval_append_singleton, gfPeval_append_singleton, ih, gfMul_xor_right,
      gfMul_assoc]

theorem gfPeval_zipWith_xor {u w : List Byte} (hlen : u.length = w.length) (v : Byte) :
    gfPeval (List.zipWith (· ^^^ ·) u w) v = gfPeval u v ^^^ gfPeval w v := by
  induction u using List.reverseRecOn generalizing w with
  | nil => simp [List.eq_nil_of_length_eq_zero hlen.symm]
  | append_singleton u a ih =>
    obtain ⟨w, b, rfl⟩ : ∃ w' b, w = w' ++ [b] :=
      (List.eq_nil_or_concat' w).resolve_left (by rintro rfl; simp at hlen)
    have hlen : u.length = w.length := by simpa using hlen
    rw [List.zipWith_append hlen, List.zipWith_cons_cons, List.zipWith_nil_left, gfPeval_append_singleton,
      gfPeval_append_singleton, gfPeval_append_singleton, ih hlen, gfMul_xor_left]
    exact xor_xor_xor_comm ..

/-! ### A word of `n` bytes with `n` roots is zero -/

/-- The quotient of the word `a :: w` by `x (+) r`: the values Horner's rule goes through at `r`, but the last. -/
def rootQuotient (r : Byte) : Byte → List Byte → List Byte
  | _, [] => []
  | a, b :: w => a :: rootQuotient r (gfMul a r ^^^ b) w

@[simp] theorem rootQuotient_length (r a : Byte) (w : List Byte) : (rootQuotient r a w).length = w.length := by
  induction w generalizing a with
  | nil => rfl
  | cons b w ih => simp [rootQuotient, ih]

theorem xor_xor_cancel (a b c : Byte) : a ^^^ b ^^^ (b ^^^ c) = a ^^^ c := by
  rw [BitVec.xor_assoc, ← BitVec.xor_assoc b, BitVec.xor_self, BitVec.zero_xor]

/-- Division by `x (+) r`, begun with `u` as the quotient so far and `a` as the remainder so far. -/
theorem gfPeval_rootQuotient_from (r x u a : Byte) (w : List Byte) :
    gfPeval ((gfMul u (x ^^^ r) ^^^ a) :: w) x =
      gfMul (gfPeval (u :: rootQuotient r a w) x) (x ^^^ r) ^^^ gfPeval (a :: w) r := by
  induction w generalizing u a with
  | nil => simp [rootQuotient]
  | cons b w ih =>
    have turn : gfMul (gfMul u (x ^^^ r) ^^^ a) x ^^^ b =
        gfMul (gfMul u x ^^^ a) (x ^^^ r) ^^^ (gfMul a r ^^^ b) := by
      rw [gfMul_xor_left, gfMul_xor_left, gfMul_assoc, gfMul_assoc, gfMul_comm (x ^^^ r) x, gfMul_xor_right a x r]
      rw [← BitVec.xor_assoc (gfMul u _), xor_xor_cancel]
    rw [gfPeval_cons_cons, turn, ih, rootQuotient, gfPeval_cons_cons, gfPeval_cons_cons]

theorem gfPeval_cons_eq_rootQuotient (r x a : Byte) (w : List Byte) :
    gfPeval (a :: w) x = gfMul (gfPeval (rootQuotient r a w) x) (x ^^^ r) ^^^ gfPeval (a :: w) r := by
  simpa [gfPeval_zero_cons] using gfPeval_rootQuotient_from r x 0#8 a w

theorem eq_zero_of_rootQuotient_eq_zero {r a : Byte} {w : List Byte} (hquot : ∀ y ∈ rootQuotient r a w, y = 0#8)
    (hroot : gfPeval (a :: w) r = 0#8) : ∀ y ∈ a :: w, y = 0#8 := by
  induction w generalizing a with
  | nil => simpa using hroot
  | cons b w ih =>
    obtain ⟨rfl, hquot⟩ := List.forall_mem_cons.1 hquot
    rw [gfPeval_zero_cons] at hroot
    rw [zero_gfMul, BitVec.zero_xor] at hquot
    exact List.forall_mem_cons.2 ⟨rfl, ih hquot hroot⟩

/-- A polynomial with as many different roots as coefficients is zero: each root takes a factor off. -/
theorem eq_zero_of_roots {roots w : List Byte} (hlen : w.length ≤ roots.length) (hnodup : roots.Nodup)
    (hroots : ∀ x ∈ roots, gfPeval w x = 0#8) : ∀ y ∈ w, y = 0#8 := by
  induction roots generalizing w with
  | nil => simp [List.eq_nil_of_length_eq_zero (Nat.le_zero.1 hlen)]
  | cons r roots ih =>
    cases w with
    | nil => simp
    | cons a w =>
      obtain ⟨hr, hnodup⟩ := List.nodup_cons.1 hnodup
      obtain ⟨hroot, hroots⟩ := List.forall_mem_cons.1 hroots
      refine eq_zero_of_rootQuotient_eq_zero (ih (by simpa using hlen) hnodup fun x hx => ?_) hroot
      have product : gfMul (gfPeval (rootQuotient r a w) x) (x ^^^ r) = 0#8 := by
        rw [← hroots x hx, gfPeval_cons_eq_rootQuotient r x a w, hroot, BitVec.xor_zero]
      refine ((gfMul_eq_zero_iff _ _).1 product).resolve_right fun h => hr ?_
      rwa [← BitVec.xor_eq_zero_iff.1 h]

/-! ### The code -/

/-- The roots `ALPHA^0 .. ALPHA^5` of the generator (42 R150). -/
def codeRoots : List Byte := (List.range 6).map gfPow

theorem codeRoots_nodup : codeRoots.Nodup := by decide +kernel

theorem inCode_iff (n : Nat) (c : List Byte) :
    InCode n c ↔ c.length = n ∧ ∀ x ∈ codeRoots, gfPeval c x = 0#8 := by
  simp [InCode, syndrome, codeRoots]

/-- The generator polynomial, its leading 0x01 first (42 R150). -/
def generator : List Byte := 0x01 :: generatorTaps.toList

theorem gfPeval_generator : ∀ x ∈ codeRoots, gfPeval generator x = 0#8 := by decide +kernel

/-- A turn shifts the register by one place and adds the multiple of the generator that leaves `b` at the top
(42 R153). -/
theorem cons_parityTurn_eq (p : Vector Byte 6) (b : Byte) :
    b :: (parityTurn generatorTaps p b).toList =
      List.zipWith (· ^^^ ·) (p.toList ++ [0#8]) (generator.map (gfMul (b ^^^ p[0]))) := by
  match p with
  | ⟨⟨[p0, p1, p2, p3, p4, p5]⟩, rfl⟩ =>
    have top : p0 ^^^ (b ^^^ p0) = b := by simp [BitVec.xor_comm b]
    simp [parityTurn, generator, top]

theorem gfPeval_cons_parityTurn (p : Vector Byte 6) (b : Byte) {x : Byte} (hx : x ∈ codeRoots) :
    gfPeval (b :: (parityTurn generatorTaps p b).toList) x = gfMul (gfPeval p.toList x) x := by
  rw [cons_parityTurn_eq, gfPeval_zipWith_xor (by simp [generator]), gfPeval_map_gfMul, gfPeval_generator x hx,
    gfMul_zero, gfPeval_append_singleton, BitVec.xor_zero, BitVec.xor_zero]

@[simp] theorem rsParity_append_singleton (m : List Byte) (b : Byte) :
    rsParity (m ++ [b]) = parityTurn generatorTaps (rsParity m) b := by
  simp [rsParity]

@[simp] theorem rsEnc_length (m : List Byte) : (rsEnc m).length = m.length + 6 := by simp [rsEnc]

/-- After every byte, the bytes so far and the register form a word with the generator's roots. -/
theorem gfPeval_rsEnc (m : List Byte) {x : Byte} (hx : x ∈ codeRoots) : gfPeval (rsEnc m) x = 0#8 := by
  unfold rsEnc
  induction m using List.reverseRecOn with
  | nil => simp [rsParity, gfPeval]
  | append_singleton m b ih =>
    rw [rsParity_append_singleton, List.append_assoc, List.singleton_append, gfPeval_append,
      gfPeval_cons_parityTurn _ _ hx, List.length_cons, Vector.length_toList, gfPower_succ, ← gfMul_assoc,
      ← gfMul_xor_left]
    rw [gfPeval_append, Vector.length_toList] at ih
    rw [ih, zero_gfMul]

theorem inCode_rsEnc {n : Nat} {m : List Byte} (hlen : m.length + 6 = n) : InCode n (rsEnc m) :=
  (inCode_iff n _).2 ⟨(rsEnc_length m).trans hlen, fun _ hx => gfPeval_rsEnc m hx⟩

/-- A Block has only one parity: the sum of two is a polynomial of degree below 6 with the six roots. -/
theorem parity_unique {n : Nat} {m p q : List Byte} (hp : InCode n (m ++ p)) (hq : InCode n (m ++ q))
    (hlen : p.length = 6) : p = q := by
  obtain ⟨hpn, hp⟩ := (inCode_iff _ _).1 hp
  obtain ⟨hqn, hq⟩ := (inCode_iff _ _).1 hq
  have hpq : p.length = q.length := by simp only [List.length_append] at hpn hqn; omega
  have hroots : ∀ x ∈ codeRoots, gfPeval (List.zipWith (· ^^^ ·) p q) x = 0#8 := fun x hx => by
    have same := (hp x hx).trans (hq x hx).symm
    rw [gfPeval_append, gfPeval_append, hpq, BitVec.xor_right_inj] at same
    rw [gfPeval_zipWith_xor hpq, same, BitVec.xor_self]
  have hzero := eq_zero_of_roots (by simp [codeRoots, hlen]) codeRoots_nodup hroots
  refine List.ext_getElem hpq fun i hi hi' => BitVec.xor_eq_zero_iff.1 ?_
  rw [← List.getElem_zipWith (f := (· ^^^ ·)) (i := i) (h := by simp; omega)]
  exact hzero _ (List.getElem_mem _)

@[simp] theorem take_rsEnc (m : List Byte) : (rsEnc m).take m.length = m := by simp [rsEnc]

theorem inCode_iff_rsEnc_take {n : Nat} (hn : 6 ≤ n) (c : List Byte) :
    InCode n c ↔ c.length = n ∧ rsEnc (c.take (n - 6)) = c := by
  constructor
  · intro hc
    have hlen : c.length = n := hc.1
    have hblock : (c.take (n - 6)).length + 6 = n := by simp; omega
    have hc' : InCode n (c.take (n - 6) ++ c.drop (n - 6)) := by rwa [List.take_append_drop]
    refine ⟨hlen, ?_⟩
    rw [rsEnc, parity_unique (inCode_rsEnc hblock) hc' (Vector.length_toList), List.take_append_drop]
  · rintro ⟨hlen, henc⟩
    have hblock : (c.take (n - 6)).length + 6 = n := by simp; omega
    exact henc ▸ inCode_rsEnc hblock

/-! ### The statements -/

/-- Settles O18: the encoding of the first bytes is a codeword, and a Block has only one parity. -/
theorem everyCodewordIsTheEncodingOfItsBlock : Obligations.EveryCodewordIsTheEncodingOfItsBlock :=
  fun _ c hn _ => ⟨inCode_iff_rsEnc_take hn c, fun _ m hm henc => by rw [← henc, ← hm, take_rsEnc]⟩

/-- Settles O17: the encoding has the generator's roots, by induction over the Block's bytes. -/
theorem encodingIsSystematicCodeword : Obligations.EncodingIsSystematicCodeword := fun m s =>
  ⟨(rsParity m.val).toList, exec_rsParity m s, Vector.length_toList, exec_rsEnc m s, inCode_rsEnc rfl⟩

end Sys2Proof.Machine
end

section
/-! PROOFS. RS.CHIEN (spec/43_rs_decode.md R175), and what later proofs use of GF(2^8): the inverse and the quotient
of nonzero bytes, and the bytes as the elements of a field, so that Mathlib's polynomials can be used. -/

namespace Sys2Proof.Machine

/-! ### The dispatch of the two rows -/

theorem exec_rsChien (c : List Byte) (n : Byte) (s : State) : exec (.rsChien c n) s = execRsChien c n s := rfl

theorem exec_rsDec (r : RsWord) (s : State) : exec (.rsDec r) s = execRsDec r s := rfl

/-! ### RS.CHIEN -/

@[simp] theorem polyEval_nil (v : Byte) : polyEval [] v = 0#8 := rfl

/-- Horner's rule from the low end (41 R138). -/
@[simp] theorem polyEval_cons (a : Byte) (c : List Byte) (v : Byte) :
    polyEval (a :: c) v = a ^^^ gfMul (polyEval c v) v := by
  rw [polyEval, List.reverse_cons, gfPeval_append_singleton, BitVec.xor_comm, polyEval]

theorem polyEval_eq_foldr (c : List Byte) (v : Byte) :
    polyEval c v = c.foldr (fun a acc => a ^^^ gfMul acc v) 0x00 := by
  induction c with
  | nil => rfl
  | cons a c ih => rw [polyEval_cons, ih, List.foldr_cons]

/-- Inside the word the integer of `wireExponent` is the natural number `n-1-i` (42 R152). -/
theorem wireExponent_eq_natCast {n i : Nat} (hi : i < n) : wireExponent n i = (n - 1 - i : Nat) := by
  rw [wireExponent_eq]; omega

theorem mem_rsChien {c : List Byte} {n i : Nat} :
    i ∈ rsChien c n ↔ i < n ∧ polyEval c (gfExp (-((n - 1 - i : Nat) : Int))) = 0x00 := by
  simp only [rsChien, List.mem_filter, List.mem_range, decide_eq_true_eq]
  exact and_congr_right fun hi => by rw [wireExponent_eq_natCast hi]

theorem rsChien_pairwise_lt (c : List Byte) (n : Nat) : (rsChien c n).Pairwise (· < ·) :=
  List.pairwise_lt_range.filter _

/-- Settles O22: the search keeps, of the ascending positions of the word, those with a root. -/
theorem chienFindsTheRoots : Obligations.ChienFindsTheRoots := fun c n s =>
  ⟨rsChien c n.toNat, exec_rsChien c n s, rsChien_pairwise_lt c n.toNat, fun i => by
    rw [mem_rsChien, polyEval_eq_foldr]⟩

/-! ### GF.LOG, GF.INV and GF.DIV of nonzero bytes -/

/-- The search of 41 R135, begun at `ALPHA^e`, finds the exponent `e + k` where it does not run past 254. -/
theorem gfLogFrom_gfPow {tries e k : Nat} (hk : k ≤ tries) (hek : e + k < 255) :
    gfLogFrom (gfPow (e + k)) tries e (gfPow e) = e + k := by
  induction tries generalizing e k with
  | zero => obtain rfl := Nat.le_zero.1 hk; rfl
  | succ tries ih =>
    rw [gfLogFrom]
    split
    case isTrue h => exact gfPow_injOn (Set.mem_Iio.2 (by omega)) hek h
    case isFalse h =>
      obtain ⟨k, rfl⟩ := Nat.exists_eq_succ_of_ne_zero (n := k) (by rintro rfl; exact h rfl)
      rw [Nat.succ_eq_add_one, ← Nat.add_assoc, Nat.add_right_comm, timesAlpha_eq, ← gfPow_succ]
      exact ih (by omega) (by omega)

theorem gfLog_gfPow {n : Nat} (hn : n < 255) : gfLog (gfPow n) = n := by
  rw [gfLog, if_neg (gfPow_ne_zero n)]
  have search := gfLogFrom_gfPow (tries := 254) (e := 0) (k := n) (by omega) (by omega)
  rwa [Nat.zero_add] at search

theorem gfMul_gfInv {a : Byte} (ha : a ≠ 0#8) : gfMul a (gfInv a) = 1#8 := by
  obtain ⟨n, hn, rfl⟩ := exists_gfPow_eq ha
  have complement : (255 - gfLog (gfPow n) : Int) = (255 - n : Nat) := by rw [gfLog_gfPow hn]; omega
  rw [gfInv, if_neg (gfPow_ne_zero n), complement, gfExp_natCast, ← gfPow_add, Nat.add_sub_cancel' hn.le, ← gfPow_mod]
  rfl

theorem gfDiv_eq {b : Byte} (hb : b ≠ 0#8) (a : Byte) : gfDiv a b = gfMul a (gfInv b) := if_neg hb

/-- `ALPHA^-m (*) ALPHA^m` is 0x01 (41 R134). -/
theorem gfMul_gfExp_neg (m : Nat) : gfMul (gfExp (-(m : Int))) (gfPow m) = 1#8 := by
  have neg_mod : -(m : Int) % 255 = ((254 * m : Nat) : Int) % 255 := by omega
  rw [← gfExp_emod, neg_mod, gfExp_emod, gfExp_natCast, ← gfPow_add, ← Nat.succ_mul, ← gfPow_mod, Nat.mul_mod_right]
  rfl

/-! ### The bytes as elements of a field -/

/-- A reading of the bytes as elements of the field `F`, GF.ADD being its sum and GF.MUL its product. -/
structure ByteField (F : Type) [Field F] where
  val : Byte → F
  val_injective : Function.Injective val
  val_xor : ∀ a b, val (a ^^^ b) = val a + val b
  val_gfMul : ∀ a b, val (gfMul a b) = val a * val b

/-- The inverse made total: 0x00 stands for its own, the model's value being free (log 16). -/
def gfInvOrZero (a : Byte) : Byte := if a = 0#8 then 0#8 else gfInv a

/-- GF(2^8) with the model's operations (41 R131, R133, R136). -/
abbrev gfField : Field Byte :=
  @Field.ofMinimalAxioms Byte ⟨(· ^^^ ·)⟩ ⟨gfMul⟩ ⟨id⟩ ⟨gfInvOrZero⟩ ⟨0#8⟩ ⟨1#8⟩
    BitVec.xor_assoc (fun _ => BitVec.zero_xor) (fun _ => BitVec.xor_self) gfMul_assoc gfMul_comm gfMul_one_left
    (fun a ha => (congrArg (gfMul a) (if_neg ha)).trans (gfMul_gfInv ha))
    (show gfInvOrZero 0#8 = 0#8 from if_pos rfl) gfMul_xor_right
    ⟨0#8, 1#8, by decide⟩

theorem exists_byteField : ∃ (F : Type) (_ : Field F), Nonempty (ByteField F) :=
  ⟨Byte, gfField, ⟨@ByteField.mk Byte gfField id Function.injective_id (fun _ _ => rfl) (fun _ _ => rfl)⟩⟩

namespace ByteField

variable {F : Type} [Field F] (φ : ByteField F)

@[simp] theorem val_zero : φ.val 0#8 = 0 := by simpa using φ.val_xor 0#8 0#8

theorem val_eq_zero_iff {a : Byte} : φ.val a = 0 ↔ a = 0#8 := by
  rw [← φ.val_zero, φ.val_injective.eq_iff]

@[simp] theorem val_one : φ.val 1#8 = 1 := by
  have square : φ.val 1#8 = φ.val 1#8 * φ.val 1#8 := by rw [← φ.val_gfMul, gfMul_one]
  exact (mul_eq_left₀ (mt φ.val_eq_zero_iff.1 (by decide))).1 square.symm

/-- Every byte is its own negative, so the field has characteristic 2. -/
theorem charP_two (φ : ByteField F) : CharP F 2 :=
  CharTwo.of_one_ne_zero_of_two_eq_zero one_ne_zero <| by
    rw [← one_add_one_eq_two, ← φ.val_one, ← φ.val_xor, BitVec.xor_self, φ.val_zero]

theorem val_gfDiv {b : Byte} (hb : b ≠ 0#8) (a : Byte) : φ.val (gfDiv a b) = φ.val a / φ.val b := by
  have hinv : φ.val b * φ.val (gfInv b) = 1 := by rw [← φ.val_gfMul, gfMul_gfInv hb, φ.val_one]
  rw [gfDiv_eq hb, φ.val_gfMul, eq_inv_of_mul_eq_one_right hinv, div_eq_mul_inv]

theorem val_gfPow (m : Nat) : φ.val (gfPow m) = φ.val (gfPow 1) ^ m := by
  induction m with
  | zero => exact φ.val_one.trans (pow_zero _).symm
  | succ m ih => rw [gfPow_add, φ.val_gfMul, ih, pow_succ]

theorem val_gfPower (v : Byte) (m : Nat) : φ.val (gfPower v m) = φ.val v ^ m := by
  induction m with
  | zero => exact φ.val_one.trans (pow_zero _).symm
  | succ m ih => rw [gfPower_succ, φ.val_gfMul, ih, pow_succ]

theorem val_gfExp_neg (m : Nat) : φ.val (gfExp (-(m : Int))) = (φ.val (gfPow m))⁻¹ :=
  eq_inv_of_mul_eq_one_left (by rw [← φ.val_gfMul, gfMul_gfExp_neg, φ.val_one])

theorem val_foldl_xor (l : List Byte) (a : Byte) : φ.val (l.foldl (· ^^^ ·) a) = φ.val a + (l.map φ.val).sum := by
  induction l generalizing a with
  | nil => simp
  | cons b l ih => rw [List.foldl_cons, ih, φ.val_xor, List.map_cons, List.sum_cons, add_assoc]

/-- The value of a word, its first byte being the highest coefficient (41 R138). -/
theorem val_gfPeval (w : List Byte) (v : Byte) :
    φ.val (gfPeval w v) = ∑ i ∈ Finset.range w.length, φ.val (w.getD i 0) * φ.val v ^ (w.length - 1 - i) := by
  rw [gfPeval_eq_sum, val_foldl_xor, pevalTerms, List.map_map, ← List.sum_toFinset _ List.nodup_range,
    List.toFinset_range]
  simp [val_gfMul, val_gfPower]

end ByteField

end Sys2Proof.Machine
end

section
/-! PROOFS. What the Reed-Solomon decoder (spec/43_rs_decode.md) computes, over any field and in Mathlib's polynomials:
the power sums of a set `E` of error positions with values `e` and locators `x`, their locator and evaluator
polynomials, and the Berlekamp-Massey iteration. -/

namespace Sys2Proof.Machine

open Polynomial

variable {F : Type} [Field F]

/-! ### Power sums determine the error values -/

/-- As many power sums as errors, all of them zero, leave no error (43 R171; Vandermonde). -/
theorem eq_zero_of_powerSums_eq_zero {E : Finset ℕ} {u x : ℕ → F} (hx : Set.InjOn x E)
    (hsum : ∀ j < E.card, ∑ i ∈ E, u i * x i ^ j = 0) : ∀ i ∈ E, u i = 0 := by
  have number (f : ℕ → F) : ∑ k, f (E.equivFin.symm k) = ∑ i ∈ E, f i := by
    rw [E.equivFin.symm.sum_comp fun i : E => f i, Finset.sum_coe_sort]
  have values := Matrix.eq_zero_of_forall_pow_sum_mul_pow_eq_zero (f := fun k => x (E.equivFin.symm k))
    (v := fun k => u (E.equivFin.symm k)) (hx.injective.comp E.equivFin.symm.injective)
    fun j => (number fun i => u i * x i ^ (j : ℕ)).trans (hsum j j.2)
  intro i hi
  simpa using congrFun values (E.equivFin ⟨i, hi⟩)

/-! ### Locator, syndromes and evaluator of a set of errors -/

/-- The product of `1 - X_i x` over the errors (43 R174; in characteristic 2 the signs make no difference). -/
noncomputable def errorLocator (E : Finset ℕ) (x : ℕ → F) : F[X] := ∏ i ∈ E, (1 - C (x i) * X)

/-- The six power sums of the errors as coefficients (43 R173). -/
noncomputable def syndromePoly (E : Finset ℕ) (e x : ℕ → F) : F[X] :=
  ∑ i ∈ E, C (e i) * ∑ j ∈ Finset.range 6, (C (x i) * X) ^ j

/-- `Omega` without its reduction modulo `x^6` (43 R176). -/
noncomputable def errorEvaluator (E : Finset ℕ) (e x : ℕ → F) : F[X] :=
  ∑ i ∈ E, C (e i) * errorLocator (E.erase i) x

variable {E : Finset ℕ} {e x : ℕ → F}

theorem errorLocator_eq_mul_erase {k : ℕ} (hk : k ∈ E) :
    errorLocator E x = (1 - C (x k) * X) * errorLocator (E.erase k) x :=
  (Finset.mul_prod_erase E (fun i => 1 - C (x i) * X) hk).symm

theorem errorLocator_coeff_zero (E : Finset ℕ) (x : ℕ → F) : (errorLocator E x).coeff 0 = 1 := by
  simp [errorLocator, coeff_zero_eq_eval_zero, eval_prod]

theorem natDegree_errorLocator_le (E : Finset ℕ) (x : ℕ → F) : (errorLocator E x).natDegree ≤ E.card := by
  have factor_le (i : ℕ) : (1 - C (x i) * X).natDegree ≤ 1 := by compute_degree
  calc (∏ i ∈ E, (1 - C (x i) * X)).natDegree ≤ ∑ i ∈ E, (1 - C (x i) * X).natDegree := natDegree_prod_le _ _
    _ ≤ E.card • 1 := Finset.sum_le_card_nsmul _ _ _ fun i _ => factor_le i
    _ = E.card := by simp

theorem eval_inv_errorLocator_eq_zero_iff {k : ℕ} (hk : x k ≠ 0) :
    (errorLocator E x).eval (x k)⁻¹ = 0 ↔ ∃ i ∈ E, x i = x k := by
  simp only [errorLocator, eval_prod, Finset.prod_eq_zero_iff, eval_sub, eval_one, eval_mul, eval_C, eval_X,
    sub_eq_zero]
  exact exists_congr fun i => and_congr_right fun _ => by rw [eq_comm, mul_inv_eq_one₀ hk]

theorem eval_inv_errorLocator_erase_ne_zero {k : ℕ} (hx : Set.InjOn x E) (hk : k ∈ E) (hxk : x k ≠ 0) :
    (errorLocator (E.erase k) x).eval (x k)⁻¹ ≠ 0 := by
  rw [Ne, eval_inv_errorLocator_eq_zero_iff hxk]
  rintro ⟨i, hi, h⟩
  exact Finset.ne_of_mem_erase hi (hx (Finset.mem_of_mem_erase hi) hk h)

/-- The value of the formal derivative of 43 R176 at the inverse of a locator. -/
theorem eval_inv_derivative_errorLocator {k : ℕ} (hk : k ∈ E) (hxk : x k ≠ 0) :
    (derivative (errorLocator E x)).eval (x k)⁻¹ = -x k * (errorLocator (E.erase k) x).eval (x k)⁻¹ := by
  simp [errorLocator_eq_mul_erase hk, hxk]

theorem syndromePoly_coeff {j : ℕ} (hj : j < 6) : (syndromePoly E e x).coeff j = ∑ i ∈ E, e i * x i ^ j := by
  simp only [syndromePoly, finsetSum_coeff, coeff_C_mul, mul_pow, ← C_pow, coeff_X_pow]
  simp [hj]

theorem syndromePoly_coeff_eq_zero {j : ℕ} (hj : 6 ≤ j) : (syndromePoly E e x).coeff j = 0 := by
  simp only [syndromePoly, finsetSum_coeff, coeff_C_mul, mul_pow, ← C_pow, coeff_X_pow]
  simp [hj.not_gt]

/-- The key equation: below `x^6` the product of syndromes and locator is the evaluator (43 R176), by the geometric
sum of each error. -/
theorem syndromePoly_mul_errorLocator_coeff {n : ℕ} (hn : n < 6) :
    (syndromePoly E e x * errorLocator E x).coeff n = (errorEvaluator E e x).coeff n := by
  have term (i) (hi : i ∈ E) : (C (e i) * ∑ j ∈ Finset.range 6, (C (x i) * X) ^ j) * errorLocator E x =
      C (e i) * errorLocator (E.erase i) x - C (e i) * (C (x i) ^ 6 * errorLocator (E.erase i) x) * X ^ 6 := by
    rw [errorLocator_eq_mul_erase hi, ← mul_assoc, mul_assoc (C (e i)), mul_comm (∑ _ ∈ _, _), mul_neg_geom_sum]
    ring
  rw [syndromePoly, Finset.sum_mul, Finset.sum_congr rfl term, Finset.sum_sub_distrib, ← Finset.sum_mul, coeff_sub,
    coeff_mul_X_pow', if_neg (by omega), sub_zero, errorEvaluator]

theorem errorEvaluator_coeff_eq_zero {n : ℕ} (hn : E.card ≤ n) : (errorEvaluator E e x).coeff n = 0 := by
  rw [errorEvaluator, finsetSum_coeff]
  refine Finset.sum_eq_zero fun i hi => ?_
  rw [coeff_C_mul, coeff_eq_zero_of_natDegree_lt, mul_zero]
  calc (errorLocator (E.erase i) x).natDegree ≤ (E.erase i).card := natDegree_errorLocator_le _ _
    _ < E.card := Finset.card_erase_lt_of_mem hi
    _ ≤ n := hn

theorem eval_inv_errorEvaluator {k : ℕ} (hk : k ∈ E) (hxk : x k ≠ 0) :
    (errorEvaluator E e x).eval (x k)⁻¹ = e k * (errorLocator (E.erase k) x).eval (x k)⁻¹ := by
  rw [errorEvaluator, eval_finsetSum, Finset.sum_eq_single_of_mem k hk, eval_C_mul]
  intro i _ hik
  rw [eval_C_mul, (eval_inv_errorLocator_eq_zero_iff hxk).2 ⟨k, Finset.mem_erase.2 ⟨hik.symm, hk⟩, rfl⟩, mul_zero]

/-! ### Generating the syndromes by recursion -/

/-- `p`, read as a recursion of length `l`, generates the first `k` syndromes (43 R174). `t` is `1 + x S(x)`: one more
syndrome, 0x01, in front of the others, so that the variables `B`, `m` and `b` need no special case before the first
change of length. -/
structure Generates (t : F[X]) (k l : ℕ) (p : F[X]) : Prop where
  natDegree_le : p.natDegree ≤ l
  coeff_mul : ∀ j, l < j → j ≤ k → (t * p).coeff j = 0

namespace Generates

variable {t p q : F[X]} {k l m : ℕ}

theorem coeff_eq_zero (h : Generates t k l p) {j : ℕ} (hj : l < j) : p.coeff j = 0 :=
  coeff_eq_zero_of_natDegree_lt (h.natDegree_le.trans_lt hj)

theorem mono (h : Generates t k l p) (hlm : l ≤ m) : Generates t k m p where
  natDegree_le := h.natDegree_le.trans hlm
  coeff_mul j hj := h.coeff_mul j (hlm.trans_lt hj)

theorem add (hp : Generates t k l p) (hq : Generates t k l q) (r : F) : Generates t k l (p + C r * q) where
  natDegree_le := natDegree_add_le_of_degree_le hp.natDegree_le ((natDegree_C_mul_le r q).trans hq.natDegree_le)
  coeff_mul j hlt hle := by
    rw [mul_add, mul_left_comm, coeff_add, coeff_C_mul, hp.coeff_mul j hlt hle, hq.coeff_mul j hlt hle, mul_zero,
      add_zero]

theorem succ (h : Generates t k l p) (hdis : (t * p).coeff (k + 1) = 0) : Generates t (k + 1) l p where
  natDegree_le := h.natDegree_le
  coeff_mul j hlt hle := by
    obtain hle | rfl := Nat.le_succ_iff.1 hle
    · exact h.coeff_mul j hlt hle
    · exact hdis

theorem X_mul (h : Generates t k l p) : Generates t (k + 1) (l + 1) (X * p) where
  natDegree_le := natDegree_mul_le.trans (by have := natDegree_X_le (R := F); have := h.natDegree_le; omega)
  coeff_mul j hlt hle := by
    obtain ⟨j, rfl⟩ := Nat.exists_eq_succ_of_ne_zero (n := j) (by omega)
    rw [mul_left_comm, Nat.succ_eq_add_one, coeff_X_mul, h.coeff_mul j (by omega) (by omega)]

/-- Massey's lemma: where a recursion of length `l` fails at the next syndrome, one that does not fail there is at
least `k + 1 - l` long. Both sides are the coefficient of `x^(k+1)` in the product of `t` and the two polynomials. -/
theorem length_add_length {n v : ℕ} (hp : Generates t k l p) (hq : Generates t n v q) (hq0 : q.coeff 0 = 1)
    (hkn : k + 1 ≤ n) (hfail : (t * p).coeff (k + 1) ≠ 0) : k + 1 ≤ l + v := by
  by_contra! hlv
  have by_q : (p * (t * q)).coeff (k + 1) = 0 := by
    rw [Polynomial.coeff_mul]
    refine Finset.sum_eq_zero fun ⟨i, j⟩ hij => ?_
    have hij : i + j = k + 1 := Finset.HasAntidiagonal.mem_antidiagonal.1 hij
    by_cases hi : i ≤ l
    · rw [hq.coeff_mul j (by omega) (by omega), mul_zero]
    · rw [hp.coeff_eq_zero (by omega), zero_mul]
  have by_p : (q * (t * p)).coeff (k + 1) = (t * p).coeff (k + 1) := by
    rw [Polynomial.coeff_mul, Finset.sum_eq_single_of_mem (0, k + 1) (by simp), hq0, one_mul]
    rintro ⟨i, j⟩ hij hne
    have hij : i + j = k + 1 := Finset.HasAntidiagonal.mem_antidiagonal.1 hij
    have hi0 : i ≠ 0 := by rintro rfl; exact hne (by simpa using hij)
    by_cases hi : i ≤ v
    · rw [hp.coeff_mul j (by omega) (by omega), mul_zero]
    · rw [hq.coeff_eq_zero (by omega), zero_mul]
  have same : p * (t * q) = q * (t * p) := by ring
  exact hfail (by rw [← by_p, ← same, by_q])

end Generates

theorem one_add_X_mul_mul_coeff_succ (s c : F[X]) (j : ℕ) :
    ((1 + X * s) * c).coeff (j + 1) = c.coeff (j + 1) + (s * c).coeff j := by
  rw [add_mul, one_mul, mul_assoc, coeff_add, coeff_X_mul]

theorem generates_errorLocator (E : Finset ℕ) (e x : ℕ → F) :
    Generates (1 + X * syndromePoly E e x) 6 E.card (errorLocator E x) where
  natDegree_le := natDegree_errorLocator_le E x
  coeff_mul j hlt hle := by
    obtain ⟨j, rfl⟩ := Nat.exists_eq_succ_of_ne_zero (n := j) (by omega)
    rw [Nat.succ_eq_add_one, one_add_X_mul_mul_coeff_succ,
      coeff_eq_zero_of_natDegree_lt ((natDegree_errorLocator_le E x).trans_lt hlt), zero_add,
      syndromePoly_mul_errorLocator_coeff (by omega), errorEvaluator_coeff_eq_zero (by omega)]

/-- The coefficients of syndromes times `c` past the degree of `c` are power sums of the errors, each weighted by the
value of `c` at the inverse of its locator. -/
theorem syndromePoly_mul_coeff {c : F[X]} {n : ℕ} (hx : ∀ i ∈ E, x i ≠ 0) (hdeg : c.natDegree ≤ n) (hn : n < 6) :
    (syndromePoly E e x * c).coeff n = ∑ i ∈ E, e i * x i ^ n * c.eval (x i)⁻¹ := by
  have term (i) (hi : i ∈ E) : e i * x i ^ n * c.eval (x i)⁻¹ =
      ∑ j ∈ Finset.range (n + 1), c.coeff j * (e i * x i ^ (n - j)) := by
    rw [eval_eq_sum_range' (Nat.lt_succ_of_le hdeg), Finset.mul_sum]
    refine Finset.sum_congr rfl fun j hj => ?_
    rw [pow_sub₀ _ (hx i hi) (Nat.le_of_lt_succ (Finset.mem_range.1 hj)), inv_pow]
    ring
  rw [Finset.sum_congr rfl term, Finset.sum_comm, mul_comm, coeff_mul,
    Finset.Nat.sum_antidiagonal_eq_sum_range_succ fun i j => c.coeff i * (syndromePoly E e x).coeff j]
  refine Finset.sum_congr rfl fun j _ => ?_
  rw [syndromePoly_coeff (by omega), Finset.mul_sum]

/-- A recursion that generates the six syndromes of at most three errors, and is no longer than their number, is the
locator: it vanishes where the locator does (43 R174). -/
theorem eq_errorLocator_of_generates {c : F[X]} {l : ℕ} (hc : Generates (1 + X * syndromePoly E e x) 6 l c)
    (hc0 : c.coeff 0 = 1) (hl : l ≤ E.card) (hcard : E.card ≤ 3) (hx : Set.InjOn x E) (hx0 : ∀ i ∈ E, x i ≠ 0)
    (he : ∀ i ∈ E, e i ≠ 0) : c = errorLocator E x := by
  classical
  have weighted : ∀ i ∈ E, e i * x i ^ l * c.eval (x i)⁻¹ = 0 := by
    refine eq_zero_of_powerSums_eq_zero hx fun j hj => ?_
    have vanish : (syndromePoly E e x * c).coeff (l + j) = 0 := by
      have := hc.coeff_mul (l + j + 1) (by omega) (by omega)
      rwa [one_add_X_mul_mul_coeff_succ, hc.coeff_eq_zero (by omega), zero_add] at this
    rw [syndromePoly_mul_coeff hx0 (hc.natDegree_le.trans (by omega)) (by omega)] at vanish
    rw [← vanish]
    exact Finset.sum_congr rfl fun i _ => by ring
  have root (i) (hi : i ∈ E) : c.eval (x i)⁻¹ = 0 :=
    (mul_eq_zero.1 (weighted i hi)).resolve_left (mul_ne_zero (he i hi) (pow_ne_zero l (hx0 i hi)))
  have inverses_card : (insert 0 (E.image fun i => (x i)⁻¹)).card = E.card + 1 := by
    rw [Finset.card_insert_of_notMem (by simpa using hx0),
      Finset.card_image_of_injOn fun i hi j hj h => hx hi hj (inv_injective h)]
  refine sub_eq_zero.1 (eq_zero_of_natDegree_lt_card_of_eval_eq_zero' _ (insert 0 (E.image fun i => (x i)⁻¹)) ?_ ?_)
  · simp only [Finset.forall_mem_insert, Finset.forall_mem_image, eval_sub]
    refine ⟨?_, fun i hi => ?_⟩
    · rw [← coeff_zero_eq_eval_zero, ← coeff_zero_eq_eval_zero, hc0, errorLocator_coeff_zero, sub_self]
    · rw [root i hi, (eval_inv_errorLocator_eq_zero_iff (hx0 i hi)).2 ⟨i, hi, rfl⟩, sub_self]
  · rw [inverses_card, Nat.lt_succ_iff]
    exact (natDegree_sub_le_of_le (hc.natDegree_le.trans hl) (natDegree_errorLocator_le E x)).trans_eq (max_self _)

theorem natDegree_errorLocator (hx : ∀ i ∈ E, x i ≠ 0) : (errorLocator E x).natDegree = E.card := by
  have factor (i) (hi : i ∈ E) : (1 - C (x i) * X).natDegree = 1 := by
    have := hx i hi
    compute_degree!
  rw [errorLocator, natDegree_prod _ _ fun i hi h => by simpa [h] using factor i hi, Finset.sum_congr rfl factor,
    Finset.sum_const, smul_eq_mul, mul_one]

/-! ### The Berlekamp-Massey iteration -/

/-- The invariant of the iteration of 43 R174 before `k`: `c` is `C`, `l` is `L`, `b` is `x^m B` and `d` is `b`. The
second polynomial generates with length `k + 1 - l` what the first does, and has the discrepancy `d` at the next
syndrome. -/
structure MasseyInv (t : F[X]) (k l : ℕ) (c b : F[X]) (d : F) : Prop where
  coeff_zero : c.coeff 0 = 1
  generates : Generates t k l c
  length_le : l ≤ k
  old_coeff_zero : b.coeff 0 = 0
  old_generates : Generates t k (k + 1 - l) b
  old_discrepancy : (t * b).coeff (k + 1) = d
  d_ne_zero : d ≠ 0

theorem masseyInv_init {t : F[X]} (ht : t.coeff 0 = 1) : MasseyInv t 0 0 1 X 1 where
  coeff_zero := coeff_one_zero
  generates := ⟨natDegree_one.le, by omega⟩
  length_le := le_rfl
  old_coeff_zero := coeff_X_zero
  old_generates := ⟨natDegree_X_le, by omega⟩
  old_discrepancy := by rw [coeff_mul_X, ht]
  d_ne_zero := one_ne_zero

namespace MasseyInv

variable {t c b : F[X]} {k l : ℕ} {d q : F}

/-- `m <- m + 1`. -/
theorem old_generates_succ (h : MasseyInv t k l c b d) : Generates t (k + 1) (k + 1 + 1 - l) (X * b) := by
  rw [Nat.succ_sub (h.length_le.trans k.le_succ)]
  exact h.old_generates.X_mul

theorem old_discrepancy_succ (h : MasseyInv t k l c b d) : (t * (X * b)).coeff (k + 1 + 1) = d := by
  rw [mul_left_comm, coeff_X_mul, h.old_discrepancy]

/-- The correction takes the discrepancy away. -/
theorem corrected_coeff (h : MasseyInv t k l c b d) (hq : (t * c).coeff (k + 1) + q * d = 0) :
    (t * (c + C q * b)).coeff (k + 1) = 0 := by
  rw [mul_add, mul_left_comm, coeff_add, coeff_C_mul, h.old_discrepancy, hq]

theorem corrected_coeff_zero (h : MasseyInv t k l c b d) (q : F) : (c + C q * b).coeff 0 = 1 := by
  rw [coeff_add, coeff_C_mul, h.coeff_zero, h.old_coeff_zero, mul_zero, add_zero]

theorem no_discrepancy (h : MasseyInv t k l c b d) (hdis : (t * c).coeff (k + 1) = 0) :
    MasseyInv t (k + 1) l c (X * b) d where
  coeff_zero := h.coeff_zero
  generates := h.generates.succ hdis
  length_le := h.length_le.trans k.le_succ
  old_coeff_zero := coeff_X_mul_zero b
  old_generates := h.old_generates_succ
  old_discrepancy := h.old_discrepancy_succ
  d_ne_zero := h.d_ne_zero

theorem same_length (h : MasseyInv t k l c b d) (hq : (t * c).coeff (k + 1) + q * d = 0) (hl : k < 2 * l) :
    MasseyInv t (k + 1) l (c + C q * b) (X * b) d where
  coeff_zero := h.corrected_coeff_zero q
  generates := (h.generates.add (h.old_generates.mono (by omega)) q).succ (h.corrected_coeff hq)
  length_le := h.length_le.trans k.le_succ
  old_coeff_zero := coeff_X_mul_zero b
  old_generates := h.old_generates_succ
  old_discrepancy := h.old_discrepancy_succ
  d_ne_zero := h.d_ne_zero

theorem new_length (h : MasseyInv t k l c b d) (hq : (t * c).coeff (k + 1) + q * d = 0) (hl : 2 * l ≤ k)
    (hdis : (t * c).coeff (k + 1) ≠ 0) :
    MasseyInv t (k + 1) (k + 1 - l) (c + C q * b) (X * c) ((t * c).coeff (k + 1)) where
  coeff_zero := h.corrected_coeff_zero q
  generates := ((h.generates.mono (by omega)).add h.old_generates q).succ (h.corrected_coeff hq)
  length_le := Nat.sub_le _ _
  old_coeff_zero := coeff_X_mul_zero c
  old_generates := h.generates.X_mul.mono (by omega)
  old_discrepancy := by rw [mul_left_comm, coeff_X_mul]
  d_ne_zero := hdis

end MasseyInv

end Sys2Proof.Machine
end

section
/-! PROOFS. The decoder's functions on byte lists (spec/43_rs_decode.md R174 to R176) as operations on polynomials over
the field of bytes. -/

namespace Sys2Proof.Machine

namespace ByteField

open Polynomial

variable {F : Type} [Field F] (φ : ByteField F)

/-! ### Byte lists as polynomials -/

/-- The polynomial of a list, low power first. -/
noncomputable def poly : List Byte → F[X]
  | [] => 0
  | a :: c => C (φ.val a) + X * poly c

@[simp] theorem poly_nil : φ.poly [] = 0 := rfl

@[simp] theorem poly_cons (a : Byte) (c : List Byte) : φ.poly (a :: c) = C (φ.val a) + X * φ.poly c := rfl

theorem poly_coeff (c : List Byte) (j : ℕ) : (φ.poly c).coeff j = φ.val (c.getD j 0) := by
  induction c generalizing j with
  | nil => simp
  | cons a c ih => cases j <;> simp [ih, coeff_C]

theorem val_polyEval (c : List Byte) (v : Byte) : φ.val (polyEval c v) = (φ.poly c).eval (φ.val v) := by
  induction c with
  | nil => simp
  | cons a c ih => simp [φ.val_xor, φ.val_gfMul, ih, mul_comm]

theorem poly_polyAdd (c c' : List Byte) : φ.poly (polyAdd c c') = φ.poly c + φ.poly c' := by
  induction c generalizing c' with
  | nil => simp [polyAdd]
  | cons a c ih =>
    cases c' with
    | nil => simp [polyAdd]
    | cons a' c' => simp only [polyAdd, poly_cons, φ.val_xor, C_add, ih]; ring

theorem poly_map_gfMul (q : Byte) (c : List Byte) : φ.poly (c.map (gfMul q)) = C (φ.val q) * φ.poly c := by
  induction c with
  | nil => simp
  | cons a c ih => simp only [List.map_cons, poly_cons, φ.val_gfMul, C_mul, ih]; ring

theorem poly_polyMul (c c' : List Byte) : φ.poly (polyMul c c') = φ.poly c * φ.poly c' := by
  induction c with
  | nil => simp [polyMul]
  | cons a c ih => simp [polyMul, poly_polyAdd, poly_map_gfMul, ih]; ring

theorem poly_replicate_append (m : ℕ) (c : List Byte) :
    φ.poly (List.replicate m 0x00 ++ c) = X ^ m * φ.poly c := by
  induction m with
  | zero => simp
  | succ m ih => rw [List.replicate_succ, List.cons_append, poly_cons, ih, pow_succ', mul_assoc]; simp

theorem poly_take_coeff (c : List Byte) (k j : ℕ) :
    (φ.poly (c.take k)).coeff j = if j < k then (φ.poly c).coeff j else 0 := by
  simp only [poly_coeff, List.getD_eq_getElem?_getD, List.getElem?_take]
  split <;> simp

/-- The coefficients at even and at odd powers, as derivatives in characteristic 2. -/
theorem poly_alternate (c : List Byte) :
    φ.poly (alternate true c) = derivative (X * φ.poly c) ∧
    φ.poly (alternate false c) = X * derivative (φ.poly c) := by
  have := φ.charP_two
  induction c with
  | nil => simp [alternate]
  | cons a c ih =>
    obtain ⟨even, odd⟩ := ih
    constructor
    · have twice : X * φ.poly c + X * φ.poly c = 0 := CharTwo.add_self_eq_zero _
      simp only [alternate, Bool.not_true, poly_cons, if_true, odd, derivative_mul, derivative_X, derivative_add,
        derivative_C]
      linear_combination -twice
    · simp [alternate, even]

theorem poly_polyDeriv (c : List Byte) : φ.poly (polyDeriv c) = derivative (φ.poly c) := by
  cases c with
  | nil => simp [polyDeriv, alternate]
  | cons a c => simp [polyDeriv, φ.poly_alternate]

/-! ### Trimming -/

theorem poly_dropZeros (c : List Byte) : φ.poly (dropZeros c) = φ.poly c := by
  induction c with
  | nil => rfl
  | cons a c ih =>
    rw [poly_cons, ← ih, dropZeros]
    cases dropZeros c with
    | nil => by_cases ha : a = 0#8 <;> simp [ha]
    | cons b d => simp

theorem poly_trimPoly (c : List Byte) : φ.poly (trimPoly c) = φ.poly c := by
  cases c <;> simp [trimPoly, poly_dropZeros]

theorem length_dropZeros (c : List Byte) : (dropZeros c).length = (X * φ.poly c).natDegree := by
  induction c with
  | nil => simp [dropZeros]
  | cons a c ih =>
    have hpoly := φ.poly_dropZeros c
    rw [dropZeros]
    cases hd : dropZeros c with
    | nil =>
      rw [hd, poly_nil] at hpoly
      by_cases ha : a = 0#8
      · simp [ha, ← hpoly]
      · have hval : φ.val a ≠ 0 := mt φ.val_eq_zero_iff.1 ha
        simp [ha, ← hpoly, natDegree_C_mul_X _ hval, mul_comm X]
    | cons b d =>
      rw [hd] at ih
      have hne : C (φ.val a) + X * φ.poly c ≠ 0 := fun h => by
        have := congrArg natDegree h
        rw [natDegree_C_add, ← ih] at this
        simp at this
      rw [poly_cons, natDegree_X_mul hne, natDegree_C_add, ← ih, List.length_cons]

theorem length_trimPoly {c : List Byte} (hc : φ.poly c ≠ 0) : (trimPoly c).length = (φ.poly c).natDegree + 1 := by
  cases c with
  | nil => exact absurd rfl hc
  | cons a c => rw [trimPoly, List.length_cons, poly_cons, natDegree_C_add, φ.length_dropZeros]

/-! ### RS.LOCATOR -/

/-- The invariant of the iteration for the variables of 43 R174. -/
def BmInv (s : List Byte) (k : ℕ) (st : BmState) : Prop :=
  MasseyInv (1 + X * φ.poly s) k st.l (φ.poly st.c) (X ^ st.m * φ.poly st.old) (φ.val st.d)

variable {φ} {s : List Byte} {k : ℕ} {st : BmState}

theorem bmInv_init (s : List Byte) : φ.BmInv s 0 bmInit := by
  have init := masseyInv_init (t := 1 + X * φ.poly s) (by simp)
  simpa [BmInv, bmInit] using init

theorem val_bmDiscrepancy_eq_sum (s : List Byte) (st : BmState) (k : ℕ) :
    φ.val (bmDiscrepancy s st k) = φ.val (s.getD k 0) +
      ∑ i ∈ Finset.range st.l, φ.val (st.c.getD (i + 1) 0) * φ.val (s.getD (k - (i + 1)) 0) := by
  rw [bmDiscrepancy]
  induction st.l with
  | zero => simp
  | succ l ih => rw [List.range_succ, List.foldl_concat, φ.val_xor, ih, φ.val_gfMul, Finset.sum_range_succ, add_assoc]

/-- The discrepancy of 43 R174 is the first coefficient that `C` does not make vanish. -/
theorem BmInv.val_bmDiscrepancy (h : φ.BmInv s k st) :
    φ.val (bmDiscrepancy s st k) = ((1 + X * φ.poly s) * φ.poly st.c).coeff (k + 1) := by
  have beyond (i) (hi : st.l < i) : φ.val (st.c.getD i 0) = 0 := by
    rw [← φ.poly_coeff]; exact h.generates.coeff_eq_zero hi
  have first : φ.val (st.c.getD 0 0) = 1 := by rw [← φ.poly_coeff]; exact h.coeff_zero
  have hl := h.length_le
  rw [one_add_X_mul_mul_coeff_succ, h.generates.coeff_eq_zero (by omega), zero_add, mul_comm, coeff_mul,
    Finset.Nat.sum_antidiagonal_eq_sum_range_succ fun i j => (φ.poly st.c).coeff i * (φ.poly s).coeff j]
  simp only [poly_coeff]
  rw [Finset.sum_range_succ', first, one_mul, val_bmDiscrepancy_eq_sum, add_comm, Nat.sub_zero]
  congr 1
  refine Finset.sum_subset (Finset.range_subset_range.2 hl) fun i _ hi => ?_
  rw [beyond (i + 1) (by simpa using hi), zero_mul]

/-- The corrected `C` of 43 R174. -/
theorem poly_corrected (c old : List Byte) (m : ℕ) (q : Byte) :
    φ.poly (polyAdd c (List.replicate m 0x00 ++ old.map (gfMul q))) =
      φ.poly c + C (φ.val q) * (X ^ m * φ.poly old) := by
  rw [poly_polyAdd, poly_replicate_append, poly_map_gfMul]; ring

/-- One iteration keeps the invariant, and `L` stays within the length of every polynomial that generates the
syndromes up to `k` too. -/
theorem BmInv.bmTurn {n v : ℕ} {p : F[X]} (hp : Generates (1 + X * φ.poly s) n v p) (hp0 : p.coeff 0 = 1)
    (hkn : k + 1 ≤ n) (h : φ.BmInv s k st) (hlv : st.l ≤ v) :
    φ.BmInv s (k + 1) (bmTurn s st k) ∧ (Machine.bmTurn s st k).l ≤ v := by
  have := φ.charP_two
  have hdis := h.val_bmDiscrepancy
  have hm : X ^ (st.m + 1) * φ.poly st.old = X * (X ^ st.m * φ.poly st.old) := by rw [pow_succ', mul_assoc]
  have hd : st.d ≠ 0#8 := mt φ.val_eq_zero_iff.2 h.d_ne_zero
  have hq : ((1 + X * φ.poly s) * φ.poly st.c).coeff (k + 1) +
      φ.val (gfDiv (bmDiscrepancy s st k) st.d) * φ.val st.d = 0 := by
    rw [← hdis, φ.val_gfDiv hd, div_mul_cancel₀ _ h.d_ne_zero, CharTwo.add_self_eq_zero]
  unfold Machine.bmTurn BmInv
  simp only
  split
  case isTrue hzero =>
    refine ⟨?_, hlv⟩
    rw [hm]
    exact h.no_discrepancy (by rw [← hdis, hzero]; exact φ.val_zero)
  case isFalse hne =>
    have hfail : ((1 + X * φ.poly s) * φ.poly st.c).coeff (k + 1) ≠ 0 := by
      rw [← hdis]; exact mt φ.val_eq_zero_iff.1 hne
    split
    case isTrue hl =>
      have := h.generates.length_add_length hp hp0 hkn hfail
      refine ⟨?_, by simp only; omega⟩
      simpa only [poly_corrected, pow_one, hdis] using h.new_length hq hl hfail
    case isFalse hl =>
      refine ⟨?_, hlv⟩
      simpa only [poly_corrected, hm] using h.same_length hq (by omega)

theorem bmInv_foldl {n v : ℕ} {p : F[X]} (hp : Generates (1 + X * φ.poly s) n v p) (hp0 : p.coeff 0 = 1) (hkn : k ≤ n) :
    φ.BmInv s k ((List.range k).foldl (Machine.bmTurn s) bmInit) ∧
      ((List.range k).foldl (Machine.bmTurn s) bmInit).l ≤ v := by
  induction k with
  | zero => exact ⟨bmInv_init s, Nat.zero_le v⟩
  | succ k ih =>
    obtain ⟨hinv, hlv⟩ := ih (by omega)
    rw [List.range_succ, List.foldl_concat]
    exact hinv.bmTurn hp hp0 hkn hlv

theorem rsLocator_eq_foldl_range (syn : Syndromes) : rsLocator syn =
    (trimPoly ((List.range 6).foldl (Machine.bmTurn syn.toList) bmInit).c,
      ((List.range 6).foldl (Machine.bmTurn syn.toList) bmInit).l) := rfl

/-- RS.LOCATOR on the syndromes of up to three errors (43 R174). -/
theorem rsLocator_of_errors {syn : Syndromes} {E : Finset ℕ} {e x : ℕ → F}
    (hsyn : φ.poly syn.toList = syndromePoly E e x) (hcard : E.card ≤ 3) (hx : Set.InjOn x E)
    (hx0 : ∀ i ∈ E, x i ≠ 0) (he : ∀ i ∈ E, e i ≠ 0) :
    ∃ l, rsLocator syn = (l, E.card) ∧ φ.poly l = errorLocator E x ∧ l.length = E.card + 1 := by
  have hgen := generates_errorLocator E e x
  rw [← hsyn] at hgen
  rw [rsLocator_eq_foldl_range]
  obtain ⟨hinv, hle⟩ := bmInv_foldl hgen (errorLocator_coeff_zero E x) le_rfl
  generalize (List.range 6).foldl (Machine.bmTurn syn.toList) bmInit = st at hinv hle ⊢
  have hgenerates : Generates (1 + X * syndromePoly E e x) 6 st.l (φ.poly st.c) := by
    simpa only [hsyn] using hinv.generates
  have hpoly := eq_errorLocator_of_generates hgenerates hinv.coeff_zero hle hcard hx hx0 he
  have hdeg := natDegree_errorLocator hx0
  have hne : errorLocator E x ≠ 0 := fun h => by simpa [h] using errorLocator_coeff_zero E x
  have hl : st.l = E.card := le_antisymm hle (by rw [← hdeg, ← hpoly]; exact hinv.generates.natDegree_le)
  refine ⟨trimPoly st.c, Prod.ext rfl hl, (φ.poly_trimPoly _).trans hpoly, ?_⟩
  rw [φ.length_trimPoly (hpoly ▸ hne), hpoly, hdeg]

/-! ### RS.FORNEY -/

theorem poly_rsOmega_of_errors {syn : Syndromes} {c : List Byte} {E : Finset ℕ} {e x : ℕ → F}
    (hsyn : φ.poly syn.toList = syndromePoly E e x) (hc : φ.poly c = errorLocator E x) (hcard : E.card ≤ 6) :
    φ.poly (rsOmega syn c) = errorEvaluator E e x := by
  ext n
  rw [rsOmega, poly_take_coeff, poly_polyMul, hsyn, hc]
  split
  case isTrue hn => exact syndromePoly_mul_errorLocator_coeff hn
  case isFalse hn => exact (errorEvaluator_coeff_eq_zero (by omega)).symm

end ByteField

end Sys2Proof.Machine
end

section
/-! PROOFS. RS.DEC (spec/43_rs_decode.md R170, R171, R177): the syndromes of a word are the power sums of its difference
from a codeword, so there is one codeword within distance 3, and the composition of R177 finds it. -/

namespace Sys2Proof.Machine

open Polynomial

/-! ### Two words of one length -/

/-- The positions at which `c` and `r` differ. -/
def errorPositions (c r : List Byte) : Finset ℕ := {i ∈ Finset.range r.length | c.getD i 0 ≠ r.getD i 0}

/-- What `r` has in place of `c` at position `i`, as a sum. -/
def errorValue (c r : List Byte) (i : ℕ) : Byte := r.getD i 0 ^^^ c.getD i 0

theorem mem_errorPositions {c r : List Byte} {i : ℕ} :
    i ∈ errorPositions c r ↔ i < r.length ∧ c.getD i 0 ≠ r.getD i 0 := by
  simp only [errorPositions, Finset.mem_filter, Finset.mem_range]

theorem errorValue_ne_zero {c r : List Byte} {i : ℕ} (hi : i ∈ errorPositions c r) : errorValue c r i ≠ 0#8 :=
  fun h => (mem_errorPositions.1 hi).2 (BitVec.xor_eq_zero_iff.1 h).symm

theorem errorPositions_subset_range (c r : List Byte) : errorPositions c r ⊆ Finset.range r.length :=
  Finset.filter_subset _ _

theorem dist_eq_card {c r : List Byte} (hlen : c.length = r.length) : dist c r = (errorPositions c r).card := by
  rw [errorPositions, Finset.card_filter]
  induction c generalizing r with
  | nil => obtain rfl := List.eq_nil_of_length_eq_zero hlen.symm; rfl
  | cons a c ih =>
    cases r with
    | nil => simp at hlen
    | cons b r =>
      rw [dist, List.length_cons, Finset.sum_range_succ', ih (by simpa using hlen), Nat.add_comm]
      simp only [List.getD_cons_succ, List.getD_cons_zero, ite_not]

theorem eq_of_errorPositions_eq_empty {c r : List Byte} (hlen : c.length = r.length) (h : errorPositions c r = ∅) :
    c = r := by
  refine List.ext_getElem hlen fun i hi hi' => ?_
  by_contra hne
  have : i ∈ errorPositions c r := mem_errorPositions.2 ⟨hi', by
    rwa [List.getD_eq_getElem _ _ hi, List.getD_eq_getElem _ _ hi']⟩
  simp [h] at this

@[simp] theorem dist_self (r : List Byte) : dist r r = 0 := by
  rw [dist_eq_card rfl, Finset.card_eq_zero, errorPositions]
  simp

/-- The triangle inequality, for the distances to a third word. -/
theorem errorPositions_card_le {c c' r : List Byte} (hc : c.length = r.length) (hc' : c'.length = r.length) :
    (errorPositions c c').card ≤ dist c r + dist c' r := by
  rw [dist_eq_card hc, dist_eq_card hc']
  refine (Finset.card_le_card fun i hi => ?_).trans (Finset.card_union_le _ _)
  simp only [Finset.mem_union, mem_errorPositions] at hi ⊢
  grind

/-! ### Syndromes -/

theorem synZero_rsSyn_iff (r : List Byte) : synZero (rsSyn r) = true ↔ InCode r.length r := by
  simp only [synZero, rsSyn, InCode, Vector.toList_mk, List.all_cons, List.all_nil, Bool.and_true, Bool.and_eq_true,
    beq_iff_eq, true_and]
  constructor
  · rintro ⟨h0, h1, h2, h3, h4, h5⟩ j hj
    interval_cases j <;> assumption
  · intro h
    exact ⟨h 0 (by decide), h 1 (by decide), h 2 (by decide), h 3 (by decide), h 4 (by decide), h 5 (by decide)⟩

theorem rsSyn_getD (r : List Byte) {j : ℕ} (hj : j < 6) : (rsSyn r).toList.getD j 0 = syndrome r j := by
  interval_cases j <;> rfl

namespace ByteField

variable {F : Type} [Field F] (φ : ByteField F)

/-- The locator of position `i` of a word of `n` bytes (43 R175). -/
def locator (n i : ℕ) : F := φ.val (gfPow (n - 1 - i))

theorem locator_ne_zero (n i : ℕ) : φ.locator n i ≠ 0 := mt φ.val_eq_zero_iff.1 (gfPow_ne_zero _)

theorem locator_injOn {n : ℕ} (hn : n ≤ 255) : Set.InjOn (φ.locator n) (Finset.range n) := by
  intro i hi j hj h
  simp only [Finset.coe_range, Set.mem_Iio] at hi hj
  have := gfPow_injOn (Set.mem_Iio.2 (by omega)) (Set.mem_Iio.2 (by omega)) (φ.val_injective h)
  omega

theorem locator_injOn_errorPositions {r : List Byte} (hn : r.length ≤ 255) (c : List Byte) :
    Set.InjOn (φ.locator r.length) (errorPositions c r) :=
  (φ.locator_injOn hn).mono (Finset.coe_subset.2 (errorPositions_subset_range c r))

theorem val_syndrome (w : List Byte) (j : ℕ) :
    φ.val (syndrome w j) = ∑ i ∈ Finset.range w.length, φ.val (w.getD i 0) * φ.locator w.length i ^ j := by
  rw [syndrome, codec_fcr, Nat.cast_zero, zero_add, gfExp_natCast, val_gfPeval]
  refine Finset.sum_congr rfl fun i _ => ?_
  rw [locator, val_gfPow, φ.val_gfPow (w.length - 1 - i), pow_right_comm]

/-- The syndromes of two words differ by the power sums of the differences (43 R173). -/
theorem val_syndrome_xor {c r : List Byte} (hlen : c.length = r.length) (j : ℕ) :
    φ.val (syndrome r j ^^^ syndrome c j) =
      ∑ i ∈ errorPositions c r, φ.val (errorValue c r i) * φ.locator r.length i ^ j := by
  rw [φ.val_xor, val_syndrome, val_syndrome, hlen, ← Finset.sum_add_distrib]
  simp only [← add_mul, ← φ.val_xor]
  refine (Finset.sum_subset (errorPositions_subset_range c r) fun i hi hi' => ?_).symm
  have same : c.getD i 0 = r.getD i 0 := by
    by_contra hne
    exact hi' (mem_errorPositions.2 ⟨Finset.mem_range.1 hi, hne⟩)
  rw [same, BitVec.xor_self, φ.val_zero, zero_mul]

/-- The errors of `r` as a word near the codeword `c`: values and locators as elements of the field. -/
theorem poly_rsSyn {c r : List Byte} (hc : InCode r.length c) :
    φ.poly (rsSyn r).toList =
      syndromePoly (errorPositions c r) (fun i => φ.val (errorValue c r i)) (φ.locator r.length) := by
  ext j
  rw [poly_coeff]
  by_cases hj : j < 6
  · rw [rsSyn_getD r hj, syndromePoly_coeff hj, ← φ.val_syndrome_xor hc.1, hc.2 j hj]; simp
  · rw [syndromePoly_coeff_eq_zero (by omega), List.getD_eq_default _ _ (by simpa using hj)]; simp

end ByteField

/-! ### The code's distance -/

/-- Two codewords that differ in at most six positions are equal (43 R171). -/
theorem eq_of_inCode_of_card_le {n : ℕ} {c c' : List Byte} (hn : n ≤ 255) (hc : InCode n c) (hc' : InCode n c')
    (hcard : (errorPositions c c').card ≤ 6) : c = c' := by
  obtain ⟨F, _, ⟨φ⟩⟩ := exists_byteField
  have hlen : c.length = c'.length := hc.1.trans hc'.1.symm
  refine eq_of_errorPositions_eq_empty hlen (Finset.eq_empty_of_forall_notMem fun i hi => ?_)
  have hx := φ.locator_injOn_errorPositions (hc'.1.trans_le hn) c
  refine errorValue_ne_zero hi (φ.val_eq_zero_iff.1 ?_)
  refine eq_zero_of_powerSums_eq_zero (u := fun i => φ.val (errorValue c c' i)) hx (fun j hj => ?_) i hi
  rw [← φ.val_syndrome_xor hlen, hc.2 j (hj.trans_le hcard), hc'.2 j (hj.trans_le hcard), BitVec.xor_self, φ.val_zero]

/-- Settles O19: two codewords near one word differ in at most six positions, and six power sums of the differences
are zero. -/
theorem codewordWithinThreeIsUnique : Obligations.CodewordWithinThreeIsUnique := by
  rintro n r c c' - hn rfl hc hc' hd hd'
  exact eq_of_inCode_of_card_le hn hc hc' ((errorPositions_card_le hc.1 hc'.1).trans (by omega))

/-! ### RS.CHIEN and RS.FORNEY on a word with errors -/

theorem rsChien_nodup (c : List Byte) (n : Nat) : (rsChien c n).Nodup := List.nodup_range.filter _

theorem forneyAt_eq_some_iff {omega deriv : List Byte} {n i : Nat} {y : Byte} :
    forneyAt omega deriv n i = some y ↔ polyEval deriv (gfExp (-(wireExponent n i))) ≠ 0#8 ∧
      gfDiv (gfMul (gfExp (wireExponent n i)) (polyEval omega (gfExp (-(wireExponent n i)))))
        (polyEval deriv (gfExp (-(wireExponent n i)))) = y ∧ y ≠ 0#8 := by
  simp only [forneyAt, codec_fcr, Nat.cast_zero, sub_zero, mul_one]
  generalize gfDiv _ _ = value
  split
  case isTrue hdivisor => exact ⟨nofun, fun h => absurd hdivisor h.1⟩
  case isFalse hdivisor =>
    split
    case isTrue hvalue => exact ⟨nofun, fun ⟨_, heq, hne⟩ => absurd (heq ▸ hvalue) hne⟩
    case isFalse hvalue =>
      rw [Option.some_inj]
      exact ⟨fun heq => ⟨hdivisor, heq, heq ▸ hvalue⟩, fun h => h.2.1⟩

theorem forneyAll_cons_eq_some_iff {omega deriv : List Byte} {n i : Nat} {pos : List Nat} {mags : List Byte} :
    forneyAll omega deriv n (i :: pos) = some mags ↔
      ∃ y ys, forneyAt omega deriv n i = some y ∧ forneyAll omega deriv n pos = some ys ∧ mags = y :: ys := by
  rw [forneyAll]
  split
  case h_1 y ys hy hys => simp [hy, hys, eq_comm]
  case h_2 hnone => exact ⟨nofun, fun ⟨y, ys, hy, hys, _⟩ => (hnone y ys hy hys).elim⟩

/-- RS.FORNEY succeeds exactly where the formula does at every position (43 R176). -/
theorem forneyAll_eq_some_iff {omega deriv : List Byte} {n : Nat} {pos : List Nat} {mags : List Byte} :
    forneyAll omega deriv n pos = some mags ↔
      ∃ e : Nat → Byte, (∀ i ∈ pos, forneyAt omega deriv n i = some (e i)) ∧ mags = pos.map e := by
  constructor
  · intro h
    refine ⟨fun i => (forneyAt omega deriv n i).getD 0, ?_⟩
    induction pos generalizing mags with
    | nil => simpa [forneyAll, eq_comm] using h
    | cons i pos ih =>
      obtain ⟨y, ys, hy, hys, rfl⟩ := forneyAll_cons_eq_some_iff.1 h
      obtain ⟨heach, hmap⟩ := ih hys
      exact ⟨List.forall_mem_cons.2 ⟨by simp [hy], heach⟩, by rw [List.map_cons, hy, Option.getD_some, ← hmap]⟩
  · rintro ⟨e, heach, rfl⟩
    induction pos with
    | nil => rfl
    | cons i pos ih =>
      obtain ⟨hi, hpos⟩ := List.forall_mem_cons.1 heach
      exact forneyAll_cons_eq_some_iff.2 ⟨e i, pos.map e, hi, ih hpos, rfl⟩

section Errors

variable {F : Type} [Field F] (φ : ByteField F) {c r l : List Byte}

theorem mem_rsChien_of_errors (hn : r.length ≤ 255)
    (hl : φ.poly l = errorLocator (errorPositions c r) (φ.locator r.length)) {i : ℕ} :
    i ∈ rsChien l r.length ↔ i ∈ errorPositions c r := by
  have root : polyEval l (gfExp (-((r.length - 1 - i : ℕ) : ℤ))) = 0#8 ↔
      ∃ j ∈ errorPositions c r, φ.locator r.length j = φ.locator r.length i := by
    rw [← φ.val_eq_zero_iff, φ.val_polyEval, φ.val_gfExp_neg, hl]
    exact eval_inv_errorLocator_eq_zero_iff (φ.locator_ne_zero _ _)
  rw [mem_rsChien]
  constructor
  · rintro ⟨hi, h⟩
    obtain ⟨j, hj, hij⟩ := root.1 h
    have hj' := errorPositions_subset_range c r hj
    rwa [← φ.locator_injOn hn (Finset.mem_coe.2 hj') (by simpa using hi) hij]
  · exact fun h => ⟨(mem_errorPositions.1 h).1, root.2 ⟨i, h, rfl⟩⟩

theorem length_rsChien_of_errors (hn : r.length ≤ 255)
    (hl : φ.poly l = errorLocator (errorPositions c r) (φ.locator r.length)) :
    (rsChien l r.length).length = (errorPositions c r).card := by
  rw [← List.toFinset_card_of_nodup (rsChien_nodup _ _)]
  congr 1
  ext i
  rw [List.mem_toFinset, mem_rsChien_of_errors φ hn hl]

/-- The value of the other errors' locator at the inverse of the locator of error `k`: the factor that the divisor and
the numerator of Forney's formula share (43 R176). -/
noncomputable def othersAt (c r : List Byte) (k : ℕ) : F :=
  (errorLocator ((errorPositions c r).erase k) (φ.locator r.length)).eval (φ.locator r.length k)⁻¹

theorem othersAt_ne_zero (hn : r.length ≤ 255) {k : ℕ} (hk : k ∈ errorPositions c r) : othersAt φ c r k ≠ 0 :=
  eval_inv_errorLocator_erase_ne_zero (φ.locator_injOn_errorPositions hn c) hk (φ.locator_ne_zero _ k)

theorem val_polyDeriv_of_errors (hl : φ.poly l = errorLocator (errorPositions c r) (φ.locator r.length)) {k : ℕ}
    (hk : k ∈ errorPositions c r) :
    φ.val (polyEval (polyDeriv l) (gfExp (-((r.length - 1 - k : ℕ) : ℤ)))) =
      φ.locator r.length k * othersAt φ c r k := by
  have := φ.charP_two
  rw [φ.val_polyEval, φ.val_gfExp_neg, φ.poly_polyDeriv, hl, ← CharTwo.neg_eq (φ.locator r.length k)]
  exact eval_inv_derivative_errorLocator hk (φ.locator_ne_zero _ k)

theorem val_rsOmega_of_errors (hc : InCode r.length c) (hcard : (errorPositions c r).card ≤ 6)
    (hl : φ.poly l = errorLocator (errorPositions c r) (φ.locator r.length)) {k : ℕ} (hk : k ∈ errorPositions c r) :
    φ.val (polyEval (rsOmega (rsSyn r) l) (gfExp (-((r.length - 1 - k : ℕ) : ℤ)))) =
      φ.val (errorValue c r k) * othersAt φ c r k := by
  rw [φ.val_polyEval, φ.val_gfExp_neg, ByteField.poly_rsOmega_of_errors (φ.poly_rsSyn hc) hl hcard]
  exact eval_inv_errorEvaluator hk (φ.locator_ne_zero _ k)

/-- Forney's formula gives the value of each error (43 R176). -/
theorem forneyAt_of_errors (hn : r.length ≤ 255) (hc : InCode r.length c) (hcard : (errorPositions c r).card ≤ 6)
    (hl : φ.poly l = errorLocator (errorPositions c r) (φ.locator r.length)) {k : ℕ} (hk : k ∈ errorPositions c r) :
    forneyAt (rsOmega (rsSyn r) l) (polyDeriv l) r.length k = some (errorValue c r k) := by
  have hxk := φ.locator_ne_zero r.length k
  have hothers := othersAt_ne_zero φ hn hk
  have hdivisor := val_polyDeriv_of_errors φ hl hk
  have hdivisor_ne : polyEval (polyDeriv l) (gfExp (-((r.length - 1 - k : ℕ) : ℤ))) ≠ 0#8 := by
    rw [Ne, ← φ.val_eq_zero_iff, hdivisor]
    exact mul_ne_zero hxk hothers
  rw [forneyAt_eq_some_iff, wireExponent_eq_natCast (mem_errorPositions.1 hk).1]
  refine ⟨hdivisor_ne, φ.val_injective ?_, errorValue_ne_zero hk⟩
  rw [φ.val_gfDiv hdivisor_ne, φ.val_gfMul, val_rsOmega_of_errors φ hc hcard hl hk, hdivisor, gfExp_natCast]
  exact (mul_div_mul_left _ _ hxk).trans (mul_div_cancel_right₀ _ hothers)

end Errors

/-! ### The corrected word -/

theorem correctWord_getD {w : List Byte} {pos : List Nat} (hnodup : pos.Nodup) (hlt : ∀ i ∈ pos, i < w.length)
    (e : Nat → Byte) (i : Nat) :
    (correctWord w (pos.zip (pos.map e))).getD i 0 = if i ∈ pos then w.getD i 0 ^^^ e i else w.getD i 0 := by
  induction pos generalizing w with
  | nil => rfl
  | cons j pos ih =>
    obtain ⟨hj, hnodup⟩ := List.nodup_cons.1 hnodup
    obtain ⟨hjlt, hlt⟩ := List.forall_mem_cons.1 hlt
    rw [List.map_cons, List.zip_cons_cons, correctWord, ih hnodup (by simpa using hlt)]
    by_cases hij : i = j
    · subst hij; simp [hj, hjlt]
    · simp [hij, Ne.symm hij]

/-- Adding nonzero bytes at `k` different positions gives a word at distance `k`. -/
theorem dist_correctWord {r : List Byte} {pos : List Nat} (hnodup : pos.Nodup) (hlt : ∀ i ∈ pos, i < r.length)
    {e : Nat → Byte} (he : ∀ i ∈ pos, e i ≠ 0#8) : dist (correctWord r (pos.zip (pos.map e))) r = pos.length := by
  rw [dist_eq_card (correctWord_length _ _), ← List.toFinset_card_of_nodup hnodup]
  congr 1
  ext i
  rw [mem_errorPositions, correctWord_getD hnodup hlt, List.mem_toFinset]
  by_cases hi : i ∈ pos
  · simp [hi, hlt i hi, he i hi]
  · simp [hi]

theorem correctWord_eq_of_errors {c r : List Byte} (hlen : c.length = r.length) {pos : List Nat} (hnodup : pos.Nodup)
    (hpos : ∀ i, i ∈ pos ↔ i ∈ errorPositions c r) : correctWord r (pos.zip (pos.map (errorValue c r))) = c := by
  have hlt (i) (hi : i ∈ pos) : i < r.length := (mem_errorPositions.1 ((hpos i).1 hi)).1
  refine List.ext_getElem (by simp [hlen]) fun i hi hi' => ?_
  rw [← List.getD_eq_getElem _ 0 hi, ← List.getD_eq_getElem _ 0 hi', correctWord_getD hnodup hlt]
  split
  case isTrue h => rw [errorValue, ← BitVec.xor_assoc, BitVec.xor_self, BitVec.zero_xor]
  case isFalse h =>
    rw [hpos, mem_errorPositions] at h
    by_contra hne
    exact h ⟨hlen ▸ hi', Ne.symm hne⟩

/-! ### The composition of R177 -/

theorem rsDec_of_synZero {r : List Byte} (hz : synZero (rsSyn r) = true) : rsDec r = .ok (r.take (r.length - 6)) 0 := by
  simp [rsDec, hz]

/-- `RS.DEC_ref` where none of its checks fails (43 R177). -/
theorem rsDec_eq_ok {r l mags : List Byte} {v : Nat} (hz : ¬ synZero (rsSyn r) = true)
    (hloc : rsLocator (rsSyn r) = (l, v)) (hlen : l.length = v + 1) (hv : v ≤ 3)
    (hpos : (rsChien l r.length).length = v) (hmags : rsForney (rsSyn r) l (rsChien l r.length) r.length = some mags)
    (hw : synZero (rsSyn (correctWord r ((rsChien l r.length).zip mags))) = true) :
    rsDec r = .ok ((correctWord r ((rsChien l r.length).zip mags)).take (r.length - 6)) v := by
  have hv' : ¬ 3 < v := by omega
  simp [rsDec, hz, hloc, hlen, hv', hpos, hmags, hw]

/-- A word within distance 3 of a codeword is decoded to it (43 R178). -/
theorem rsDec_eq_ok_of_dist_le {c r : List Byte} (hn : r.length ≤ 255) (hc : InCode r.length c) (hd : dist c r ≤ 3) :
    rsDec r = .ok (c.take (r.length - 6)) (dist c r) := by
  by_cases hz : synZero (rsSyn r) = true
  · have hr : InCode r.length r := (synZero_rsSyn_iff r).1 hz
    obtain rfl : c = r := eq_of_inCode_of_card_le hn hc hr (by rw [← dist_eq_card hc.1]; omega)
    rw [rsDec_of_synZero hz, dist_self]
  · obtain ⟨F, _, ⟨φ⟩⟩ := exists_byteField
    rw [dist_eq_card hc.1] at hd ⊢
    obtain ⟨l, hloc, hpoly, hlen⟩ := ByteField.rsLocator_of_errors (φ.poly_rsSyn hc) hd
      (φ.locator_injOn_errorPositions hn c) (fun i _ => φ.locator_ne_zero _ i)
      (fun i hi => mt φ.val_eq_zero_iff.1 (errorValue_ne_zero hi))
    have hpos (i : ℕ) : i ∈ rsChien l r.length ↔ i ∈ errorPositions c r := mem_rsChien_of_errors φ hn hpoly
    have hword := correctWord_eq_of_errors hc.1 (rsChien_nodup l r.length) hpos
    have answer := rsDec_eq_ok hz hloc hlen hd (length_rsChien_of_errors φ hn hpoly)
      (forneyAll_eq_some_iff.2 ⟨errorValue c r, fun i hi =>
        forneyAt_of_errors φ hn hc (by omega) hpoly ((hpos i).1 hi), rfl⟩)
      (by rw [hword, synZero_rsSyn_iff, hc.1]; exact hc)
    rwa [hword] at answer

/-- An `Ok` answer is a codeword's Block, with its distance (43 R177: the last check and the magnitudes' one). -/
theorem exists_inCode_of_rsDec_eq_ok {r b : List Byte} {e : Nat} (h : rsDec r = .ok b e) :
    ∃ c, InCode r.length c ∧ dist c r = e ∧ e ≤ 3 ∧ b = c.take (r.length - 6) := by
  obtain ⟨hz, rfl, rfl⟩ | ⟨-, he, hpos, mags, hmags, hw, rfl⟩ := rsDec_ok_cases h
  · exact ⟨r, (synZero_rsSyn_iff r).1 hz, dist_self r, by omega, rfl⟩
  · obtain ⟨y, hy, rfl⟩ := forneyAll_eq_some_iff.1 hmags
    refine ⟨_, ?_, ?_, he, rfl⟩
    · simpa only [correctWord_length] using (synZero_rsSyn_iff _).1 hw
    · rw [dist_correctWord (rsChien_nodup _ _) (fun i hi => (mem_rsChien.1 hi).1)
        (fun i hi => (forneyAt_eq_some_iff.1 (hy i hi)).2.2), hpos]

theorem rsDecContract_rsDec {r : List Byte} (hn : r.length ≤ 255) : RsDecContract r (rsDec r) := by
  cases h : rsDec r with
  | ok b e => exact exists_inCode_of_rsDec_eq_ok h
  | uncorrectable =>
    intro c hc
    by_contra! hd
    exact nomatch h.symm.trans (rsDec_eq_ok_of_dist_le hn hc hd)

/-- Settles O24: an `Ok` answer passed the check of the corrected word, and a word near a codeword gives `Ok`. -/
theorem rsDecMeetsItsContract : Obligations.RsDecMeetsItsContract := fun r s =>
  ⟨exec_rsDec r s, rsDecContract_rsDec r.property.2⟩

end Sys2Proof.Machine
end

section
/-! PROOFS. The frame serializer (spec/44_framer_encode.md): a payload that is not empty is cut after its first 249
bytes or at its end, so every fact about FR.SPLIT is an induction over the payload that drops 249 bytes each time. -/

namespace Sys2Proof.Machine

/-! ### The dispatch of the three rows -/

theorem exec_frSplit (y : List Byte) (s : State) : exec (.frSplit y) s = execFrSplit y s := rfl

theorem exec_frPack (b : Block) (s : State) : exec (.frPack b) s = execFrPack b s := rfl

theorem exec_frEnc (y : List Byte) (s : State) : exec (.frEnc y) s = execFrEnc y s := rfl

/-! ### FR.SPLIT -/

@[simp] theorem frSplitFrom_nil (tries : Nat) : frSplitFrom tries [] = [] := by cases tries <;> rfl

/-- A last Block shorter than 249 bytes is cut like the others, and leaves nothing (44 R200). -/
theorem frSplitFrom_succ (tries : Nat) {y : List Byte} (hy : y ≠ []) :
    frSplitFrom (tries + 1) y = y.take 249 :: frSplitFrom tries (y.drop 249) := by
  rw [frSplitFrom, if_neg (mt List.length_eq_zero_iff.1 hy), maxBlock_eq]
  split
  · rfl
  · rw [List.take_of_length_le (by omega), List.drop_of_length_le (by omega), frSplitFrom_nil]

/-- An induction over a payload that drops its first Block each time. -/
theorem payload_induction {motive : List Byte → Prop} (nil : motive [])
    (cut : ∀ y, y ≠ [] → motive (y.drop 249) → motive y) (y : List Byte) : motive y := by
  by_cases hy : y = []
  · exact hy ▸ nil
  · exact cut y hy (payload_induction nil cut (y.drop 249))
termination_by y.length
decreasing_by have := List.length_pos_iff.2 hy; rw [List.length_drop]; omega

/-- As many tries as the payload has bytes are enough. -/
theorem frSplitFrom_eq_frSplit {tries : Nat} {y : List Byte} (h : y.length ≤ tries) :
    frSplitFrom tries y = frSplit y := by
  suffices ∀ k k', y.length ≤ k → y.length ≤ k' → frSplitFrom k y = frSplitFrom k' y from this _ _ h le_rfl
  induction y using payload_induction with
  | nil => simp
  | cut y hy ih =>
    have hpos := List.length_pos_iff.2 hy
    intro k k' hk hk'
    obtain ⟨k, rfl⟩ := Nat.exists_eq_add_one_of_ne_zero (by omega : k ≠ 0)
    obtain ⟨k', rfl⟩ := Nat.exists_eq_add_one_of_ne_zero (by omega : k' ≠ 0)
    rw [frSplitFrom_succ k hy, frSplitFrom_succ k' hy,
      ih (by simp; omega) k k' (by simp; omega) (by simp; omega)]

@[simp] theorem frSplit_nil : frSplit [] = [] := rfl

/-- The recursion of FR.SPLIT, without its bound (44 R200). -/
theorem frSplit_of_ne_nil {y : List Byte} (hy : y ≠ []) : frSplit y = y.take 249 :: frSplit (y.drop 249) := by
  have hpos := List.length_pos_iff.2 hy
  rw [← frSplitFrom_eq_frSplit (Nat.le_succ y.length), frSplitFrom_succ _ hy,
    frSplitFrom_eq_frSplit (by simp)]

@[simp] theorem flatten_frSplit (y : List Byte) : (frSplit y).flatten = y := by
  induction y using payload_induction with
  | nil => rfl
  | cut y hy ih => rw [frSplit_of_ne_nil hy, List.flatten_cons, ih, List.take_append_drop]

@[simp] theorem length_frSplit (y : List Byte) : (frSplit y).length = (y.length + 248) / 249 := by
  induction y using payload_induction with
  | nil => rfl
  | cut y hy ih =>
    have hpos := List.length_pos_iff.2 hy
    rw [frSplit_of_ne_nil hy, List.length_cons, ih, List.length_drop]
    omega

theorem length_of_mem_frSplit {y b : List Byte} (hb : b ∈ frSplit y) : 1 ≤ b.length ∧ b.length ≤ 249 := by
  induction y using payload_induction with
  | nil => cases hb
  | cut y hy ih =>
    have hpos := List.length_pos_iff.2 hy
    rw [frSplit_of_ne_nil hy] at hb
    obtain rfl | hb := List.mem_cons.1 hb
    · rw [List.length_take]
      omega
    · exact ih hb

/-- A Block that another follows is full: a shorter one is the whole rest of the payload. -/
theorem length_of_mem_dropLast_frSplit {y b : List Byte} (hb : b ∈ (frSplit y).dropLast) : b.length = 249 := by
  induction y using payload_induction with
  | nil => cases hb
  | cut y hy ih =>
    rw [frSplit_of_ne_nil hy] at hb
    by_cases hrest : y.drop 249 = []
    · simp [hrest] at hb
    · have hlen := List.length_pos_iff.2 hrest
      rw [frSplit_of_ne_nil hrest, List.dropLast_cons_cons, ← frSplit_of_ne_nil hrest] at hb
      obtain rfl | hb := List.mem_cons.1 hb
      · rw [List.length_drop] at hlen
        rw [List.length_take]
        omega
      · exact ih hb

/-! ### FR.PACK -/

theorem frPack_eq (b : List Byte) : frPack b = BitVec.ofNat 8 (b.length + 6) :: rsEnc b := rfl

@[simp] theorem length_frPack (b : List Byte) : (frPack b).length = b.length + 7 := by simp [frPack_eq]

theorem toNat_lengthByte_frPack {b : List Byte} (hb : b.length ≤ 249) :
    ((frPack b).getD 0 0).toNat = b.length + 6 := by
  rw [frPack_eq, List.getD_cons_zero, BitVec.toNat_ofNat, Nat.mod_eq_of_lt (by omega)]

/-- The EOF frame (44 R202): the empty Block's parity is zero. -/
theorem frPack_nil : frPack [] = [0x06, 0, 0, 0, 0, 0, 0] := by decide +kernel

/-- The Blocks' bytes, and seven more in each frame: the length byte and the parity (44 R203). -/
theorem length_flatten_map_frPack (l : List (List Byte)) :
    (l.map frPack).flatten.length = l.flatten.length + 7 * l.length := by
  induction l with
  | nil => rfl
  | cons b l ih =>
    simp only [List.map_cons, List.flatten_cons, List.length_append, List.length_cons, length_frPack, ih]
    omega

/-! ### FR.ENC -/

theorem frEnc_eq (y : List Byte) : frEnc y = (frSplit y).map frPack ++ [[0x06, 0, 0, 0, 0, 0, 0]] := by
  rw [frEnc, frPack_nil]

theorem length_flatten_frEnc (y : List Byte) :
    (frEnc y).flatten.length = y.length + 7 * ((y.length + 248) / 249 + 1) := by
  rw [frEnc, List.flatten_append, List.length_append, length_flatten_map_frPack, flatten_frSplit, length_frSplit,
    List.flatten_singleton, length_frPack, List.length_nil]
  omega

/-- No frame of a Block has the length byte of the EOF frame: no Block is empty (44 R200, R202). -/
theorem seven_le_lengthByte_of_mem {y f : List Byte} (hf : f ∈ (frSplit y).map frPack) : 7 ≤ (f.getD 0 0).toNat := by
  obtain ⟨b, hb, rfl⟩ := List.mem_map.1 hf
  obtain ⟨hpos, hle⟩ := length_of_mem_frSplit hb
  rw [toNat_lengthByte_frPack hle]
  omega

/-! ### The statements -/

/-- Settles O26, by inductions over the payload that drop a Block each time. -/
theorem splitCutsThePayloadIntoBlocks : Obligations.SplitCutsThePayloadIntoBlocks := fun y s =>
  ⟨frSplit y, exec_frSplit y s, flatten_frSplit y, length_frSplit y, fun _ => length_of_mem_frSplit,
    fun _ => length_of_mem_dropLast_frSplit⟩

/-- Settles O27: a frame is a Block with seven more bytes, and FR.SPLIT gives the Blocks' number and lengths. -/
theorem framesOfAPayload : Obligations.FramesOfAPayload := by
  refine ⟨fun b s => ?pack, fun y s => ?enc⟩
  case pack => exact ⟨frPack b.val, exec_frPack b s, length_frPack _, toNat_lengthByte_frPack b.property, rfl⟩
  case enc =>
    refine ⟨(frSplit y).map frPack, ?_, rfl, ?_, fun _ => seven_le_lengthByte_of_mem, ?_⟩
    · rw [exec_frEnc, execFrEnc, frEnc_eq]
    · rw [List.length_map, length_frSplit]
    · rw [← frEnc_eq, length_flatten_frEnc]

end Sys2Proof.Machine
end

section
/-! PROOFS. FR.DEC on the frames that FR.ENC makes (spec/45_framer_decode.md): it reads a frame with no error back into
its Block, one recursion a frame, and stops at the EOF frame whatever follows it. -/

namespace Sys2Proof.Machine

/-- A codeword as it was sent is decoded into its Block with no error (43 R170). -/
@[simp] theorem rsDec_rsEnc (m : List Byte) : rsDec (rsEnc m) = .ok m 0 := by
  rw [rsDec_of_synZero ((synZero_rsSyn_iff _).2 (inCode_rsEnc (rsEnc_length m).symm)), rsEnc_length,
    Nat.add_sub_cancel, take_rsEnc]

/-- A frame before anything else gives FR.DEC its Block; the EOF frame ends the stream (45 R226). -/
theorem frDecFrom_frPack_append (tries : Nat) {b : List Byte} (hb : b.length ≤ 249) (y : List Byte) (m : Nat) :
    frDecFrom (tries + 1) (frPack b ++ y) m =
      if b.length = 0 then ⟨[], .done, m, 7⟩
      else
        { frDecFrom tries y m with
          blocks := b :: (frDecFrom tries y m).blocks
          consumed := b.length + 7 + (frDecFrom tries y m).consumed } := by
  have hp : (BitVec.ofNat 8 (b.length + 6)).toNat = (rsEnc b).length := by
    rw [BitVec.toNat_ofNat, Nat.mod_eq_of_lt (by omega), rsEnc_length]
  have hfits : ¬ (rsEnc b ++ y).length < (rsEnc b).length := by simp
  have hlong : frTooShort (BitVec.ofNat 8 (b.length + 6)) = false := by
    rw [frTooShort_eq, hp, rsEnc_length, decide_eq_false_iff_not]
    omega
  rw [frPack_eq, List.cons_append, frDecFrom]
  simp only [hp, if_neg hfits, hlong, List.take_left, List.drop_left, rsDec_rsEnc, Nat.max_zero]
  by_cases hempty : b.length = 0
  · simp [hempty]
  · have hframe : 1 + (b.length + 6) = b.length + 7 := by omega
    simp [hempty, hframe]

/-- The frames of nonempty Blocks and the EOF frame are read back; what follows them is not read (45 R226). -/
theorem frDecFrom_map_frPack_append {l : List (List Byte)} (hl : ∀ b ∈ l, 1 ≤ b.length ∧ b.length ≤ 249)
    {tries : Nat} (htries : l.length < tries) (y : List Byte) (m : Nat) :
    frDecFrom tries ((l.map frPack ++ [frPack []]).flatten ++ y) m =
      ⟨l, .done, m, (l.map frPack ++ [frPack []]).flatten.length⟩ := by
  induction l generalizing tries with
  | nil =>
    obtain ⟨k, rfl⟩ := Nat.exists_eq_add_one_of_ne_zero (Nat.ne_zero_of_lt htries)
    simpa using frDecFrom_frPack_append k (b := []) (Nat.zero_le _) y m
  | cons b l ih =>
    obtain ⟨k, rfl⟩ := Nat.exists_eq_add_one_of_ne_zero (Nat.ne_zero_of_lt htries)
    obtain ⟨⟨hpos, hle⟩, hrest⟩ := List.forall_mem_cons.1 hl
    rw [List.map_cons, List.cons_append, List.flatten_cons, List.append_assoc, frDecFrom_frPack_append k hle,
      if_neg (by omega), ih hrest (Nat.lt_of_succ_lt_succ htries), List.length_append, length_frPack]

/-- FR.DEC reads the frames of a payload back into its Blocks, and nothing after them (45 R226). -/
theorem frDec_frEnc_append (s y : List Byte) (m : Nat) :
    frDec ((frEnc s).flatten ++ y) m = ⟨frSplit s, .done, m, (frEnc s).flatten.length⟩ := by
  refine frDecFrom_map_frPack_append (fun _ => length_of_mem_frSplit) ?_ y m
  rw [List.length_append, length_flatten_frEnc, length_frSplit]
  omega

end Sys2Proof.Machine
end

section
/-! PROOFS. The bitstream codec (spec/46_bitstream_codec.md): the groups of a payload's bits are the bytes of its frames,
so both facts about BS.DEC of BS.ENC are that of FR.DEC of FR.ENC with more bytes after the EOF frame. -/

namespace Sys2Proof.Machine

/-! ### The dispatch of the two rows -/

theorem exec_bsEnc (y : List Byte) (s : State) : exec (.bsEnc y) s = execBsEnc y s := rfl

theorem exec_bsDec (z : List Bit) (s : State) : exec (.bsDec z) s = execBsDec z s := rfl

/-! ### BS.ENC and BS.DEC -/

/-- Bits after whole bytes are grouped by themselves, however many they are (40 R115). -/
theorem bpGroup_bpExpand_append_eq (o : BitOrder) (y : List Byte) (z : List Bit) :
    bpGroup o (bpExpand o y ++ z) = y ++ bpGroup o z := by
  induction y with
  | nil => rfl
  | cons b y ih => rw [bpExpand_cons, List.append_assoc, bpGroup_append, tobyte_tobits, ih, List.cons_append]

theorem length_bsEnc (o : BitOrder) (y : List Byte) :
    (bsEnc o y).length = 8 * (y.length + 7 * ((y.length + 248) / 249 + 1)) := by
  rw [bsEnc, bpExpand_length, length_flatten_frEnc]

/-- BS.DEC takes the bits of a payload and leaves those after the EOF frame (46 R253, R254). -/
theorem bsDec_bsEnc_append (o : BitOrder) (y : List Byte) (z : List Bit) :
    bsDec o (bsEnc o y ++ z) = ⟨frSplit y, .done, 0, (bsEnc o y).length⟩ := by
  rw [bsDec, bsEnc, bpGroup_bpExpand_append_eq, frDec_frEnc_append, bpExpand_length]

/-! ### The statements -/

/-- Settles O32: the case of no bits after the EOF frame. -/
theorem bitstreamRoundTrip : Obligations.BitstreamRoundTrip :=
  ⟨exec_bsDec, fun o y => by simpa using bsDec_bsEnc_append o y []⟩

/-- Settles O31: eight bits for each byte of the frames. -/
theorem bsEncLength : Obligations.BsEncLength := fun y s =>
  ⟨bsEnc .lsbFirst y, exec_bsEnc y s, rfl, length_bsEnc .lsbFirst y⟩

/-- Settles O33: with bits after the EOF frame or without, BS.DEC answers the same. -/
theorem bitsAfterEofAreIgnored : Obligations.BitsAfterEofAreIgnored := fun o y g => by
  rw [bsDec_bsEnc_append, bitstreamRoundTrip.2]

end Sys2Proof.Machine
end

section
/-! PROOFS. The START commands (spec/47_engines.md R272, R286): the word of either is a write of CSR6, whose bits 0 and 1
say which engines start. -/

namespace Sys2Proof.Machine

/-! ### The dispatch of the two rows -/

theorem exec_encStart (d : Bit) (r : BitVec 6) (s : State) : exec (.encStart d r) s = execEncStart d r s := rfl

theorem exec_decStart (e : Bit) (r : BitVec 6) (s : State) : exec (.decStart e r) s = execDecStart e r s := rfl

/-! ### The write of CSR6 -/

/-- The upper six bits of a CMD word are ignored (10 R35). -/
theorem writeCmd_append (r : BitVec 6) (d e : Bit) (s : State) :
    writeCmd (r ++ BitVec.ofBool d ++ BitVec.ofBool e) s =
      { s with enc := if e then startEnc s.enc else s.enc, dec := if d then startDec s.dec else s.dec } := by
  have bit0 : (r ++ BitVec.ofBool d ++ BitVec.ofBool e).getLsbD 0 = e := by
    simp only [BitVec.getLsbD_append]; simp
  have bit1 : (r ++ BitVec.ofBool d ++ BitVec.ofBool e).getLsbD 1 = d := by
    simp only [BitVec.getLsbD_append]; simp
  rw [writeCmd, bit0, bit1]

theorem exec_encStart_eq (d : Bit) (r : BitVec 6) (s : State) :
    exec (.encStart d r) s =
      .next { s with enc := startEnc s.enc, dec := if d then startDec s.dec else s.dec } := by
  rw [exec_encStart, execEncStart]
  exact congrArg Host.Outcome.next (writeCmd_append r d true s)

theorem exec_decStart_eq (e : Bit) (r : BitVec 6) (s : State) :
    exec (.decStart e r) s =
      .next { s with enc := if e then startEnc s.enc else s.enc, dec := startDec s.dec } := by
  rw [exec_decStart, execDecStart]
  exact congrArg Host.Outcome.next (writeCmd_append r true e s)

/-! ### The statements -/

/-- Settles O34: bit 0 of the word is set, bit 1 is the row's operand. -/
theorem encStartEffect : Obligations.EncStartEffect := fun r s =>
  ⟨exec_encStart_eq false r s, exec_encStart_eq true r s⟩

/-- Settles O35: bit 1 of the word is set, bit 0 is the row's operand. -/
theorem decStartEffect : Obligations.DecStartEffect := fun r s =>
  ⟨exec_decStart_eq false r s, exec_decStart_eq true r s⟩

end Sys2Proof.Machine
end

section
/-! PROOFS. The port and buffer operations the engines' steps make, an equation for each case. The inversion lemmas of
Laws/Steps say what a step that was taken did; these say which step is taken. -/

namespace Sys2Proof.Machine

/-! ### Ports -/

theorem pull_of_cons {α : Type} {p : InPort α} {v : α} {rest : List α} (hq : p.queue = v :: rest) :
    pull p = some (.elem v, { p with queue := rest, n := p.n + 1 }) := by
  simp [pull, hq]

theorem pull_of_ended {α : Type} {p : InPort α} (hq : p.queue = []) (he : p.ended = true) :
    pull p = some (.endMark, p) := by
  simp [pull, hq, he]

theorem present_trace_of_eq {α : Type} [DecidableEq α] {ev : α} {p : OutPort α} (h : p.trace.getLast? = some ev) :
    (present ev p).trace = p.trace := if_pos h

theorem present_trace_of_ne {α : Type} [DecidableEq α] {ev : α} {p : OutPort α} (h : p.trace.getLast? ≠ some ev) :
    (present ev p).trace = p.trace ++ [ev] := if_neg h

/-! ### Buffers -/

theorem bufGet_bufSet_eq_ite {n : Nat} (v : Vector Byte n) {i : Nat} (j : Nat) (b : Byte) (hi : i < n) :
    bufGet (bufSet v i b) j = if j = i then b else bufGet v j :=
  (bufGet_bufSet v i j b hi).trans (if_congr eq_comm rfl rfl)

theorem drop_bufFill {n : Nat} (v : Vector Byte n) {l : List Byte} (h : l.length ≤ n) :
    (bufFill v l).toList.drop l.length = v.toList.drop l.length := by
  rw [bufFill_toList, List.take_of_length_le h, List.drop_left]

end Sys2Proof.Machine
end

section
/-! PROOFS. ENC's steps (spec/47_engines.md R273 to R281): the step a state enables, then what each step does. -/

namespace Sys2Proof.Machine

/-! ### The enabled step -/

section
variable {e : Enc} (hd : 0 < e.txo.demand)
include hd

theorem encStep_of_complete (hst : e.st = .fill) (hc : e.blen.toNat = 249 ∨ e.srcend = true) :
    encStep e = .moves (fillClose e) := by
  simp [encStep, hd.ne', hst, hc]

theorem encStep_of_incomplete (hst : e.st = .fill) (hs : e.srcend = false) (hb : e.blen.toNat < 249) :
    encStep e = fillPull e := by
  simp [encStep, hd.ne', hst, hs, hb, hb.ne]

theorem encStep_of_code (hst : e.st = .code) : encStep e = codeFrame e := by simp [encStep, hd.ne', hst]

theorem encStep_of_shift (hst : e.st = .shift) : encStep e = .moves (shiftOut e) := by simp [encStep, hd.ne', hst]

theorem encStep_of_done (hst : e.st = .done) : encStep e = .moves (encPresent e) := by simp [encStep, hd.ne', hst]

end

/-! ### `E_FILL` -/

theorem fillPull_of_cons {e : Enc} {v : Byte} {rest : List Byte} (hq : e.txi.queue = v :: rest) :
    fillPull e = .moves { e with
      blk := bufSet e.blk e.blen.toNat v
      blen := e.blen + 1
      txi := { e.txi with queue := rest, n := e.txi.n + 1 } } := by
  simp [fillPull, pull_of_cons hq]

theorem fillPull_of_ended {e : Enc} (hq : e.txi.queue = []) (he : e.txi.ended = true) :
    fillPull e = .moves { e with srcend := true } := by
  simp [fillPull, pull_of_ended hq he]

theorem fillPull_of_starved {e : Enc} (hq : e.txi.queue = []) (he : e.txi.ended = false) :
    fillPull e = .waits := by
  simp [fillPull, pull_none.2 ⟨hq, he⟩]

/-! ### `E_CODE` -/

theorem lastFrameFlag_eq (blen : BitVec 8) : lastFrameFlag blen = decide (blen.toNat = 0) := by
  rw [lastFrameFlag, Bool.beq_eq_decide_eq]
  exact decide_eq_decide.2 BitVec.toNat_inj.symm

theorem codeFrame_eq {e : Enc} (hb : e.blen.toNat ≤ 249) :
    codeFrame e = .moves { e with
      fr := bufFill e.fr (frPack (bufTake e.blk e.blen.toNat))
      flen := BitVec.ofNat 9 (e.blen.toNat + 7)
      lastf := decide (e.blen.toNat = 0)
      byi := 0
      bii := 0
      st := .shift } := by
  simp [codeFrame, hb, lastFrameFlag_eq]

theorem length_frPack_bufTake {n k : Nat} (v : Vector Byte n) (hk : k ≤ n) :
    (frPack (bufTake v k)).length = k + 7 := by
  rw [length_frPack, bufTake_length, Nat.min_eq_left hk]

/-! ### `E_SHIFT` -/

/-- Under `LSB_FIRST` the bit at stream position `BII` is bit `BII` (40 R110). -/
theorem shiftBit_eq (e : Enc) : shiftBit e = (bufGet e.fr e.byi.toNat).getLsbD e.bii.toNat :=
  tobits_getElem .lsbFirst _ e.bii.isLt

theorem shiftNext_of_bit {e : Enc} (h : e.bii.toNat < 7) : shiftNext e = { e with bii := e.bii + 1 } := by
  simp [shiftNext, h]

section
variable {e : Enc} (hbii : e.bii.toNat = 7)
include hbii

theorem shiftNext_of_byte (h : e.byi.toNat + 1 < e.flen.toNat) :
    shiftNext e = { e with bii := 0, byi := e.byi + 1 } := by
  simp [shiftNext, hbii, h]

theorem shiftNext_of_lastFrameEnd (h : e.byi.toNat + 1 = e.flen.toNat) (hl : e.lastf = true) :
    shiftNext e = { e with st := .done } := by
  simp [shiftNext, hbii, h, hl]

theorem shiftNext_of_frameEnd (h : e.byi.toNat + 1 = e.flen.toNat) (hl : e.lastf = false) :
    shiftNext e = { e with st := .fill, blen := 0, byi := 0, bii := 0 } := by
  simp [shiftNext, hbii, h, hl]

end

theorem shiftNext_txo (e : Enc) : (shiftNext e).txo = e.txo := by
  obtain ⟨-, h⟩ | ⟨-, -, h⟩ | ⟨-, -, -, h⟩ | ⟨-, -, -, h⟩ := shiftNext_cases e <;> rw [h]

theorem shiftOut_txo (e : Enc) : (shiftOut e).txo = emit (.bit (shiftBit e)) e.txo := shiftNext_txo _

/-! ### The statements -/

/-- Settles O46: a Block that is neither full nor the last pulls, and the three cases are those of the pull. -/
theorem encFillSteps : Obligations.EncFillSteps := by
  intro e hst hd
  refine ⟨fun hs hb v rest hq => ?_, fun hs hb hq he => ?_, fun hs hb hq he => ?_, encStep_of_complete hd hst⟩
  · refine ⟨_, (encStep_of_incomplete hd hst hs hb).trans (fillPull_of_cons hq), rfl, fun i _ => ?_⟩
    exact bufGet_bufSet_eq_ite e.blk i v hb
  · exact (encStep_of_incomplete hd hst hs hb).trans (fillPull_of_ended hq he)
  · exact (encStep_of_incomplete hd hst hs hb).trans (fillPull_of_starved hq he)

/-- Settles O47: the frame has `BLEN + 7 ≤ 256` bytes, so that `FR` holds it whole and `FLEN` its length. -/
theorem encCodeStep : Obligations.EncCodeStep := by
  intro e hst hd hb
  have hlen := length_frPack_bufTake e.blk hb
  have hfits : (frPack (bufTake e.blk e.blen.toNat)).length ≤ 256 := by omega
  refine ⟨_, (encStep_of_code hd hst).trans (codeFrame_eq hb), rfl, ?_, ?_, ?_⟩
  · rw [← hlen]; exact bufTake_bufFill e.fr _ hfits
  · rw [← hlen]; exact drop_bufFill e.fr hfits
  · rw [BitVec.toNat_ofNat, Nat.mod_eq_of_lt (by omega)]

/-- Settles O48: the emitted bit, then the four cases of what follows it; `End` in the two cases of the trace. -/
theorem encShiftAndDoneSteps : Obligations.EncShiftAndDoneSteps := by
  refine ⟨fun e hst hd _ => ⟨shiftOut e, encStep_of_shift hd hst, ?_⟩, fun e hst hd => ?_⟩
  · rw [shiftOut_txo]
    exact ⟨by rw [shiftBit_eq]; rfl, fun hbii => shiftNext_of_bit hbii,
      fun hbii hmore => shiftNext_of_byte hbii hmore, fun hbii hend hl => shiftNext_of_lastFrameEnd hbii hend hl,
      fun hbii hend hl => shiftNext_of_frameEnd hbii hend hl⟩
  · exact ⟨_, encStep_of_done hd hst, present_trace_of_eq, present_trace_of_ne⟩

end Sys2Proof.Machine
end

section
/-! PROOFS. DEC's steps (spec/47_engines.md R287 to R298): the step a state enables, then what each step does. -/

namespace Sys2Proof.Machine

/-! ### The enabled step -/

section
variable {d : Dec} (hd : 0 < d.rxo.demand)
include hd

theorem decStep_of_bit (hst : d.st = .pfx ∨ d.st = .payload) : decStep d = takeBit d := by
  obtain h | h := hst <;> simp [decStep, hd.ne', h]

theorem decStep_of_drain (hst : d.st = .drain) : decStep d = drainByte d := by simp [decStep, hd.ne', hst]

theorem decStep_of_done (hst : d.st = .done) : decStep d = .moves (decPresent .endMark d) := by
  simp [decStep, hd.ne', hst]

theorem decStep_of_fault (hst : d.st = .fault) : decStep d = .moves (decPresent (.fault d.fault) d) := by
  simp [decStep, hd.ne', hst]

end

/-! ### The bit group -/

theorem accWrite_getLsbD (acc : Byte) (k : Nat) (b : Bit) {j : Nat} (hj : j < 8) :
    (accWrite acc k b).getLsbD j = if j = k then b else acc.getLsbD j := by
  have bit : (1#8 <<< k).getLsbD j = decide (j = k) := by
    simp only [BitVec.getLsbD_shiftLeft, BitVec.getLsbD_one]
    grind
  cases b
  · simp only [accWrite, Bool.false_eq_true, if_false, BitVec.getLsbD_and, BitVec.getLsbD_not, bit]
    grind
  · simp only [accWrite, if_true, BitVec.getLsbD_or, bit]
    grind

theorem accWrite_eq {acc y : Byte} {k : Nat} {b : Bit}
    (hy : ∀ j, j < 8 → y.getLsbD j = if j = k then b else acc.getLsbD j) : accWrite acc k b = y :=
  BitVec.eq_of_getLsbD_eq fun j hj => by rw [accWrite_getLsbD acc k b hj, hy j hj]

/-- Under `LSB_FIRST` the byte of a group is `ACC` itself (40 R111; log 19). -/
theorem tobyte_tupleOfByte (y : Byte) : tobyte codec.bitOrder (tupleOfByte y) = y := tobyte_tobits .lsbFirst y

/-! ### `D_BIT` -/

theorem takeBit_of_cons {d : Dec} {b : Bit} {rest : List Bit} (hq : d.rxi.queue = b :: rest) :
    takeBit d = bitTaken b { d with rxi := { d.rxi with queue := rest, n := d.rxi.n + 1 } } := by
  simp [takeBit, pull_of_cons hq]

theorem takeBit_of_ended {d : Dec} (hq : d.rxi.queue = []) (he : d.rxi.ended = true) :
    takeBit d = bitsEnded d := by
  simp [takeBit, pull_of_ended hq he]

theorem bitTaken_of_lt {b : Bit} {d : Dec} (h : d.nb.toNat < 7) :
    bitTaken b d = .moves { d with acc := accWrite d.acc d.nb.toNat b, nb := d.nb + 1 } := by
  simp [bitTaken, h]

theorem bitTaken_of_eighth {b : Bit} {d : Dec} (h : d.nb.toNat = 7) :
    bitTaken b d = byteComplete (accWrite d.acc 7 b) { d with acc := accWrite d.acc 7 b, nb := 0 } := by
  simp only [bitTaken, h, tobyte_tupleOfByte, Nat.lt_irrefl, if_false]

theorem byteComplete_of_pfx (y : Byte) {d : Dec} (hst : d.st = .pfx) :
    byteComplete y d = .moves { d with pfx := y, cnt := 0, st := if y = 0 then .decode else .payload } := by
  simp [byteComplete, hst]

theorem byteComplete_of_payload (y : Byte) {d : Dec} (hst : d.st = .payload) (hc : d.cnt.toNat < 255) :
    byteComplete y d = .moves { d with
      buf := bufSet d.buf d.cnt.toNat y
      cnt := d.cnt + 1
      st := if d.cnt + 1 = d.pfx then .decode else .payload } := by
  simp [byteComplete, hst, hc]

theorem bitsEnded_of_pfx {d : Dec} (hst : d.st = .pfx) : bitsEnded d = .moves (raiseFault .truncatedPrefix d) := by
  simp [bitsEnded, hst]

theorem bitsEnded_of_payload {d : Dec} (hst : d.st = .payload) :
    bitsEnded d = .moves (raiseFault .truncatedPayload d) := by
  simp [bitsEnded, hst]

/-! ### `D_DRAIN` -/

theorem drainByte_of_lt {d : Dec} (hi : d.oi.toNat < 255) (h : d.oi.toNat + 1 < d.olen.toNat) :
    drainByte d = .moves { d with
      rxo := emit (.byte (bufGet d.buf d.oi.toNat) (decide (d.oi.toNat + 1 = d.olen.toNat))) d.rxo
      oi := d.oi + 1 } := by
  simp [drainByte, hi, h, Bool.beq_eq_decide_eq]

theorem drainByte_of_last {d : Dec} (hi : d.oi.toNat < 255) (h : d.oi.toNat + 1 = d.olen.toNat) :
    drainByte d = .moves { d with
      rxo := emit (.byte (bufGet d.buf d.oi.toNat) (decide (d.oi.toNat + 1 = d.olen.toNat))) d.rxo
      oi := 0
      cnt := 0
      st := .pfx } := by
  simp [drainByte, hi, h]

/-! ### The statements -/

/-- Settles O49: the cases are those of the pull, then of the position of the bit in the group, then of the state. -/
theorem decBitSteps : Obligations.DecBitSteps := by
  intro d hd hst
  refine ⟨fun b rest hq hnb => ?_, fun b rest hq hnb y hy => ?_, fun hq he => ?_⟩ <;> rw [decStep_of_bit hd hst]
  · exact ⟨_, (takeBit_of_cons hq).trans (bitTaken_of_lt hnb), fun k hk => accWrite_getLsbD d.acc d.nb.toNat b hk⟩
  · have hbyte := (takeBit_of_cons hq).trans (bitTaken_of_eighth hnb)
    rw [hbyte, accWrite_eq hy]
    exact ⟨fun h => byteComplete_of_pfx y h, fun h hc =>
      ⟨_, byteComplete_of_payload y h hc, fun i _ => bufGet_bufSet_eq_ite d.buf i y hc⟩⟩
  · rw [takeBit_of_ended hq he]
    exact ⟨bitsEnded_of_pfx, bitsEnded_of_payload⟩

/-- Settles O51: the byte before the end and the last byte of the chunk; a terminal event in the two cases of the
trace. -/
theorem decDrainAndTerminalSteps : Obligations.DecDrainAndTerminalSteps := by
  intro d hd
  refine ⟨fun hst hlt hlen => ?_, fun ev hev => ?_⟩
  · have hi : d.oi.toNat < 255 := by omega
    rw [decStep_of_drain hd hst]
    obtain h | h : d.oi.toNat + 1 < d.olen.toNat ∨ d.oi.toNat + 1 = d.olen.toNat := by omega
    · exact ⟨_, drainByte_of_lt hi h, rfl, fun _ => rfl, fun h' => absurd h' h.ne⟩
    · exact ⟨_, drainByte_of_last hi h, rfl, fun h' => absurd h h'.ne, fun _ => rfl⟩
  · have hstep : decStep d = .moves (decPresent ev d) := by
      obtain ⟨hst, rfl⟩ | ⟨hst, rfl⟩ := hev
      · exact decStep_of_done hd hst
      · exact decStep_of_fault hd hst
    exact ⟨_, hstep, present_trace_of_eq, present_trace_of_ne⟩

end Sys2Proof.Machine
end

section
/-! PROOFS. The encodings (spec/30_encoding.md): each reader gives back what its writer wrote, and the row of a frame is
the one whose range its first byte is in. -/

namespace Sys2Proof.Machine

/-! ### Readers and their writers -/

/-- The reader takes exactly `bytes` off the front of any bytes, for the operand `a`. -/
def Reads {α : Type} (read : Reader α) (bytes : List Byte) (a : α) : Prop :=
  ∀ rest, read (bytes ++ rest) = (a, rest)

theorem Reads.of_all {α : Type} {read : Reader α} {bytes : List Byte} {a : α} (h : Reads read bytes a) :
    read bytes = (a, []) := by
  rw [← h [], List.append_nil]

theorem reads_readByte (b : Byte) : Reads readByte [b] b := fun _ => rfl

theorem reads_readSeq (l : List Byte) : Reads readSeq (writeSeq l) l := by
  intro rest
  induction l with
  | nil => cases rest <;> simp [writeSeq, readSeq]
  | cons b l ih => simp [writeSeq, readSeq, ih]

theorem writeBit_getLsbD_zero (b : Bit) : (writeBit b).getLsbD 0 = b := by cases b <;> rfl

theorem reads_readBits (x : List Bit) : Reads readBits (writeSeq (x.map writeBit)) x := fun rest => by
  have bits : (fun b : Byte => b.getLsbD 0) ∘ writeBit = id := funext writeBit_getLsbD_zero
  rw [readBits, reads_readSeq (x.map writeBit) rest, List.map_map, bits, List.map_id]

theorem reads_readBlock (m : Block) : Reads readBlock (writeSeq m.val) m := fun rest => by
  simp [readBlock, reads_readSeq m.val rest, List.take_of_length_le m.property]

theorem readBytes_append {n : Nat} {l : List Byte} (hlen : l.length = n) (rest : List Byte) :
    (readBytes n (l ++ rest)).1.toList = l ∧ (readBytes n (l ++ rest)).2 = rest := by
  subst hlen
  refine ⟨List.ext_getElem (by simp) fun i hi hi' => ?_, by simp [readBytes]⟩
  simp [readBytes, List.getElem?_append_left hi', hi']

theorem reads_readBytes {n : Nat} (v : Vector Byte n) : Reads (readBytes n) v.toList v := fun rest =>
  have ⟨hval, hrest⟩ := readBytes_append (Vector.length_toList (xs := v)) rest
  Prod.ext (Vector.toList_inj.1 hval) hrest

theorem reads_readWord (r : RsWord) : Reads readWord (BitVec.ofNat 8 (r.val.length - 6) :: r.val) r := by
  intro rest
  obtain ⟨l, hge, hle⟩ := r
  have hlen : l.length = 6 + min (BitVec.ofNat 8 (l.length - 6)).toNat 249 := by
    rw [BitVec.toNat_ofNat, Nat.mod_eq_of_lt (by omega)]; omega
  have ⟨hval, hrest⟩ := readBytes_append hlen rest
  exact Prod.ext (Subtype.ext hval) hrest

theorem reads_readCount (e : BitVec 2) : Reads readCount [e.setWidth 8] e := fun _ =>
  Prod.ext ((BitVec.setWidth_setWidth_of_le (k := 2) (l := 8) e (by decide)).trans e.setWidth_eq) rfl

theorem reads_readCsrNumber (k : BitVec 3) : Reads readCsrNumber [k.setWidth 8] k := fun _ =>
  Prod.ext ((BitVec.setWidth_setWidth_of_le (k := 3) (l := 8) k (by decide)).trans k.setWidth_eq) rfl

/-- The four bytes of a word, put together again. -/
theorem append_extractLsb'_eq (v : BitVec 32) :
    (v.extractLsb' 24 8 ++ v.extractLsb' 16 8 ++ v.extractLsb' 8 8 ++ v.extractLsb' 0 8 : BitVec 32) = v := by
  rw [BitVec.extractLsb'_append_extractLsb'_eq_extractLsb' (by rfl),
    BitVec.extractLsb'_append_extractLsb'_eq_extractLsb' (by rfl),
    BitVec.extractLsb'_append_extractLsb'_eq_extractLsb' (by rfl)]
  exact BitVec.extractLsb'_eq_self

theorem reads_readInt {e : Int} (hge : -(2 ^ 31) ≤ e) (hlt : e < 2 ^ 31) : Reads readInt (writeInt e) e := by
  intro rest
  have word : (readInt (writeInt e ++ rest)).1 = (BitVec.ofInt 32 e).toInt :=
    congrArg BitVec.toInt (append_extractLsb'_eq (BitVec.ofInt 32 e))
  refine Prod.ext (word.trans ?_) rfl
  rw [BitVec.toInt_ofInt, Int.bmod_eq_of_le (by omega) (by omega)]

/-- The byte that numbers a bit group's positions is its byte under `LSB_FIRST` (30 R81, 40 R111). -/
theorem byteOfTuple_eq_tobyte (t : BitTuple) : byteOfTuple t = tobyte .lsbFirst t := by
  have same : ∀ b : Byte, byteOfTuple (tupleOfByte b) = b := by decide +kernel
  rw [← tobits_tobyte .lsbFirst t, tobyte_tobits]
  exact same _

theorem tupleOfByte_byteOfTuple (t : BitTuple) : tupleOfByte (byteOfTuple t) = t := by
  rw [byteOfTuple_eq_tobyte]
  exact tobits_tobyte .lsbFirst t

/-! ### Operations -/

section
variable {α β : Type} {number : Byte} {read : Reader α} {read' : Reader β} {bytes bytes' : List Byte} {a : α} {b : β}

theorem decode_op_one {make : α → Instr}
    (hrow : ∀ bytes, readOperands number bytes = .ok (readOne read make bytes)) (h : Reads read bytes a) :
    decode .op (number :: bytes) = .ok (make a, []) := by
  simp only [decode, decodeOp, hrow, readOne, h.of_all]

theorem decode_op_two {make : α → β → Instr}
    (hrow : ∀ bytes, readOperands number bytes = .ok (readTwo read read' make bytes)) (h : Reads read bytes a)
    (h' : Reads read' bytes' b) : decode .op (number :: (bytes ++ bytes')) = .ok (make a b, []) := by
  simp only [decode, decodeOp, hrow, readTwo, h bytes', h'.of_all]

end

theorem decode_encode_rsForney (s : Syndromes) (c pos : List Byte) (n : Byte) :
    decode .op (encode (.rsForney s c pos n)) = .ok (.rsForney s c pos n, []) := by
  have hsyn := reads_readBytes s (n :: (writeSeq c ++ writeSeq pos))
  have hlen : readByte (n :: (writeSeq c ++ writeSeq pos)) = (n, writeSeq c ++ writeSeq pos) := rfl
  have hrow : ∀ bytes, readOperands 0x2B bytes = .ok (readForney bytes) := fun _ => rfl
  rw [encode, decode, decodeOp, hrow, readForney]
  simp only [readSyndromes, hsyn, hlen, reads_readSeq c (writeSeq pos), (reads_readSeq pos).of_all]

/-! ### CMD words -/

theorem decode_encode_encStart (d : Bit) (r : BitVec 6) :
    decode .cmd (encode (.encStart d r)) = .ok (.encStart d r, []) := by
  have fields : ∀ (d : Bit) (r : BitVec 6), (r ++ BitVec.ofBool d ++ 1#1).getLsbD 0 = true ∧
      (r ++ BitVec.ofBool d ++ 1#1).getLsbD 1 = d ∧ (r ++ BitVec.ofBool d ++ 1#1).extractLsb' 2 6 = r := by decide
  obtain ⟨h0, h1, h2⟩ := fields d r
  simp only [encode, decode, decodeCmd, h0, h1, h2, if_true]

theorem decode_encode_decStart (r : BitVec 6) :
    decode .cmd (encode (.decStart false r)) = .ok (.decStart false r, []) := by
  have fields : ∀ r : BitVec 6, (r ++ 1#1 ++ BitVec.ofBool false).getLsbD 0 = false ∧
      (r ++ 1#1 ++ BitVec.ofBool false).getLsbD 1 = true ∧
      (r ++ 1#1 ++ BitVec.ofBool false).extractLsb' 2 6 = r := by decide
  obtain ⟨h0, h1, h2⟩ := fields r
  simp only [encode, decode, decodeCmd, h0, h1, h2, if_true, if_false, Bool.false_eq_true]

/-! ### Frames: the first byte of a row, and the row of a first byte -/

theorem toNat_pfxShort00 : ∀ p : BitVec 2, (pfxShort00 p).toNat = p.toNat := by decide
theorem toNat_pfxShort04 : ∀ p : BitVec 1, (pfxShort04 p).toNat = 4 + p.toNat := by decide
theorem toNat_pfxData08 : ∀ p : BitVec 3, (pfxData08 p).toNat = 8 + p.toNat := by decide
theorem toNat_pfxData10 : ∀ p : BitVec 4, (pfxData10 p).toNat = 16 + p.toNat := by decide
theorem toNat_pfxData20 : ∀ p : BitVec 5, (pfxData20 p).toNat = 32 + p.toNat := by decide
theorem toNat_pfxData40 : ∀ p : BitVec 6, (pfxData40 p).toNat = 64 + p.toNat := by decide
theorem toNat_pfxData80 : ∀ p : BitVec 7, (pfxData80 p).toNat = 128 + p.toNat := by decide

/-- The masks of 30 R85 select by ranges. -/
theorem frameOf_eq (p : Byte) (w : List Byte) : frameOf p w =
    if p.toNat < 4 then .frameShort00 (p.setWidth 2) w
    else if p.toNat < 6 then .frameShort04 (p.setWidth 1) w
    else if p.toNat = 6 then .frameEof w
    else if p.toNat = 7 then .frameData07 w
    else if p.toNat < 16 then .frameData08 (p.setWidth 3) w
    else if p.toNat < 32 then .frameData10 (p.setWidth 4) w
    else if p.toNat < 64 then .frameData20 (p.setWidth 5) w
    else if p.toNat < 128 then .frameData40 (p.setWidth 6) w
    else .frameData80 (p.setWidth 7) w := by
  have masks : ∀ p : Byte, (p &&& 0xFC = 0x00 ↔ p.toNat < 4) ∧ (p &&& 0xFE = 0x04 ↔ 4 ≤ p.toNat ∧ p.toNat < 6) ∧
      (p = 0x06 ↔ p.toNat = 6) ∧ (p = 0x07 ↔ p.toNat = 7) ∧ (p &&& 0xF8 = 0x08 ↔ 8 ≤ p.toNat ∧ p.toNat < 16) ∧
      (p &&& 0xF0 = 0x10 ↔ 16 ≤ p.toNat ∧ p.toNat < 32) ∧ (p &&& 0xE0 = 0x20 ↔ 32 ≤ p.toNat ∧ p.toNat < 64) ∧
      (p &&& 0xC0 = 0x40 ↔ 64 ≤ p.toNat ∧ p.toNat < 128) := by decide +kernel
  obtain ⟨m00, m04, m06, m07, m08, m10, m20, m40⟩ := masks p
  simp only [frameOf, m00, m04, m06, m07, m08, m10, m20, m40]
  grind

theorem frameOf_pfxShort00 (p : BitVec 2) (w : List Byte) : frameOf (pfxShort00 p) w = .frameShort00 p w := by
  have low : ∀ p : BitVec 2, (pfxShort00 p).setWidth 2 = p := by decide
  have := p.isLt
  rw [frameOf_eq, toNat_pfxShort00, low]
  grind

theorem frameOf_pfxShort04 (p : BitVec 1) (w : List Byte) : frameOf (pfxShort04 p) w = .frameShort04 p w := by
  have low : ∀ p : BitVec 1, (pfxShort04 p).setWidth 1 = p := by decide
  have := p.isLt
  rw [frameOf_eq, toNat_pfxShort04, low]
  grind

theorem frameOf_pfxData08 (p : BitVec 3) (w : List Byte) : frameOf (pfxData08 p) w = .frameData08 p w := by
  have low : ∀ p : BitVec 3, (pfxData08 p).setWidth 3 = p := by decide
  have := p.isLt
  rw [frameOf_eq, toNat_pfxData08, low]
  grind

theorem frameOf_pfxData10 (p : BitVec 4) (w : List Byte) : frameOf (pfxData10 p) w = .frameData10 p w := by
  have low : ∀ p : BitVec 4, (pfxData10 p).setWidth 4 = p := by decide
  have := p.isLt
  rw [frameOf_eq, toNat_pfxData10, low]
  grind

theorem frameOf_pfxData20 (p : BitVec 5) (w : List Byte) : frameOf (pfxData20 p) w = .frameData20 p w := by
  have low : ∀ p : BitVec 5, (pfxData20 p).setWidth 5 = p := by decide
  have := p.isLt
  rw [frameOf_eq, toNat_pfxData20, low]
  grind

theorem frameOf_pfxData40 (p : BitVec 6) (w : List Byte) : frameOf (pfxData40 p) w = .frameData40 p w := by
  have low : ∀ p : BitVec 6, (pfxData40 p).setWidth 6 = p := by decide
  have := p.isLt
  rw [frameOf_eq, toNat_pfxData40, low]
  grind

theorem frameOf_pfxData80 (p : BitVec 7) (w : List Byte) : frameOf (pfxData80 p) w = .frameData80 p w := by
  have low : ∀ p : BitVec 7, (pfxData80 p).setWidth 7 = p := by decide
  have := p.isLt
  rw [frameOf_eq, toNat_pfxData80, low]
  grind

/-- In a row's range, the free bits of the first byte give the byte back. -/
theorem pfx_setWidth : ∀ p : Byte,
    (p.toNat < 4 → pfxShort00 (p.setWidth 2) = p) ∧
    (4 ≤ p.toNat → p.toNat < 6 → pfxShort04 (p.setWidth 1) = p) ∧
    (p.toNat = 6 → 0x06 = p) ∧ (p.toNat = 7 → 0x07 = p) ∧
    (8 ≤ p.toNat → p.toNat < 16 → pfxData08 (p.setWidth 3) = p) ∧
    (16 ≤ p.toNat → p.toNat < 32 → pfxData10 (p.setWidth 4) = p) ∧
    (32 ≤ p.toNat → p.toNat < 64 → pfxData20 (p.setWidth 5) = p) ∧
    (64 ≤ p.toNat → p.toNat < 128 → pfxData40 (p.setWidth 6) = p) ∧
    (128 ≤ p.toNat → pfxData80 (p.setWidth 7) = p) := by decide +kernel

theorem encode_frameOf (p : Byte) (w : List Byte) : encode (frameOf p w) = p :: w := by
  have := pfx_setWidth p
  rw [frameOf_eq]
  split_ifs <;> simp only [encode] <;> grind

/-- A frame's row runs the frame with its first byte and payload, whatever the row. -/
theorem exec_frameOf (p : Byte) (w : List Byte) (s : State) : exec (frameOf p w) s = receiveFrame p w s := by
  have run (q : Byte) (hq : q = p) : receiveFrame q w s = receiveFrame p w s := by rw [hq]
  have := pfx_setWidth p
  rw [frameOf_eq]
  split_ifs <;> refine run _ ?_ <;> grind

theorem wf_frameOf (p : Byte) (w : List Byte) : (frameOf p w).wf = payloadFits p.toNat w := by
  rw [frameOf_eq]
  split_ifs <;> simp only [Instr.wf, BitVec.toNat_setWidth] <;> congr 1 <;> omega

theorem frameClass_frameOf (p : Byte) (w : List Byte) :
    frameClass (frameOf p w) = some (if p.toNat < 6 then .short else if p.toNat = 6 then .eof else .data) := by
  rw [frameOf_eq]
  split_ifs <;> grind [frameClass]

/-- Every frame is the row that its first byte selects, with its other bytes as payload (30 R82, R85). -/
theorem eq_frameOf {i : Instr} (hi : frameClass i ≠ none) : ∃ p w, encode i = p :: w ∧ i = frameOf p w := by
  cases i with
  | frameShort00 p w => exact ⟨_, w, rfl, (frameOf_pfxShort00 p w).symm⟩
  | frameShort04 p w => exact ⟨_, w, rfl, (frameOf_pfxShort04 p w).symm⟩
  | frameEof w => exact ⟨_, w, rfl, rfl⟩
  | frameData07 w => exact ⟨_, w, rfl, rfl⟩
  | frameData08 p w => exact ⟨_, w, rfl, (frameOf_pfxData08 p w).symm⟩
  | frameData10 p w => exact ⟨_, w, rfl, (frameOf_pfxData10 p w).symm⟩
  | frameData20 p w => exact ⟨_, w, rfl, (frameOf_pfxData20 p w).symm⟩
  | frameData40 p w => exact ⟨_, w, rfl, (frameOf_pfxData40 p w).symm⟩
  | frameData80 p w => exact ⟨_, w, rfl, (frameOf_pfxData80 p w).symm⟩
  | _ => exact absurd rfl hi

theorem decode_frame_cons (p : Byte) (rest : List Byte) :
    decode .frame (p :: rest) = .ok (frameOf p (rest.take p.toNat), rest.drop p.toNat) := rfl

theorem decode_encode_frame {i : Instr} (hi : frameClass i ≠ none) (hwf : i.WellFormed) :
    decode .frame (encode i) = .ok (i, []) := by
  obtain ⟨p, w, henc, rfl⟩ := eq_frameOf hi
  have hfits : w.length ≤ p.toNat := by simpa [Instr.WellFormed, wf_frameOf, payloadFits] using hwf
  rw [henc, decode_frame_cons, List.take_of_length_le hfits, List.drop_of_length_le hfits]

/-! ### The statements -/

/-- Settles O1: a frame by the row its first byte selects, an operation by the readers of its operands. -/
theorem decodeEncodeRoundTrip : Obligations.DecodeEncodeRoundTrip := by
  intro i hwf
  cases i with
  | bitgroup t => exact congrArg (fun t => Except.ok (Instr.bitgroup t, [])) (tupleOfByte_byteOfTuple t)
  | bpTobits b => exact decode_op_one (fun _ => rfl) (reads_readByte b)
  | bpTobyte t =>
    refine (decode_op_one (fun _ => rfl) (reads_readByte (byteOfTuple t))).trans ?_
    rw [tupleOfByte_byteOfTuple]
  | bpExpand y => exact decode_op_one (fun _ => rfl) (reads_readSeq y)
  | bpGroup x => exact decode_op_one (fun _ => rfl) (reads_readBits x)
  | gfAdd a b => exact decode_op_two (fun _ => rfl) (reads_readByte a) (reads_readByte b)
  | gfXtime a => exact decode_op_one (fun _ => rfl) (reads_readByte a)
  | gfMul a b => exact decode_op_two (fun _ => rfl) (reads_readByte a) (reads_readByte b)
  | gfExp e =>
    have hrange : -(2 ^ 31) ≤ e ∧ e < 2 ^ 31 := by simpa [Instr.WellFormed, Instr.wf] using hwf
    exact decode_op_one (fun _ => rfl) (reads_readInt hrange.1 hrange.2)
  | gfLog a => exact decode_op_one (fun _ => rfl) (reads_readByte a)
  | gfInv a => exact decode_op_one (fun _ => rfl) (reads_readByte a)
  | gfDiv a b => exact decode_op_two (fun _ => rfl) (reads_readByte a) (reads_readByte b)
  | gfPeval w v =>
    exact decode_op_two (make := fun v w => .gfPeval w v) (fun _ => rfl)
      (reads_readByte v) (reads_readSeq w)
  | rsParity m => exact decode_op_one (fun _ => rfl) (reads_readBlock m)
  | rsEnc m => exact decode_op_one (fun _ => rfl) (reads_readBlock m)
  | rsSyn r => exact decode_op_one (fun _ => rfl) (reads_readSeq r)
  | rsLocator s => exact decode_op_one (fun _ => rfl) (reads_readBytes s)
  | rsChien c n =>
    exact decode_op_two (make := fun n c => .rsChien c n) (fun _ => rfl)
      (reads_readByte n) (reads_readSeq c)
  | rsForney s c pos n => exact decode_encode_rsForney s c pos n
  | rsDec r => exact decode_op_one (fun _ => rfl) (reads_readWord r)
  | frSplit y => exact decode_op_one (fun _ => rfl) (reads_readSeq y)
  | frPack b => exact decode_op_one (fun _ => rfl) (reads_readBlock b)
  | frEnc y => exact decode_op_one (fun _ => rfl) (reads_readSeq y)
  | frTakepfx y => exact decode_op_one (fun _ => rfl) (reads_readSeq y)
  | frTakepay p y => exact decode_op_two (fun _ => rfl) (reads_readByte p) (reads_readSeq y)
  | frChecklen p => exact decode_op_one (fun _ => rfl) (reads_readByte p)
  | frMaxupd e => exact decode_op_one (fun _ => rfl) (reads_readCount e)
  | frEofdet b => exact decode_op_one (fun _ => rfl) (reads_readBlock b)
  | frDec y m =>
    exact decode_op_two (make := fun m y => .frDec y m) (fun _ => rfl)
      (reads_readCount m) (reads_readSeq y)
  | bsEnc y => exact decode_op_one (fun _ => rfl) (reads_readSeq y)
  | bsDec z => exact decode_op_one (fun _ => rfl) (reads_readBits z)
  | encStart d r => exact decode_encode_encStart d r
  | decStart e r =>
    obtain rfl : e = false := by simpa [Instr.WellFormed, Instr.wf] using hwf
    exact decode_encode_decStart r
  | csrRead k => exact decode_op_one (fun _ => rfl) (reads_readCsrNumber k)
  | _ => exact decode_encode_frame nofun hwf

/-- Settles O2: the row that the first byte selects, with as much of its payload as there is. -/
theorem framePrefixSelectsClass : Obligations.FramePrefixSelectsClass := fun p rest =>
  ⟨frameOf p (rest.take p.toNat), rfl, by simp [Instr.WellFormed, wf_frameOf, payloadFits],
    encode_frameOf p _, frameClass_frameOf p _⟩

/-- Settles O3: the decoder run on each word. -/
theorem sampleWordsDecode : Obligations.SampleWordsDecode := by
  unfold Obligations.SampleWordsDecode
  decide +kernel

/-! ### The step -/

theorem step_of_agenda {s : State} {m : Move} {rest : List Move} (h : s.agenda = m :: rest) :
    step s = runMove m { s with agenda := rest } := by
  simp only [step, h]

theorem runMove_of_decode_ok {f : Format} {bytes out : List Byte} {i : Instr} (h : decode f bytes = .ok (i, out))
    (s : State) : runMove (.instr f bytes) s = exec i s := by
  simp only [runMove, runBytes, h]

theorem runMove_of_decode_error {f : Format} {bytes : List Byte} {e : DecodeError} (h : decode f bytes = .error e)
    (s : State) : runMove (.instr f bytes) s = runNoInstruction f e s := by
  simp only [runMove, runBytes, h]

/-- No bytes are nothing, but in the frame stream (log 15). -/
theorem runNoInstruction_noBytes_of_ne {f : Format} (hf : f ≠ .frame) (s : State) :
    runNoInstruction f .noBytes s = .next s := by
  cases f with
  | frame => exact absurd rfl hf
  | bitgroup | op | cmd => rfl

theorem decode_of_decodeTableWord {nbits w : Nat} {i : Instr} (h : decodeTableWord nbits w = some i) :
    ∃ out, decode (tableFormat w) (tableBytes nbits w) = .ok (i, out) := by
  unfold decodeTableWord at h
  split at h
  case h_1 j out hdec => exact ⟨out, by rw [hdec, Option.some.inj h]⟩
  case h_2 => cases h

/-- Settles O4: the step takes the move off the agenda, and the move does what the decoder's answer says. -/
theorem stepRunsDecodedInstruction : Obligations.StepRunsDecodedInstruction := by
  refine ⟨fun s f bytes out i rest hs hdec => ?_, fun s f bytes rest hs => ?_, fun s nbits w i hw => ?_⟩
  · rw [step_of_agenda hs, runMove_of_decode_ok hdec]
  · rw [step_of_agenda hs]
    refine ⟨fun hdec => ?_, fun hdec hf => ?_, ?_, fun number hdec => ?_⟩
    · rw [runMove_of_decode_error hdec, runNoInstruction]
    · rw [runMove_of_decode_error hdec, runNoInstruction_noBytes_of_ne hf]
    · rintro hdec rfl
      rw [runMove_of_decode_error hdec]
      rfl
    · rw [runMove_of_decode_error hdec, runNoInstruction]
  · obtain ⟨out, hdec⟩ := decode_of_decodeTableWord hw
    rw [step_of_agenda (withFetchWord_agenda s nbits w), runMove_of_decode_ok hdec]
    rfl

end Sys2Proof.Machine
end

section
/-! PROOFS. The laws of GF(2^8) as statements (spec/41_gf256.md R133 to R139): products, inverses and quotients of
nonzero bytes by their logarithms. -/

namespace Sys2Proof.Machine

/-! ### The dispatch of the four rows -/

theorem exec_gfMul (a b : Byte) (s : State) : exec (.gfMul a b) s = execGfMul a b s := rfl

theorem exec_gfLog (a : Byte) (s : State) : exec (.gfLog a) s = execGfLog a s := rfl

theorem exec_gfInv (a : Byte) (s : State) : exec (.gfInv a) s = execGfInv a s := rfl

theorem exec_gfDiv (a b : Byte) (s : State) : exec (.gfDiv a b) s = execGfDiv a b s := rfl

/-! ### Logarithms, inverses, quotients -/

theorem gfMul_eq_gfExp_log {a b : Byte} (ha : a ≠ 0#8) (hb : b ≠ 0#8) :
    gfMul a b = gfExp (((gfLog a + gfLog b) % 255 : Nat) : Int) := by
  obtain ⟨i, hi, rfl⟩ := exists_gfPow_eq ha
  obtain ⟨j, hj, rfl⟩ := exists_gfPow_eq hb
  rw [gfLog_gfPow hi, gfLog_gfPow hj, gfExp_natCast, gfPow_mod, gfPow_add]

/-- A nonzero factor can be taken off on the right: multiply by its inverse. -/
theorem gfMul_gfInv_cancel {b : Byte} (hb : b ≠ 0#8) (a : Byte) : gfMul (gfMul a b) (gfInv b) = a := by
  rw [gfMul_assoc, gfMul_gfInv hb, gfMul_one]

theorem gfMul_gfDiv_cancel {b : Byte} (hb : b ≠ 0#8) (a : Byte) : gfMul (gfDiv a b) b = a := by
  rw [gfDiv_eq hb, gfMul_assoc, gfMul_comm (gfInv b), gfMul_gfInv hb, gfMul_one]

theorem eq_gfDiv_of_gfMul_eq {a b w : Byte} (hb : b ≠ 0#8) (h : gfMul w b = a) : w = gfDiv a b := by
  rw [gfDiv_eq hb, ← h, gfMul_gfInv_cancel hb]

theorem eq_gfInv_of_gfMul_eq_one {a w : Byte} (ha : a ≠ 0#8) (h : gfMul a w = 1#8) : w = gfInv a := by
  rw [← gfMul_gfInv_cancel ha w, gfMul_comm w a, h]
  exact gfMul_one_left _

/-! ### The statements -/

/-- Settles O11: the laws proved above, at three bytes. -/
theorem gfMulFieldLaws : Obligations.GfMulFieldLaws := fun a b c =>
  ⟨gfMul_comm a b, gfMul_assoc a b c, gfMul_xor_right a b c, gfMul_one_left b, gfMul_eq_zero_iff a b⟩

/-- Settles O12: a zero operand gives zero, and nonzero bytes are powers of `ALPHA`. -/
theorem gfMulByLogarithms : Obligations.GfMulByLogarithms := fun a b s => by
  have product : gfMul a b = if a = 0 ∨ b = 0 then 0x00 else gfExp (((gfLog a + gfLog b) % 255 : Nat) : Int) := by
    split
    case isTrue h => exact (gfMul_eq_zero_iff a b).2 h
    case isFalse h => exact gfMul_eq_gfExp_log (fun ha => h (.inl ha)) (fun hb => h (.inr hb))
  rw [exec_gfMul, execGfMul, product]

/-- Settles O14: the search finds the exponent of a power of `ALPHA`, and there is only one. -/
theorem gfLogIsTheExponent : Obligations.GfLogIsTheExponent := fun a s =>
  ⟨gfLog a, exec_gfLog a s, fun ha => by
    obtain ⟨e, he, hexp, hunique⟩ := existsUnique_gfExp_eq ha
    obtain rfl : gfLog a = e := by rw [← hexp, gfExp_natCast, gfLog_gfPow he]
    exact ⟨he, hexp, hunique⟩⟩

/-- Settles O15: a nonzero byte has an inverse, which gives the quotients and makes both unique. -/
theorem gfInverseAndQuotient : Obligations.GfInverseAndQuotient :=
  ⟨fun a s => ⟨gfInv a, exec_gfInv a s, fun ha => ⟨gfMul_gfInv ha, fun _ => eq_gfInv_of_gfMul_eq_one ha⟩⟩,
   fun a b s => ⟨gfDiv a b, exec_gfDiv a b s, fun hb =>
    ⟨gfMul_gfDiv_cancel hb a, fun _ => eq_gfDiv_of_gfMul_eq hb⟩⟩⟩

end Sys2Proof.Machine
end

section
/-! PROOFS. RS.SYN, RS.LOCATOR, RS.FORNEY and the correction of up to three errors (spec/43_rs_decode.md R170 to R176):
a list of errors is read as a set of numbered errors, so that the decoder's polynomials apply. -/

namespace Sys2Proof.Machine

open Polynomial

/-! ### The dispatch of the three rows -/

theorem exec_rsSyn (r : List Byte) (s : State) : exec (.rsSyn r) s = execRsSyn r s := rfl

theorem exec_rsLocator (syn : Syndromes) (s : State) : exec (.rsLocator syn) s = execRsLocator syn s := rfl

theorem exec_rsForney (syn : Syndromes) (c pos : List Byte) (n : Byte) (s : State) :
    exec (.rsForney syn c pos n) s = execRsForney syn c pos n s := rfl

/-! ### RS.DEC and RS.SYN -/

/-- Settles O25: the codeword near the word is the one that the decoder's composition finds. -/
theorem rsDecCorrectsUpToThreeErrors : Obligations.RsDecCorrectsUpToThreeErrors := by
  rintro n c r - hn hc rfl hd
  exact rsDec_eq_ok_of_dist_le hn hc hd

theorem gfPower_gfPow (j k : Nat) : gfPower (gfPow j) k = gfPow (j * k) := by
  induction k with
  | zero => rfl
  | succ k ih => rw [gfPower_succ, ih, ← gfPow_add, Nat.mul_succ]

theorem syndrome_eq_sum (r : List Byte) (j : Nat) :
    syndrome r j = ((List.range r.length).map (fun i =>
      gfMul (r.getD i 0) (gfExp ((j * (r.length - 1 - i) : Nat) : Int)))).foldl (· ^^^ ·) 0x00 := by
  rw [syndrome, codec_fcr, Nat.cast_zero, zero_add, gfExp_natCast, gfPeval_eq_sum, pevalTerms]
  simp only [gfPower_gfPow, gfExp_natCast]

/-- Settles O20: a syndrome is the value of the word at a root, which Horner's rule sums up. -/
theorem syndromesArePowerSums : Obligations.SyndromesArePowerSums := fun r s =>
  ⟨(rsSyn r).toList, exec_rsSyn r s, Vector.length_toList,
    fun j hj => (rsSyn_getD r hj).trans (syndrome_eq_sum r j), by
    rw [InCode, eq_self, true_and]
    exact forall₂_congr fun j hj => by rw [rsSyn_getD r hj]⟩

/-! ### Powers of `ALPHA` with an integer exponent -/

theorem gfExp_add (a b : Int) : gfExp (a + b) = gfMul (gfExp a) (gfExp b) := by
  obtain ⟨i, hi⟩ := Int.eq_ofNat_of_zero_le (Int.emod_nonneg a (by decide : (255 : Int) ≠ 0))
  obtain ⟨j, hj⟩ := Int.eq_ofNat_of_zero_le (Int.emod_nonneg b (by decide : (255 : Int) ≠ 0))
  rw [← gfExp_emod (a + b), Int.add_emod, ← gfExp_emod a, ← gfExp_emod b, hi, hj, gfExp_emod, ← Int.natCast_add]
  simp only [gfExp_natCast, gfPow_add]

theorem gfExp_natCast_mul (k : Nat) (y : Int) : gfExp (k * y) = gfPower (gfExp y) k := by
  induction k with
  | zero => simp [gfExp, gfPow]
  | succ k ih => rw [gfPower_succ, ← ih, ← gfExp_add, Nat.cast_succ, add_one_mul]

/-! ### Values of byte polynomials as sums -/

namespace ByteField

variable {F : Type} [Field F] (φ : ByteField F)

theorem val_foldl_xor_zero (l : List Byte) : φ.val (l.foldl (· ^^^ ·) 0x00) = (l.map φ.val).sum := by
  rw [val_foldl_xor]
  exact (congrArg (· + _) φ.val_zero).trans (zero_add _)

theorem val_foldl_xor_range (f : Nat → Byte) (n : Nat) :
    φ.val (((List.range n).map f).foldl (· ^^^ ·) 0x00) = ∑ i ∈ Finset.range n, φ.val (f i) := by
  rw [val_foldl_xor_zero, List.map_map, ← List.sum_toFinset _ List.nodup_range, List.toFinset_range]
  rfl

theorem val_gfExp_mul (k : Nat) (x : Int) : φ.val (gfExp (-(k * x))) = φ.val (gfExp (-x)) ^ k := by
  rw [← mul_neg, gfExp_natCast_mul, val_gfPower]

theorem poly_eq_sum (c : List Byte) :
    φ.poly c = ∑ k ∈ Finset.range c.length, C (φ.val (c.getD k 0)) * X ^ k := by
  ext j
  simp only [poly_coeff, finsetSum_coeff, coeff_C_mul, coeff_X_pow, mul_ite, mul_one, mul_zero, Finset.sum_ite_eq,
    Finset.mem_range]
  split
  case isTrue => rfl
  case isFalse h => rw [List.getD_eq_default _ _ (by omega)]; exact φ.val_zero

/-- In characteristic 2 the derivative keeps the terms of odd power, each lowered by one (43 R176). -/
theorem val_derivativeAt (c : List Byte) (x : Int) :
    φ.val (derivativeAt c x) = (derivative (φ.poly c)).eval (φ.val (gfExp (-x))) := by
  have := φ.charP_two
  rw [derivativeAt, val_foldl_xor_zero, List.map_map, ← List.sum_toFinset _ (List.nodup_range.filter _),
    poly_eq_sum, derivative_sum, eval_finsetSum, List.toFinset_filter, List.toFinset_range, Finset.sum_filter]
  refine Finset.sum_congr rfl fun k _ => ?_
  simp only [Function.comp, val_gfMul, val_gfExp_mul, derivative_C_mul, derivative_X_pow, eval_mul, eval_C, eval_pow,
    eval_X, CharTwo.natCast_eq_ite]
  obtain hk | hk := Nat.mod_two_eq_zero_or_one k <;> simp [Nat.even_iff, hk]

theorem val_omegaAt (syn : Syndromes) (c : List Byte) (x : Int) :
    φ.val (omegaAt syn c x) = (φ.poly (rsOmega syn c)).eval (φ.val (gfExp (-x))) := by
  have low : (φ.poly (rsOmega syn c)).natDegree < 6 := by
    refine Nat.lt_succ_of_le (natDegree_le_iff_coeff_eq_zero.2 fun j hj => ?_)
    rw [rsOmega, poly_take_coeff, if_neg (by omega)]
  rw [omegaAt, val_foldl_xor_range, eval_eq_sum_range' low]
  refine Finset.sum_congr rfl fun k hk => ?_
  rw [val_gfMul, val_gfExp_mul, val_foldl_xor_range, rsOmega, poly_take_coeff, if_pos (Finset.mem_range.1 hk),
    poly_polyMul, coeff_mul,
    Finset.Nat.sum_antidiagonal_eq_sum_range_succ fun i j => (φ.poly syn.toList).coeff i * (φ.poly c).coeff j]
  simp only [val_gfMul, poly_coeff]

/-! ### RS.LOCATOR on any syndromes -/

/-- The constant term of the iteration's `C` is kept (43 R174). -/
theorem head?_rsLocator (syn : Syndromes) : (rsLocator syn).1.head? = some 0x01 := by
  obtain ⟨F, _, ⟨φ⟩⟩ := exists_byteField
  have any : Generates (1 + X * φ.poly syn.toList) 6 6 1 := ⟨by simp, by omega⟩
  obtain ⟨hinv, -⟩ := bmInv_foldl any coeff_one_zero le_rfl
  rw [rsLocator_eq_foldl_range]
  generalize (List.range 6).foldl (Machine.bmTurn syn.toList) bmInit = st at hinv ⊢
  have hone := hinv.coeff_zero
  cases hc : st.c with
  | nil => simp [hc] at hone
  | cons a c =>
    rw [hc, poly_coeff, List.getD_cons_zero, ← φ.val_one] at hone
    exact congrArg some (φ.val_injective hone)

/-! ### A list of errors as a set -/

/-- The value of error number `i`. -/
def listValue (errs : List (Byte × Nat)) (i : Nat) : F := φ.val (errs.getD i (0, 0)).1

/-- The locator of error number `i`. -/
def listLocator (errs : List (Byte × Nat)) (i : Nat) : F := φ.val (gfPow (errs.getD i (0, 0)).2)

theorem listLocator_ne_zero (errs : List (Byte × Nat)) (i : Nat) : φ.listLocator errs i ≠ 0 :=
  mt φ.val_eq_zero_iff.1 (gfPow_ne_zero _)

theorem listLocator_injOn {errs : List (Byte × Nat)} (h : (errs.map fun p => gfExp p.2).Nodup) :
    Set.InjOn (φ.listLocator errs) (Finset.range errs.length) := by
  intro i hi j hj hij
  simp only [Finset.coe_range, Set.mem_Iio] at hi hj
  refine (h.getElem_inj_iff (hi := by simpa using hi) (hj := by simpa using hj)).1 ?_
  simpa [listLocator, hi, hj, φ.val_injective.eq_iff] using hij

theorem listValue_ne_zero {errs : List (Byte × Nat)} (h : ∀ p ∈ errs, p.1 ≠ 0x00) {i : Nat}
    (hi : i ∈ Finset.range errs.length) : φ.listValue errs i ≠ 0 := by
  rw [listValue, Ne, φ.val_eq_zero_iff, List.getD_eq_getElem _ _ (Finset.mem_range.1 hi)]
  exact h _ (List.getElem_mem _)

theorem map_range_getD {α : Type} (l : List α) (a : α) : (List.range l.length).map (l.getD · a) = l :=
  List.ext_getElem (by simp) fun i hi hi' => by simp [hi']

theorem poly_errorSyndromes (errs : List (Byte × Nat)) :
    φ.poly (errorSyndromes errs).toList =
      syndromePoly (Finset.range errs.length) (φ.listValue errs) (φ.listLocator errs) := by
  ext j
  rw [poly_coeff]
  by_cases hj : j < 6
  · have term : (errorSyndromes errs).toList.getD j 0 =
        (errs.map fun p => gfMul p.1 (gfExp ((j * p.2 : Nat) : Int))).foldl (· ^^^ ·) 0x00 := by
      simp [errorSyndromes, hj]
    rw [term, syndromePoly_coeff hj, ← map_range_getD errs (0, 0), List.map_map, val_foldl_xor_range, map_range_getD]
    refine Finset.sum_congr rfl fun i _ => ?_
    rw [Function.comp, val_gfMul, gfExp_natCast, mul_comm j, ← gfPower_gfPow, val_gfPower]
    rfl
  · rw [syndromePoly_coeff_eq_zero (by omega), List.getD_eq_default _ _ (by simpa using hj)]
    exact φ.val_zero

/-- The product of 43 R174 written out is the locator, signs making no difference in characteristic 2. -/
theorem poly_productLocator {errs : List (Byte × Nat)} (h : SomeErrors errs) :
    (productLocator (errs.map fun p => gfExp p.2)).length = errs.length + 1 ∧
    φ.poly (productLocator (errs.map fun p => gfExp p.2)) =
      errorLocator (Finset.range errs.length) (φ.listLocator errs) := by
  have := φ.charP_two
  obtain ⟨hpos, hle, -, -⟩ := h
  match errs with
  | [p] => simp [productLocator, errorLocator, listLocator, CharTwo.sub_eq_add, mul_comm X]
  | [p, q] =>
    refine ⟨rfl, ?_⟩
    simp [productLocator, errorLocator, listLocator, CharTwo.sub_eq_add, Finset.prod_range_succ, φ.val_xor, φ.val_gfMul]
    ring
  | [p, q, r] =>
    refine ⟨rfl, ?_⟩
    simp [productLocator, errorLocator, listLocator, CharTwo.sub_eq_add, Finset.prod_range_succ, φ.val_xor, φ.val_gfMul]
    ring

theorem eq_of_poly_eq {c c' : List Byte} (hlen : c.length = c'.length) (h : φ.poly c = φ.poly c') : c = c' :=
  List.ext_getElem hlen fun i hi hi' => φ.val_injective <| by
    rw [← List.getD_eq_getElem _ 0 hi, ← List.getD_eq_getElem _ 0 hi', ← poly_coeff, ← poly_coeff, h]

end ByteField

theorem rsLocator_errorSyndromes {errs : List (Byte × Nat)} (h : SomeErrors errs) :
    rsLocator (errorSyndromes errs) = (productLocator (errs.map fun p => gfExp p.2), errs.length) := by
  obtain ⟨F, _, ⟨φ⟩⟩ := exists_byteField
  obtain ⟨hlen, hpoly⟩ := φ.poly_productLocator h
  obtain ⟨-, hle, hne, hnodup⟩ := h
  obtain ⟨l, hloc, hl, hlen'⟩ := ByteField.rsLocator_of_errors (φ.poly_errorSyndromes errs)
    ((Finset.card_range _).trans_le hle) (φ.listLocator_injOn hnodup) (fun i _ => φ.listLocator_ne_zero errs i)
    (fun i => φ.listValue_ne_zero hne)
  rw [Finset.card_range] at hloc hlen'
  rw [hloc, φ.eq_of_poly_eq (hlen'.trans hlen.symm) (hl.trans hpoly.symm)]

/-- Settles O21: the iteration keeps the constant term, and finds the locator of a set of at most three errors. -/
theorem locatorOfUpToThreeErrors : Obligations.LocatorOfUpToThreeErrors :=
  ⟨fun syn s => ⟨_, _, exec_rsLocator syn s, ByteField.head?_rsLocator syn⟩, fun errs s h => by
    rw [exec_rsLocator, execRsLocator, rsLocator_errorSyndromes h]⟩

/-! ### RS.FORNEY -/

theorem polyEval_polyDeriv (c : List Byte) (x : Int) : polyEval (polyDeriv c) (gfExp (-x)) = derivativeAt c x := by
  obtain ⟨F, _, ⟨φ⟩⟩ := exists_byteField
  exact φ.val_injective (by rw [φ.val_polyEval, φ.poly_polyDeriv, φ.val_derivativeAt])

theorem polyEval_rsOmega (syn : Syndromes) (c : List Byte) (x : Int) :
    polyEval (rsOmega syn c) (gfExp (-x)) = omegaAt syn c x := by
  obtain ⟨F, _, ⟨φ⟩⟩ := exists_byteField
  exact φ.val_injective (by rw [φ.val_polyEval, φ.val_omegaAt])

theorem gfDiv_eq_iff {b : Byte} (hb : b ≠ 0#8) (a y : Byte) : gfDiv a b = y ↔ gfMul y b = a :=
  ⟨fun h => h ▸ gfMul_gfDiv_cancel hb a, fun h => (eq_gfDiv_of_gfMul_eq hb h).symm⟩

/-- The magnitude at a position: the solution of Forney's equation, where there is one that is not zero (43 R176). -/
theorem forneyAt_eq_some_iff_gfMul_eq {syn : Syndromes} {c : List Byte} {n i : Nat} {y : Byte} :
    forneyAt (rsOmega syn c) (polyDeriv c) n i = some y ↔
      derivativeAt c (n - 1 - i) ≠ 0#8 ∧
        gfMul y (derivativeAt c (n - 1 - i)) = gfMul (gfExp (n - 1 - i)) (omegaAt syn c (n - 1 - i)) ∧ y ≠ 0#8 := by
  rw [forneyAt_eq_some_iff, wireExponent_eq, polyEval_polyDeriv, polyEval_rsOmega]
  exact and_congr_right fun hd => by rw [gfDiv_eq_iff hd]

theorem forneyAt_eq_none_iff {syn : Syndromes} {c : List Byte} {n i : Nat} :
    forneyAt (rsOmega syn c) (polyDeriv c) n i = none ↔
      derivativeAt c (n - 1 - i) = 0x00 ∨ omegaAt syn c (n - 1 - i) = 0x00 := by
  simp only [forneyAt, codec_fcr, Nat.cast_zero, sub_zero, mul_one, wireExponent_eq, polyEval_polyDeriv,
    polyEval_rsOmega]
  generalize (n - 1 - i : Int) = x
  split
  case isTrue hd => exact iff_of_true rfl (.inl hd)
  case isFalse hd =>
    have value_zero : gfDiv (gfMul (gfExp x) (omegaAt syn c x)) (derivativeAt c x) = 0#8 ↔ omegaAt syn c x = 0#8 := by
      rw [gfDiv_eq_iff hd, zero_gfMul, eq_comm, gfMul_eq_zero_iff]
      exact or_iff_right (gfExp_ne_zero x)
    split
    case isTrue hv => exact iff_of_true rfl (.inr (value_zero.1 hv))
    case isFalse hv => exact iff_of_false nofun (not_or.2 ⟨hd, mt value_zero.2 hv⟩)

theorem forneyAll_eq_none_iff {omega deriv : List Byte} {n : Nat} {pos : List Nat} :
    forneyAll omega deriv n pos = none ↔ ∃ i ∈ pos, forneyAt omega deriv n i = none := by
  induction pos with
  | nil => simp [forneyAll]
  | cons i pos ih =>
    rw [List.exists_mem_cons_iff, ← ih, forneyAll]
    cases forneyAt omega deriv n i <;> cases forneyAll omega deriv n pos <;> simp

theorem forneyAll_map {α : Type} {omega deriv : List Byte} {n : Nat} {f : α → Nat} {g : α → Byte} {l : List α}
    (h : ∀ a ∈ l, forneyAt omega deriv n (f a) = some (g a)) :
    forneyAll omega deriv n (l.map f) = some (l.map g) := by
  induction l with
  | nil => rfl
  | cons a l ih =>
    obtain ⟨ha, hl⟩ := List.forall_mem_cons.1 h
    exact forneyAll_cons_eq_some_iff.2 ⟨g a, l.map g, ha, ih hl, rfl⟩

namespace ByteField

variable {F : Type} [Field F] (φ : ByteField F) {errs : List (Byte × Nat)}

/-- The value of the other errors' locator at the inverse of the locator of error number `k`. -/
noncomputable def listOthersAt (errs : List (Byte × Nat)) (k : Nat) : F :=
  (errorLocator ((Finset.range errs.length).erase k) (φ.listLocator errs)).eval (φ.listLocator errs k)⁻¹

theorem val_derivativeAt_productLocator (h : SomeErrors errs) {k : Nat} (hk : k ∈ Finset.range errs.length) :
    φ.val (derivativeAt (productLocator (errs.map fun p => gfExp p.2)) (errs.getD k (0, 0)).2) =
      φ.listLocator errs k * φ.listOthersAt errs k := by
  have := φ.charP_two
  rw [val_derivativeAt, val_gfExp_neg, (φ.poly_productLocator h).2, ← CharTwo.neg_eq (φ.listLocator errs k)]
  exact eval_inv_derivative_errorLocator hk (φ.listLocator_ne_zero errs k)

theorem val_omegaAt_productLocator (h : SomeErrors errs) {k : Nat} (hk : k ∈ Finset.range errs.length) :
    φ.val (omegaAt (errorSyndromes errs) (productLocator (errs.map fun p => gfExp p.2)) (errs.getD k (0, 0)).2) =
      φ.listValue errs k * φ.listOthersAt errs k := by
  have hcard : (Finset.range errs.length).card ≤ 6 := by
    obtain ⟨-, hle, -, -⟩ := h
    rw [Finset.card_range]; omega
  rw [val_omegaAt, val_gfExp_neg,
    poly_rsOmega_of_errors (φ.poly_errorSyndromes errs) (φ.poly_productLocator h).2 hcard]
  exact eval_inv_errorEvaluator hk (φ.listLocator_ne_zero errs k)

end ByteField

/-- Forney's equation at the locator of an error holds for the error's value (43 R176). -/
theorem forneyAt_errorSyndromes {errs : List (Byte × Nat)} (h : SomeErrors errs) {p : Byte × Nat} (hp : p ∈ errs)
    {n i : Nat} (hi : (n - 1 - i : Int) = p.2) :
    forneyAt (rsOmega (errorSyndromes errs) (productLocator (errs.map fun p => gfExp p.2)))
      (polyDeriv (productLocator (errs.map fun p => gfExp p.2))) n i = some p.1 := by
  obtain ⟨F, _, ⟨φ⟩⟩ := exists_byteField
  obtain ⟨k, hk, rfl⟩ := List.getElem_of_mem hp
  have hmem := Finset.mem_range.2 hk
  have hderiv := φ.val_derivativeAt_productLocator h hmem
  have homega := φ.val_omegaAt_productLocator h hmem
  obtain ⟨-, -, hne, hnodup⟩ := h
  have hxk := φ.listLocator_ne_zero errs k
  have hothers : φ.listOthersAt errs k ≠ 0 := eval_inv_errorLocator_erase_ne_zero (φ.listLocator_injOn hnodup) hmem hxk
  rw [List.getD_eq_getElem _ _ hk] at hderiv homega
  rw [forneyAt_eq_some_iff_gfMul_eq, hi]
  refine ⟨mt φ.val_eq_zero_iff.2 (hderiv ▸ mul_ne_zero hxk hothers), φ.val_injective ?_, hne _ hp⟩
  rw [φ.val_gfMul, φ.val_gfMul, hderiv, homega, gfExp_natCast, ByteField.listLocator, ByteField.listValue,
    List.getD_eq_getElem _ _ hk]
  ring

/-- Settles O23: each magnitude solves Forney's equation, and the errors' values solve it at their locators. -/
theorem forneyGivesTheMagnitudes : Obligations.ForneyGivesTheMagnitudes := by
  refine ⟨fun syn c pos n s => ⟨_, exec_rsForney syn c pos n s, ?fails, fun l hl => ?gives⟩,
    fun errs n s h hn => ?errors⟩
  case fails =>
    rw [rsForney, forneyAll_eq_none_iff]
    simp only [forneyAt_eq_none_iff, List.mem_map, exists_exists_and_eq_and]
  case gives =>
    obtain ⟨e, he, rfl⟩ := forneyAll_eq_some_iff.1 hl
    refine ⟨by simp, fun k hk => ?_⟩
    have hmem : pos[k].toNat ∈ pos.map BitVec.toNat := List.mem_map_of_mem (List.getElem_mem hk)
    obtain ⟨-, heq, -⟩ := forneyAt_eq_some_iff_gfMul_eq.1 (he _ hmem)
    simpa [hk] using heq
  case errors =>
    rw [exec_rsForney, execRsForney, rsForney, List.map_map, forneyAll_map fun p hp => forneyAt_errorSyndromes h hp ?_]
    have := hn p hp
    have := n.isLt
    rw [Function.comp, BitVec.toNat_ofNat, Nat.mod_eq_of_lt (by omega)]
    omega

end Sys2Proof.Machine
end

section
/-! PROOFS. The frame deserializer's operations (spec/45_framer_decode.md): FR.DEC without the bound on its recursion,
and the operations that act on DEC where it stands at their step. -/

namespace Sys2Proof.Machine

/-! ### The dispatch of the six rows -/

theorem exec_frTakepfx (y : List Byte) (s : State) : exec (.frTakepfx y) s = execFrTakepfx y s := rfl

theorem exec_frTakepay (p : Byte) (y : List Byte) (s : State) : exec (.frTakepay p y) s = execFrTakepay p y s := rfl

theorem exec_frChecklen (p : Byte) (s : State) : exec (.frChecklen p) s = execFrChecklen p s := rfl

theorem exec_frMaxupd (e : BitVec 2) (s : State) : exec (.frMaxupd e) s = execFrMaxupd e s := rfl

theorem exec_frEofdet (b : Block) (s : State) : exec (.frEofdet b) s = execFrEofdet b s := rfl

theorem exec_frDec (y : List Byte) (m : BitVec 2) (s : State) : exec (.frDec y m) s = execFrDec y m s := rfl

/-! ### FR.DEC -/

/-- One recursion of FR.DEC, the rest of the stream being decoded by `next` (45 R226). -/
def frDecTurn (next : List Byte → Nat → StreamResult) (p : Byte) (rest : List Byte) (m : Nat) : StreamResult :=
  if rest.length < p.toNat then ⟨[], .fault .truncatedPayload, m, rest.length + 1⟩
  else if p.toNat < 6 then ⟨[], .fault .frameTooShort, m, 1 + p.toNat⟩
  else
    match rsDec (rest.take p.toNat) with
    | .uncorrectable => ⟨[], .fault .uncorrectable, m, 1 + p.toNat⟩
    | .ok b e =>
      if b.length = 0 then ⟨[], .done, max m e, 1 + p.toNat⟩
      else
        ⟨b :: (next (rest.drop p.toNat) (max m e)).blocks, (next (rest.drop p.toNat) (max m e)).outcome,
          (next (rest.drop p.toNat) (max m e)).maxerr, 1 + p.toNat + (next (rest.drop p.toNat) (max m e)).consumed⟩

theorem frDecFrom_nil (tries m : Nat) : frDecFrom tries [] m = ⟨[], .fault .truncatedPrefix, m, 0⟩ := by
  cases tries <;> rfl

theorem frDecFrom_succ_cons (tries : Nat) (p : Byte) (rest : List Byte) (m : Nat) :
    frDecFrom (tries + 1) (p :: rest) m = frDecTurn (frDecFrom tries) p rest m := by
  simp only [frDecFrom, frDecTurn, frTooShort_eq, frIsEof_eq, decide_eq_true_eq, List.length_cons]
    <;> rfl

/-- The rest of the stream is shorter, so a decoder that agrees on shorter streams gives the same turn. -/
theorem frDecTurn_congr {next next' : List Byte → Nat → StreamResult} {p : Byte} {rest : List Byte}
    (h : ∀ y m, y.length ≤ rest.length → next y m = next' y m) (m : Nat) :
    frDecTurn next p rest m = frDecTurn next' p rest m := by
  have hdrop (k : Nat) : next (rest.drop p.toNat) k = next' (rest.drop p.toNat) k := h _ _ (by simp)
  simp only [frDecTurn, hdrop]

/-- As many tries as the stream has bytes are enough. -/
theorem frDecFrom_eq_frDec {tries : Nat} {y : List Byte} (h : y.length ≤ tries) (m : Nat) :
    frDecFrom tries y m = frDec y m := by
  suffices ∀ n k k' (y : List Byte) m, y.length ≤ n → n ≤ k → n ≤ k' → frDecFrom k y m = frDecFrom k' y m from
    this y.length _ _ y m le_rfl h le_rfl
  intro n
  induction n with
  | zero =>
    intro k k' y m hy _ _
    rw [List.length_eq_zero_iff.1 (Nat.le_zero.1 hy), frDecFrom_nil, frDecFrom_nil]
  | succ n ih =>
    intro k k' y m hy hk hk'
    obtain ⟨k, rfl⟩ := Nat.exists_eq_add_one_of_ne_zero (by omega : k ≠ 0)
    obtain ⟨k', rfl⟩ := Nat.exists_eq_add_one_of_ne_zero (by omega : k' ≠ 0)
    cases y with
    | nil => rw [frDecFrom_nil, frDecFrom_nil]
    | cons p rest =>
      rw [List.length_cons] at hy
      rw [frDecFrom_succ_cons, frDecFrom_succ_cons]
      exact frDecTurn_congr (fun y m hlen => ih k k' y m (by omega) (by omega) (by omega)) m

theorem frDec_nil (m : Nat) : frDec [] m = ⟨[], .fault .truncatedPrefix, m, 0⟩ := rfl

theorem frDec_cons (p : Byte) (rest : List Byte) (m : Nat) : frDec (p :: rest) m = frDecTurn frDec p rest m := by
  rw [← frDecFrom_eq_frDec le_rfl, List.length_cons, frDecFrom_succ_cons]
  exact frDecTurn_congr (fun y m hlen => frDecFrom_eq_frDec hlen m) m

/-- Settles O30: as many tries as bytes are enough, so the bound on the recursion can be left out. -/
theorem frDecFollowsItsRecursion : Obligations.FrDecFollowsItsRecursion := by
  refine ⟨exec_frDec, frDec_nil, fun p rest m => ?_⟩
  rw [frDec_cons]
  rfl

/-! ### The operations at DEC's steps -/

theorem atBitsEnd_eq_true_iff (st : DecState) (d : Dec) : atBitsEnd st d = true ↔ BitsEndAt st d := atBitsEnd_iff

theorem atDecode_eq_true_iff (d : Dec) : atDecode d = true ↔ DecodesNow d := atDecode_iff

theorem raiseAt_of_here {here : Bool} (h : here = true) (f : FaultKind) (s : State) :
    raiseAt here f s = takeFault f s := by
  rw [raiseAt, if_pos h]

theorem raiseAt_of_elsewhere {here : Bool} (h : ¬ here = true) (f : FaultKind) (s : State) :
    raiseAt here f s = { s with result := .raised f } := by
  rw [raiseAt, if_neg h]

theorem execFrTakepay_of_le {p : Byte} {y : List Byte} (h : p.toNat ≤ y.length) (s : State) :
    execFrTakepay p y s = .next { s with result := .takenPayload (y.take p.toNat) (y.drop p.toNat) } := by
  simp only [execFrTakepay, frTakepay, if_neg h.not_gt]

theorem execFrTakepay_of_lt {p : Byte} {y : List Byte} (h : y.length < p.toNat) (s : State) :
    execFrTakepay p y s = .next (raiseAt (atBitsEnd .payload s.dec) .truncatedPayload s) := by
  simp only [execFrTakepay, frTakepay, if_pos h]

theorem execFrChecklen_of_le {p : Byte} (h : 6 ≤ p.toNat) (s : State) :
    execFrChecklen p s = .next { s with result := .lengthOk } := by
  simp [execFrChecklen, h.not_gt]

theorem execFrChecklen_of_lt {p : Byte} (h : p.toNat < 6) (s : State) :
    execFrChecklen p s = .next (raiseAt (atDecode s.dec) .frameTooShort s) := by
  simp [execFrChecklen, h]

/-- Settles O28: each operation's operand says whether it raises, and DEC's state where. -/
theorem frameStepsGiveValuesOrRaise : Obligations.FrameStepsGiveValuesOrRaise := by
  intro s
  simp only [← atBitsEnd_eq_true_iff, ← atDecode_eq_true_iff, exec_frTakepfx, exec_frTakepay, exec_frChecklen]
  have raised {here : Bool} (f : FaultKind) (h : here = true) :
      Host.Outcome.next (ρ := Refusal) (φ := Fault) (raiseAt here f s) =
        .next { s with dec := raiseFault f s.dec } := by
    rw [raiseAt_of_here h]; rfl
  have answered {here : Bool} (f : FaultKind) (h : ¬ here = true) :
      Host.Outcome.next (ρ := Refusal) (φ := Fault) (raiseAt here f s) = .next { s with result := .raised f } := by
    rw [raiseAt_of_elsewhere h]
  exact ⟨fun _ _ => rfl, raised _, answered _,
    fun _ _ h => execFrTakepay_of_le h s,
    fun _ _ h here => (execFrTakepay_of_lt h s).trans (raised _ here),
    fun _ _ h here => (execFrTakepay_of_lt h s).trans (answered _ here),
    fun _ h => execFrChecklen_of_le h s,
    fun _ h here => (execFrChecklen_of_lt h s).trans (raised _ here),
    fun _ h here => (execFrChecklen_of_lt h s).trans (answered _ here)⟩

theorem toNat_frMaxupd_maxerr {e : Nat} (he : e ≤ 255) (d : Dec) :
    (frMaxupd e d).maxerr.toNat = max d.maxerr.toNat e := by
  rw [frMaxupd_maxerr]
  split
  case isTrue h => rw [BitVec.toNat_ofNat, Nat.mod_eq_of_lt (by omega)]; omega
  case isFalse h => omega

theorem reportFlag_eq (maxerr : BitVec 8) : reportFlag maxerr = decide (maxerr ≠ 0) := by
  simp [reportFlag, bne, Bool.beq_eq_decide_eq]

/-- Settles O29: the two operations act at `D_DECODE` and answer elsewhere. -/
theorem maxupdAndEofdetEffects : Obligations.MaxupdAndEofdetEffects := by
  refine ⟨fun e s => ⟨(frMaxupd e.toNat s.dec).maxerr, toNat_frMaxupd_maxerr (by omega) s.dec, ?_⟩, fun b s hb => ?_,
    fun b s hb => ?_⟩
  · rw [exec_frMaxupd, execFrMaxupd, ← atDecode_eq_true_iff]
    exact ⟨fun here => if_pos here, fun elsewhere => if_neg elsewhere⟩
  · have hne : frIsEof b.val = false := by simpa using hb
    simp only [exec_frEofdet, execFrEofdet, hne, Bool.false_and, Bool.false_eq_true, if_false]
  · have heof : frIsEof b.val = true := by simp [hb]
    simp only [exec_frEofdet, execFrEofdet, heof, Bool.true_and, ← atDecode_eq_true_iff, ← reportFlag_eq]
    exact ⟨fun here => if_pos here, fun elsewhere => if_neg elsewhere⟩

end Sys2Proof.Machine
end

section
/-! PROOFS. Reading CSRs, reset and the host's moves (spec/10_state.md section 6, spec/70_reset_and_hazards.md). -/

namespace Sys2Proof.Machine

theorem exec_csrRead (k : BitVec 3) (s : State) : exec (.csrRead k) s = execCsrRead k s := rfl

/-! ### CSR layouts -/

/-- The fields of a status register as a number (10 R31, R32). -/
theorem toNat_statusFields : ∀ (b5 b4 b3 : Bool) (st : BitVec 3),
    (0#2 ++ BitVec.ofBool b5 ++ BitVec.ofBool b4 ++ BitVec.ofBool b3 ++ st).toNat =
      st.toNat + 8 * b3.toNat + 16 * b4.toNat + 32 * b5.toNat := by decide

theorem toNat_csrEncStatus (e : Enc) : (csrEncStatus e).toNat =
    (encStateCode e.st).toNat + 8 * (encDone e).toNat + 16 * e.srcend.toNat + 32 * e.lastf.toNat :=
  toNat_statusFields _ _ _ _

theorem toNat_csrDecStatus (d : Dec) : (csrDecStatus d).toNat =
    (decStateCode d.st).toNat + 8 * (decDone d).toNat + 16 * (decFaulted d).toNat + 32 * d.report.toNat :=
  toNat_statusFields _ _ _ _

theorem toNat_csrDecFault (d : Dec) : (csrDecFault d).toNat = d.fault.toNat := by
  have upper : ∀ f : BitVec 3, (0#5 ++ f).toNat = f.toNat := by decide
  exact upper _

/-- Settles O36: the value of each CSR number, the two status registers field by field. -/
theorem csrReadLayouts : Obligations.CsrReadLayouts := by
  refine fun k s => ⟨csrValue k s, exec_csrRead k s, ?_⟩
  refine ⟨?_, ?_, ?_, ?_, ?_, ?_, ?_, ?_⟩ <;> rintro rfl
  · rfl
  · rfl
  · refine (toNat_csrEncStatus s.enc).trans ?_
    rw [encDone]
    cases s.enc.st <;> rfl
  · refine (toNat_csrDecStatus s.dec).trans ?_
    rw [decDone, decFaulted]
    cases s.dec.st <;> rfl
  · exact toNat_csrDecFault s.dec
  · rfl
  · rfl
  · rfl

/-! ### Reset and idle engines -/

theorem encStep_of_idle {e : Enc} (h : e.st = .idle) : encStep e = .waits := by
  rw [encStep, h, ite_self]

theorem decStep_of_idle {d : Dec} (h : d.st = .idle) : decStep d = .waits := by
  rw [decStep, h, ite_self]

theorem step_of_agenda_nil {s : State} (h : s.agenda = []) : step s = engineTurn s := by
  simp only [step, h]

theorem step_of_waits {s : State} (ha : s.agenda = []) (he : encStep s.enc = .waits) (hd : decStep s.dec = .waits) :
    step s = .next s := by
  simp only [step_of_agenda_nil ha, engineTurn, he, decTurn, hd]

/-- Settles O37: the values after reset, and the waiting of idle engines in any state. -/
theorem resetLeavesBothEnginesIdle : Obligations.ResetLeavesBothEnginesIdle := by
  have idle_waits (s : State) (he : s.enc.st = .idle) (hd : s.dec.st = .idle) (ha : s.agenda = []) :
      step s = .next s := step_of_waits ha (encStep_of_idle he) (decStep_of_idle hd)
  exact ⟨fun _ => rfl, idle_waits _ rfl rfl rfl, by decide, fun _ => ⟨rfl, rfl, rfl, rfl, rfl, rfl, rfl⟩, idle_waits⟩

/-- Settles O57: an idle engine's registers meet the invariants. -/
theorem resetHasTheEngineInvariants : Obligations.ResetHasTheEngineInvariants := by
  unfold Obligations.ResetHasTheEngineInvariants Machine.Inv EncInv DecInv
  decide

/-! ### Host moves -/

theorem offer_of_open {α : Type} {p : InPort α} (h : p.ended = false) (l : List α) :
    offer l p = { p with queue := p.queue ++ l } := by
  simp [offer, h]

theorem offer_of_ended {α : Type} {p : InPort α} (h : p.ended = true) (l : List α) : offer l p = p := by
  simp [offer, h]

theorem declareEnd_of_ended {α : Type} {p : InPort α} (h : p.ended = true) : declareEnd p = p := by
  obtain ⟨queue, ended, n⟩ := p
  obtain rfl : ended = true := h
  rfl

/-- Settles O38: what each move's definition writes, and what the ports ignore once ended. -/
theorem hostMoveEffects : Obligations.HostMoveEffects := by
  refine fun s => ⟨fun h b => ?_, fun h b => ?_, rfl, rfl, rfl, rfl, fun h => ⟨fun b => ?_, ?_⟩,
    fun h => ⟨fun b => ?_, ?_⟩, fun v => rfl, fun k v hk => ?_, fun v h0 h1 => ?_⟩
  · rw [runMove, hostOfferTxi, offer_of_open h]
  · rw [runMove, hostOfferRxi, offer_of_open h]
  · rw [runMove, hostOfferTxi, offer_of_ended h]
  · rw [runMove, hostEndTxi, declareEnd_of_ended h]
  · rw [runMove, hostOfferRxi, offer_of_ended h]
  · rw [runMove, hostEndRxi, declareEnd_of_ended h]
  · rw [runMove, writeCsr, if_neg hk]
  · rw [runMove, writeCsr, if_pos rfl, writeCmd, h0, h1]
    rfl

end Sys2Proof.Machine
end

section
/-! PROOFS. `D_DECODE` (spec/47_engines.md R291, R292), an equation for each way it ends a frame. -/

namespace Sys2Proof.Machine

theorem decStep_of_decode {d : Dec} (hd : 0 < d.rxo.demand) (hst : d.st = .decode) :
    decStep d = .moves (decodeFrame d) := by
  simp [decStep, hd.ne', hst]

theorem decodeFrame_of_short {d : Dec} (h : d.pfx.toNat < 6) : decodeFrame d = raiseFault .frameTooShort d := by
  simp [decodeFrame, h]

section
variable {d : Dec} (h6 : 6 ≤ d.pfx.toNat)
include h6

theorem decodeFrame_of_uncorrectable (h : rsDec (bufTake d.buf d.pfx.toNat) = .uncorrectable) :
    decodeFrame d = raiseFault .uncorrectable d := by
  simp [decodeFrame, h6.not_gt, h]

theorem decodeFrame_of_eof {e : Nat} (h : rsDec (bufTake d.buf d.pfx.toNat) = .ok [] e) :
    decodeFrame d = endOfStream (frMaxupd e { d with buf := bufFill d.buf [] }) := by
  simp [decodeFrame, h6.not_gt, h]

theorem decodeFrame_of_block {b : List Byte} {e : Nat} (h : rsDec (bufTake d.buf d.pfx.toNat) = .ok b e) (hb : b ≠ []) :
    decodeFrame d = { frMaxupd e { d with buf := bufFill d.buf b } with
      olen := BitVec.ofNat 8 b.length, oi := 0, st := .drain } := by
  simp [decodeFrame, h6.not_gt, h, hb]

end

theorem length_bufTake_pfx (d : Dec) : (bufTake d.buf d.pfx.toNat).length = d.pfx.toNat := by
  rw [bufTake_length]
  omega

/-- The decoded Block has the frame's bytes less the parity, and a count within `MAXERR` (43 R170, R179). -/
theorem length_of_rsDec_bufTake {d : Dec} {b : List Byte} {e : Nat}
    (h : rsDec (bufTake d.buf d.pfx.toNat) = .ok b e) : b.length = d.pfx.toNat - 6 ∧ e ≤ 3 := by
  rw [← length_bufTake_pfx d]
  exact rsDec_ok_length h

theorem toList_bufFill_of_le {n : Nat} (v : Vector Byte n) {l : List Byte} (h : l.length ≤ n) :
    (bufFill v l).toList = l ++ v.toList.drop l.length := by
  rw [bufFill_toList, List.take_of_length_le h]

theorem ofNat_sub_six {p : Byte} (h : 6 ≤ p.toNat) : BitVec.ofNat 8 (p.toNat - 6) = p - 6 := by
  bv_omega

/-- Settles O50: the length check, then the two answers of RS.DEC, the Block being empty for the length 6. -/
theorem decDecodeStep : Obligations.DecDecodeStep := by
  intro d hd hst
  rw [decStep_of_decode hd hst]
  refine ⟨fun h => ?_, fun h6 h => ?_, fun b e h6 h => ⟨_, rfl, ?_⟩⟩
  · rw [decodeFrame_of_short h]; rfl
  · rw [decodeFrame_of_uncorrectable h6 h]; rfl
  · obtain ⟨hlen, he⟩ := length_of_rsDec_bufTake h
    have hbuf := toList_bufFill_of_le d.buf (l := b) (by omega)
    have hmax := toNat_frMaxupd_maxerr (e := e) (by omega) { d with buf := bufFill d.buf b }
    by_cases hb : b = []
    · subst hb
      rw [decodeFrame_of_eof h6 h]
      refine ⟨hbuf, hmax, fun _ => ?_, fun h7 => absurd hlen (by simp; omega)⟩
      rw [endOfStream, reportFlag_eq]
      rfl
    · rw [decodeFrame_of_block h6 h hb]
      refine ⟨hbuf, hmax, fun h7 => absurd (List.length_pos_iff.2 hb) (by omega), fun _ => ?_⟩
      rw [hlen, ofNat_sub_six h6]
      rfl

end Sys2Proof.Machine
end

section
/-! PROOFS. When an engine waits (spec/47_engines.md R281, R285), and what its turn does to the machine (R270, R300). -/

namespace Sys2Proof.Machine

/-! ### Waiting -/

theorem fillPull_eq_waits_iff (e : Enc) : fillPull e = .waits ↔ e.txi.queue = [] ∧ e.txi.ended = false := by
  rw [← pull_none, fillPull]
  split <;> rename_i h <;> simp [h]

theorem codeFrame_ne_waits (e : Enc) : codeFrame e ≠ .waits := by
  unfold codeFrame
  split <;> nofun

/-- A byte completes in `D_PREFIX` and in `D_PAYLOAD`. -/
theorem byteComplete_ne_waits (y : Byte) {d : Dec} (hst : d.st = .pfx ∨ d.st = .payload) :
    byteComplete y d ≠ .waits := by
  obtain h | h := hst
  · rw [byteComplete_of_pfx y h]; nofun
  · simp only [byteComplete, h]
    split <;> nofun

theorem takeBit_eq_waits_iff {d : Dec} (hst : d.st = .pfx ∨ d.st = .payload) :
    takeBit d = .waits ↔ d.rxi.queue = [] ∧ d.rxi.ended = false := by
  rw [← pull_none, takeBit]
  split
  case h_1 h => simp [h]
  case h_2 b rxi h =>
    refine iff_of_false ?_ (by simp [h])
    simp only [bitTaken]
    split
    · nofun
    · exact byteComplete_ne_waits _ hst
  case h_3 rxi h =>
    refine iff_of_false ?_ (by simp [h])
    obtain h | h := hst <;> simp [bitsEnded, h]

theorem drainByte_ne_waits (d : Dec) : drainByte d ≠ .waits := by
  simp only [drainByte]
  split_ifs <;> nofun

theorem encStep_eq_waits_iff {e : Enc} (hb : e.blen.toNat ≤ 249) :
    encStep e = .waits ↔ e.st = .idle ∨ e.txo.demand = 0 ∨
      (e.st = .fill ∧ e.srcend = false ∧ e.blen.toNat < 249 ∧ e.txi.queue = [] ∧ e.txi.ended = false) := by
  obtain hd | hd := Nat.eq_zero_or_pos e.txo.demand
  · simp [encStep, hd]
  · cases hst : e.st with
    | idle => simp [encStep_of_idle hst]
    | fill =>
      by_cases hc : e.blen.toNat = 249 ∨ e.srcend = true
      · rw [encStep_of_complete hd hst hc]
        simp only [reduceCtorEq, false_or, hd.ne', true_and, false_iff]
        grind
      · have hs : e.srcend = false := by grind
        have hlt : e.blen.toNat < 249 := by omega
        rw [encStep_of_incomplete hd hst hs hlt, fillPull_eq_waits_iff]
        simp [hd.ne', hs, hlt]
    | code => simp [encStep_of_code hd hst, codeFrame_ne_waits, hd.ne']
    | shift => simp [encStep_of_shift hd hst, hd.ne']
    | done => simp [encStep_of_done hd hst, hd.ne']

theorem decStep_eq_waits_iff (d : Dec) :
    decStep d = .waits ↔ d.st = .idle ∨ d.rxo.demand = 0 ∨
      ((d.st = .pfx ∨ d.st = .payload) ∧ d.rxi.queue = [] ∧ d.rxi.ended = false) := by
  obtain hd | hd := Nat.eq_zero_or_pos d.rxo.demand
  · simp [decStep, hd]
  · by_cases hbit : d.st = .pfx ∨ d.st = .payload
    · rw [decStep_of_bit hd hbit, takeBit_eq_waits_iff hbit]
      grind
    · cases hst : d.st with
      | idle => simp [decStep_of_idle hst]
      | pfx => exact absurd (.inl hst) hbit
      | payload => exact absurd (.inr hst) hbit
      | decode => simp [decStep_of_decode hd hst, hd.ne']
      | drain => simp [decStep_of_drain hd hst, drainByte_ne_waits, hd.ne']
      | done => simp [decStep_of_done hd hst, hd.ne']
      | fault => simp [decStep_of_fault hd hst, hd.ne']

/-- Settles O45: the guards of every state, then the turn as the machine's step. -/
theorem enginesWaitAndMove : Obligations.EnginesWaitAndMove := by
  refine ⟨fun e => encStep_eq_waits_iff, decStep_eq_waits_iff, fun s => ⟨fun he => ?_, fun hd => ?_, fun e' he => ?_,
    fun d' hd => ?_, fun m rest => step_of_agenda, fun ha => ⟨fun e' he => ?_, fun d' he hd => ?_, step_of_waits ha⟩⟩⟩
  · simp only [runMove, encTurn, he]
  · simp only [runMove, decTurn, hd]
  · simp only [runMove, encTurn, he]
  · simp only [runMove, decTurn, hd]
  · simp only [step_of_agenda_nil ha, engineTurn, he]
  · simp only [step_of_agenda_nil ha, engineTurn, he, decTurn, hd]

/-! ### The moves of one engine's side -/

/-- What a move of ENC's side does to ENC. -/
def encAct (m : Move) (e : Enc) : Turn Enc :=
  match m with
  | .encTurn => encStep e
  | .offerTxi b => .moves { e with txi := offer [b] e.txi }
  | .endTxi => .moves { e with txi := declareEnd e.txi }
  | .demandTxo => .moves { e with txo := raiseDemand e.txo }
  | _ => .waits

/-- What a move of DEC's side does to DEC. -/
def decAct (m : Move) (d : Dec) : Turn Dec :=
  match m with
  | .decTurn => decStep d
  | .offerRxi b => .moves { d with rxi := offer [b] d.rxi }
  | .endRxi => .moves { d with rxi := declareEnd d.rxi }
  | .demandRxo => .moves { d with rxo := raiseDemand d.rxo }
  | _ => .waits

/-- ENC's turn as an outcome of the machine. -/
def putEnc (t : Turn Enc) (s : State) : Result :=
  match t with
  | .waits => .next s
  | .moves e => .next { s with enc := e }
  | .stops f => .fault f

/-- DEC's turn as an outcome of the machine. -/
def putDec (t : Turn Dec) (s : State) : Result :=
  match t with
  | .waits => .next s
  | .moves d => .next { s with dec := d }
  | .stops f => .fault f

theorem runMove_of_encSide {m : Move} (h : encSide m = true) (s : State) : runMove m s = putEnc (encAct m s.enc) s := by
  cases m with
  | encTurn | offerTxi b | endTxi | demandTxo => rfl
  | _ => cases h

theorem runMove_of_decSide {m : Move} (h : decSide m = true) (s : State) : runMove m s = putDec (decAct m s.dec) s := by
  cases m with
  | decTurn | offerRxi b | endRxi | demandRxo => rfl
  | _ => cases h

/-- Settles O54: each side's move reads and writes its own engine alone. -/
theorem enginesAreIndependent : Obligations.EnginesAreIndependent := by
  intro m m' s hm hm'
  have run := runMove_of_encSide hm
  have run' := runMove_of_decSide hm'
  refine ⟨?_, fun t ht => ?_, fun t ht => ?_⟩
  · simp only [runTwo, run, run']
    cases he : encAct m s.enc <;> cases hd : decAct m' s.dec <;> simp only [putEnc, putDec, he, hd]
  · rw [run] at ht
    cases he : encAct m s.enc <;> rw [he] at ht <;> cases ht <;> exact ⟨rfl, rfl⟩
  · rw [run'] at ht
    cases hd : decAct m' s.dec <;> rw [hd] at ht <;> cases ht <;> exact ⟨rfl, rfl⟩

/-! ### Ports after an element offered or demand raised -/

theorem emit_raiseDemand {α : Type} (a : α) {p : OutPort α} (h : 0 < p.demand) :
    emit a (raiseDemand p) = raiseDemand (emit a p) :=
  congrArg (OutPort.mk _ · _) ((Nat.add_sub_cancel ..).trans (Nat.sub_add_cancel h).symm)

theorem present_raiseDemand {α : Type} [DecidableEq α] (a : α) {p : OutPort α} (h : 0 < p.demand) :
    present a (raiseDemand p) = raiseDemand (present a p) :=
  congrArg (OutPort.mk _ · _) ((Nat.add_sub_cancel ..).trans (Nat.sub_add_cancel h).symm)

/-- The element next to be taken stays so when another is offered. -/
theorem offer_queue_of_cons {α : Type} {p : InPort α} {v : α} {rest : List α} (hq : p.queue = v :: rest) (a : α) :
    ∃ rest', (offer [a] p).queue = v :: rest' ∧
      { offer [a] p with queue := rest', n := (offer [a] p).n + 1 } =
        offer [a] { p with queue := rest, n := p.n + 1 } := by
  obtain ⟨queue, ended, n⟩ := p
  obtain rfl : queue = v :: rest := hq
  cases ended
  · exact ⟨rest ++ [a], rfl, rfl⟩
  · exact ⟨rest, rfl, rfl⟩

/-! ### ENC's steps and its ports -/

/-- ENC with other ports. -/
def withEncPorts (x : InPort Byte) (y : OutPort TxoEvent) (e : Enc) : Enc := { e with txi := x, txo := y }

theorem codeFrame_withEncPorts {e e' : Enc} (h : codeFrame e = .moves e') (x : InPort Byte) (y : OutPort TxoEvent) :
    codeFrame (withEncPorts x y e) = .moves (withEncPorts x y e') ∧ e'.txi = e.txi ∧ e'.txo = e.txo := by
  obtain ⟨hb, rfl⟩ := codeFrame_cases h
  exact ⟨if_pos hb, rfl, rfl⟩

theorem shiftNext_withEncPorts (x : InPort Byte) (y : OutPort TxoEvent) (e : Enc) :
    shiftNext (withEncPorts x y e) = withEncPorts x y (shiftNext e) := by
  unfold shiftNext withEncPorts
  split_ifs <;> rfl

theorem shiftNext_txi (e : Enc) : (shiftNext e).txi = e.txi := by
  obtain ⟨-, h⟩ | ⟨-, -, h⟩ | ⟨-, -, -, h⟩ | ⟨-, -, -, h⟩ := shiftNext_cases e <;> rw [h]

theorem shiftOut_withEncPorts (x : InPort Byte) (y : OutPort TxoEvent) (e : Enc) :
    shiftOut (withEncPorts x y e) = withEncPorts x (emit (.bit (shiftBit e)) y) (shiftOut e) := by
  rw [shiftOut, shiftOut, ← shiftNext_withEncPorts]
  rfl

theorem encStep_offer {e e' : Enc} (h : encStep e = .moves e') (b : Byte) :
    encStep { e with txi := offer [b] e.txi } = .moves { e' with txi := offer [b] e'.txi } := by
  change encStep (withEncPorts (offer [b] e.txi) e.txo e) = .moves (withEncPorts (offer [b] e'.txi) e'.txo e')
  have hd' : 0 < e.txo.demand → 0 < (withEncPorts (offer [b] e.txi) e.txo e).txo.demand := id
  obtain ⟨hd, ⟨hst, hc, rfl⟩ | ⟨hst, hs, hlt, hpull⟩ | ⟨hst, hcode⟩ | ⟨hst, rfl⟩ | ⟨hst, rfl⟩⟩ := encStep_cases h
  · exact encStep_of_complete (hd' hd) hst hc
  · refine (encStep_of_incomplete (hd' hd) hst hs hlt).trans ?_
    obtain ⟨v, rest, hq, rfl⟩ | ⟨hq, he, rfl⟩ := fillPull_cases hpull
    · obtain ⟨rest', hq', hpop⟩ := offer_queue_of_cons hq b
      rw [fillPull_of_cons hq', ← hpop]
      rfl
    · simp only [offer_of_ended he]
      exact fillPull_of_ended hq he
  · obtain ⟨hcode, htxi, htxo⟩ := codeFrame_withEncPorts hcode (offer [b] e.txi) e.txo
    rw [htxi, htxo]
    exact (encStep_of_code (hd' hd) hst).trans hcode
  · refine (encStep_of_shift (hd' hd) hst).trans ?_
    rw [shiftOut_withEncPorts, shiftOut_txo, show (shiftOut e).txi = e.txi from shiftNext_txi _]
  · exact encStep_of_done (hd' hd) hst

theorem encStep_raiseDemand {e e' : Enc} (h : encStep e = .moves e') :
    encStep { e with txo := raiseDemand e.txo } = .moves { e' with txo := raiseDemand e'.txo } := by
  change encStep (withEncPorts e.txi (raiseDemand e.txo) e) = .moves (withEncPorts e'.txi (raiseDemand e'.txo) e')
  have hd' : 0 < (withEncPorts e.txi (raiseDemand e.txo) e).txo.demand := Nat.succ_pos _
  obtain ⟨hd, ⟨hst, hc, rfl⟩ | ⟨hst, hs, hlt, hpull⟩ | ⟨hst, hcode⟩ | ⟨hst, rfl⟩ | ⟨hst, rfl⟩⟩ := encStep_cases h
  · exact encStep_of_complete hd' hst hc
  · refine (encStep_of_incomplete hd' hst hs hlt).trans ?_
    obtain ⟨v, rest, hq, rfl⟩ | ⟨hq, he, rfl⟩ := fillPull_cases hpull
    · exact fillPull_of_cons hq
    · exact fillPull_of_ended hq he
  · obtain ⟨hcode, htxi, htxo⟩ := codeFrame_withEncPorts hcode e.txi (raiseDemand e.txo)
    rw [htxi, htxo]
    exact (encStep_of_code hd' hst).trans hcode
  · refine (encStep_of_shift hd' hst).trans ?_
    rw [shiftOut_withEncPorts, shiftOut_txo, emit_raiseDemand _ hd, show (shiftOut e).txi = e.txi from shiftNext_txi _]
  · refine (encStep_of_done hd' hst).trans ?_
    simp only [encPresent, withEncPorts, present_raiseDemand _ hd]

/-! ### DEC's steps and its ports -/

/-- DEC with other ports. -/
def withDecPorts (x : InPort Bit) (y : OutPort RxoEvent) (d : Dec) : Dec := { d with rxi := x, rxo := y }

theorem byteComplete_withDecPorts {z : Byte} {d d' : Dec} (h : byteComplete z d = .moves d') (x : InPort Bit)
    (y : OutPort RxoEvent) :
    byteComplete z (withDecPorts x y d) = .moves (withDecPorts x y d') ∧ d'.rxi = d.rxi ∧ d'.rxo = d.rxo := by
  obtain ⟨hst, rfl⟩ | ⟨hst, hc, rfl⟩ := byteComplete_cases h
  · exact ⟨byteComplete_of_pfx z hst, rfl, rfl⟩
  · exact ⟨byteComplete_of_payload z hst hc, rfl, rfl⟩

theorem bitTaken_withDecPorts {b : Bit} {d d' : Dec} (h : bitTaken b d = .moves d') (x : InPort Bit)
    (y : OutPort RxoEvent) :
    bitTaken b (withDecPorts x y d) = .moves (withDecPorts x y d') ∧ d'.rxi = d.rxi ∧ d'.rxo = d.rxo := by
  obtain ⟨hnb, rfl⟩ | ⟨hnb, hbyte⟩ := bitTaken_cases h
  · exact ⟨bitTaken_of_lt hnb, rfl, rfl⟩
  · obtain ⟨hbyte, hrxi, hrxo⟩ := byteComplete_withDecPorts hbyte x y
    exact ⟨(if_neg hnb.not_gt).trans hbyte, hrxi, hrxo⟩

theorem decodeFrame_withDecPorts (x : InPort Bit) (y : OutPort RxoEvent) (d : Dec) :
    decodeFrame (withDecPorts x y d) = withDecPorts x y (decodeFrame d) ∧
      (decodeFrame d).rxi = d.rxi ∧ (decodeFrame d).rxo = d.rxo := by
  obtain ⟨hp, h⟩ | ⟨h6, hr, h⟩ | ⟨b, e, h6, hr, ⟨rfl, h⟩ | ⟨hb, h⟩⟩ := decodeFrame_cases d <;> rw [h]
  · exact ⟨decodeFrame_of_short (d := withDecPorts x y d) hp, rfl, rfl⟩
  · exact ⟨decodeFrame_of_uncorrectable (d := withDecPorts x y d) h6 hr, rfl, rfl⟩
  · exact ⟨decodeFrame_of_eof (d := withDecPorts x y d) h6 hr, rfl, rfl⟩
  · exact ⟨decodeFrame_of_block (d := withDecPorts x y d) h6 hr hb, rfl, rfl⟩

/-- The event `D_DRAIN` emits (47 R293). -/
def drainEvent (d : Dec) : RxoEvent := .byte (bufGet d.buf d.oi.toNat) (d.oi.toNat + 1 == d.olen.toNat)

theorem drainByte_withDecPorts {d d' : Dec} (h : drainByte d = .moves d') (x : InPort Bit) (y : OutPort RxoEvent) :
    drainByte (withDecPorts x y d) = .moves (withDecPorts x (emit (drainEvent d) y) d') ∧
      d'.rxi = d.rxi ∧ d'.rxo = emit (drainEvent d) d.rxo := by
  unfold drainByte at h
  split at h
  case isTrue hi =>
    have hdrain : drainByte (withDecPorts x y d) = _ := if_pos hi
    rw [hdrain]
    split at h <;> rename_i hl <;> cases h
    · exact ⟨if_pos hl, rfl, rfl⟩
    · exact ⟨if_neg hl, rfl, rfl⟩
  case isFalse => cases h

theorem decStep_offer {d d' : Dec} (h : decStep d = .moves d') (b : Bit) :
    decStep { d with rxi := offer [b] d.rxi } = .moves { d' with rxi := offer [b] d'.rxi } := by
  change decStep (withDecPorts (offer [b] d.rxi) d.rxo d) = .moves (withDecPorts (offer [b] d'.rxi) d'.rxo d')
  have hd' : 0 < d.rxo.demand → 0 < (withDecPorts (offer [b] d.rxi) d.rxo d).rxo.demand := id
  obtain ⟨hd, ⟨hst, htake⟩ | ⟨hst, rfl⟩ | ⟨hst, hdrain⟩ | ⟨hst, rfl⟩ | ⟨hst, rfl⟩⟩ := decStep_cases h
  · refine (decStep_of_bit (hd' hd) hst).trans ?_
    obtain ⟨v, rest, hq, hbit⟩ | ⟨hq, he, hend⟩ := takeBit_cases htake
    · obtain ⟨rest', hq', hpop⟩ := offer_queue_of_cons hq b
      obtain ⟨hbit, hrxi, hrxo⟩ := bitTaken_withDecPorts hbit
        (offer [b] { d.rxi with queue := rest, n := d.rxi.n + 1 }) d.rxo
      rw [takeBit_of_cons hq', hrxi, hrxo, ← hbit, ← hpop]
      rfl
    · obtain ⟨-, rfl⟩ | ⟨-, rfl⟩ := hend <;> rw [raiseFault_rxi, offer_of_ended he] <;> exact htake
  · obtain ⟨hdec, hrxi, hrxo⟩ := decodeFrame_withDecPorts (offer [b] d.rxi) d.rxo d
    rw [hrxi, hrxo, ← hdec]
    exact decStep_of_decode (hd' hd) hst
  · obtain ⟨hdrain, hrxi, hrxo⟩ := drainByte_withDecPorts hdrain (offer [b] d.rxi) d.rxo
    rw [hrxi, hrxo, ← hdrain]
    exact decStep_of_drain (hd' hd) hst
  · exact decStep_of_done (hd' hd) hst
  · exact decStep_of_fault (hd' hd) hst

theorem decStep_raiseDemand {d d' : Dec} (h : decStep d = .moves d') :
    decStep { d with rxo := raiseDemand d.rxo } = .moves { d' with rxo := raiseDemand d'.rxo } := by
  change decStep (withDecPorts d.rxi (raiseDemand d.rxo) d) = .moves (withDecPorts d'.rxi (raiseDemand d'.rxo) d')
  have hd' : 0 < (withDecPorts d.rxi (raiseDemand d.rxo) d).rxo.demand := Nat.succ_pos _
  obtain ⟨hd, ⟨hst, htake⟩ | ⟨hst, rfl⟩ | ⟨hst, hdrain⟩ | ⟨hst, rfl⟩ | ⟨hst, rfl⟩⟩ := decStep_cases h
  · refine (decStep_of_bit hd' hst).trans ?_
    obtain ⟨v, rest, hq, hbit⟩ | ⟨hq, he, ⟨hst, rfl⟩ | ⟨hst, rfl⟩⟩ := takeBit_cases htake
    · obtain ⟨hbit, hrxi, hrxo⟩ :=
        bitTaken_withDecPorts hbit { d.rxi with queue := rest, n := d.rxi.n + 1 } (raiseDemand d.rxo)
      rw [hrxi, hrxo, ← hbit]
      exact takeBit_of_cons hq
    · exact (takeBit_of_ended (d := withDecPorts d.rxi (raiseDemand d.rxo) d) hq he).trans (bitsEnded_of_pfx hst)
    · exact (takeBit_of_ended (d := withDecPorts d.rxi (raiseDemand d.rxo) d) hq he).trans (bitsEnded_of_payload hst)
  · obtain ⟨hdec, hrxi, hrxo⟩ := decodeFrame_withDecPorts d.rxi (raiseDemand d.rxo) d
    rw [hrxi, hrxo, ← hdec]
    exact decStep_of_decode hd' hst
  · obtain ⟨hdrain, hrxi, hrxo⟩ := drainByte_withDecPorts hdrain d.rxi (raiseDemand d.rxo)
    rw [hrxi, hrxo, ← emit_raiseDemand _ hd, ← hdrain]
    exact decStep_of_drain hd' hst
  · refine (decStep_of_done hd' hst).trans ?_
    simp only [decPresent, withDecPorts, present_raiseDemand _ hd]
  · refine (decStep_of_fault hd' hst).trans ?_
    simp only [decPresent, withDecPorts, present_raiseDemand _ hd]

/-- Settles O55: no step reads more of its ports than the element taken, the end and whether there is demand. -/
theorem hostMovesKeepEnabledSteps : Obligations.HostMovesKeepEnabledSteps :=
  ⟨fun _ _ b h => ⟨encStep_offer h b, encStep_raiseDemand h⟩, fun _ _ b h => ⟨decStep_offer h b, decStep_raiseDemand h⟩⟩

end Sys2Proof.Machine
end

section
/-! PROOFS. The invariants of spec/47_engines.md R271: what any step of the machine can do to each engine, said once,
and that each of these changes keeps the invariants, `MAXERR`, and the terminal states. -/

namespace Sys2Proof.Machine

/-! ### What a step can do to an engine -/

/-- What a step can do to ENC. -/
inductive EncChange (e : Enc) : Enc → Prop
  | ports (x : InPort Byte) (y : OutPort TxoEvent) : EncChange e (withEncPorts x y e)
  | turn {e' : Enc} : encStep e = .moves e' → EncChange e e'
  | start : EncChange e (startEnc e)
  | reset : EncChange e {}

/-- What a step can do to DEC, but start or reset it. -/
inductive DecChange (d : Dec) : Dec → Prop
  /-- the host's moves on the ports, and what is queued (20 R52, R53) -/
  | ports (x : InPort Bit) (y : OutPort RxoEvent) :
    x.n = d.rxi.n → y.n = d.rxo.n → DecChange d (withDecPorts x y d)
  /-- an enabled step of the engine -/
  | turn {d' : Dec} : decStep d = .moves d' → DecChange d d'
  /-- an exception taken by an operation or at the end of the frame stream (log 10, 15) -/
  | raise (f : FaultKind) (x : InPort Bit) :
    d.st = .pfx ∨ d.st = .payload ∨ d.st = .decode → DecChange d (raiseFault f (withDecPorts x d.rxo d))
  /-- a frame taken whole (log 13) -/
  | frame (p : Byte) (w : List Byte) : frameReady d = true → DecChange d (takeFrame p w d)
  /-- a bit group taken whole (log 14) -/
  | group {d' : Dec} (t : BitTuple) :
    d.st = .pfx ∨ d.st = .payload → takeGroup t d = .moves d' → DecChange d d'
  /-- FR.MAXUPD at `D_DECODE` (log 26) -/
  | maxupd (e : Nat) : d.st = .decode → e ≤ 3 → DecChange d (frMaxupd e d)
  /-- FR.EOFDET at `D_DECODE` (log 11) -/
  | eof : d.st = .decode → DecChange d (endOfStream d)

/-- What a step can do to DEC; `restart` says whether it may be a START or reset. -/
inductive DecStepTo (restart : Prop) (d : Dec) : Dec → Prop
  | change {d' : Dec} : DecChange d d' → DecStepTo restart d d'
  | start : restart → DecStepTo restart d (startDec d)
  | reset : restart → DecStepTo restart d {}

theorem EncChange.refl (e : Enc) : EncChange e e := .ports e.txi e.txo

theorem DecChange.refl (d : Dec) : DecChange d d := .ports d.rxi d.rxo rfl rfl

theorem frameReady_iff (d : Dec) : frameReady d = true ↔ d.st = .pfx ∧ groupReady d = true := by
  simp [frameReady]

theorem groupReady_iff (d : Dec) :
    groupReady d = true ↔ d.nb = 0 ∧ 0 < d.rxo.demand ∧ d.rxi.queue = [] ∧ d.rxi.ended = false := by
  simp [groupReady, and_assoc]

/-- The rows whose meaning is more than an answer left in `result`. -/
def actsOnEngine : Instr → Bool
  | .bitgroup _ | .frTakepfx _ | .frTakepay _ _ | .frChecklen _ | .frMaxupd _ | .frEofdet _
  | .encStart _ _ | .decStart _ _ => true
  | i => (frameClass i).isSome

/-- The cases of an instruction by what it acts on: the pure rows together, and all the frames together. -/
theorem instr_cases {motive : Instr → Prop} (pure : ∀ i, actsOnEngine i = false → motive i)
    (frame : ∀ p w, motive (frameOf p w)) (bitgroup : ∀ t, motive (.bitgroup t))
    (frTakepfx : ∀ y, motive (.frTakepfx y)) (frTakepay : ∀ p y, motive (.frTakepay p y))
    (frChecklen : ∀ p, motive (.frChecklen p)) (frMaxupd : ∀ e, motive (.frMaxupd e))
    (frEofdet : ∀ b, motive (.frEofdet b)) (encStart : ∀ d r, motive (.encStart d r))
    (decStart : ∀ e r, motive (.decStart e r)) (i : Instr) : motive i := by
  by_cases hf : frameClass i = none
  · cases i with
    | bitgroup t => exact bitgroup t
    | frTakepfx y => exact frTakepfx y
    | frTakepay p y => exact frTakepay p y
    | frChecklen p => exact frChecklen p
    | frMaxupd e => exact frMaxupd e
    | frEofdet b => exact frEofdet b
    | encStart d r => exact encStart d r
    | decStart e r => exact decStart e r
    | _ => exact pure _ (congrArg Option.isSome hf)
  · obtain ⟨p, w, -, rfl⟩ := eq_frameOf hf
    exact frame p w

theorem exec_of_not_actsOnEngine {i : Instr} (h : actsOnEngine i = false) (s : State) :
    ∃ r, exec i s = .next { s with result := r } := by
  cases i with
  | frameShort00 | frameShort04 | frameEof | frameData07 | frameData08 | frameData10 | frameData20 | frameData40
  | frameData80 | bitgroup | frTakepfx | frTakepay | frChecklen | frMaxupd | frEofdet | encStart | decStart => cases h
  | _ => exact ⟨_, rfl⟩

/-! ### Instructions -/

theorem decChange_raiseAt {here : Bool} (f : FaultKind) {s : State}
    (h : here = true → s.dec.st = .pfx ∨ s.dec.st = .payload ∨ s.dec.st = .decode) :
    (raiseAt here f s).enc = s.enc ∧ DecChange s.dec (raiseAt here f s).dec := by
  obtain ⟨hh, h'⟩ | ⟨-, h'⟩ := raiseAt_cases here f s <;> rw [h']
  · exact ⟨rfl, .raise f s.dec.rxi (h hh)⟩
  · exact ⟨rfl, .refl _⟩

theorem offerFrame_rxi_n (p : Byte) (w : List Byte) (d : Dec) : (offerFrame p w d).rxi.n = d.rxi.n := by
  simp only [offerFrame]
  split <;> simp

theorem decChange_receiveFrame (p : Byte) (w : List Byte) (s : State) :
    ∃ d, receiveFrame p w s = .next { s with dec := d } ∧ DecChange s.dec d := by
  rw [receiveFrame_next]
  refine ⟨_, rfl, ?_⟩
  split
  case isTrue hr => exact .frame p w hr
  case isFalse hr => exact .ports _ s.dec.rxo (offerFrame_rxi_n p w s.dec) rfl

/-- A group is taken or queued, or completes a byte that has no place in `BUF` (log 20). -/
theorem decChange_receiveGroup (g : BitTuple) (s : State) :
    (∃ d, receiveGroup g s = .next { s with dec := d } ∧ DecChange s.dec d) ∨
    ((s.dec.st = .pfx ∨ s.dec.st = .payload) ∧ ∃ f, takeGroup g s.dec = .stops f ∧ receiveGroup g s = .fault f) := by
  unfold receiveGroup
  split
  case isTrue hr =>
    have hst : s.dec.st = .pfx ∨ s.dec.st = .payload := by
      simp only [Bool.and_eq_true, Bool.or_eq_true, beq_iff_eq] at hr
      exact hr.1
    split
    case h_1 d hd => exact .inl ⟨d, rfl, .group g hst hd⟩
    case h_2 f hf => exact .inr ⟨hst, f, hf, rfl⟩
    case h_3 => exact .inl ⟨s.dec, rfl, .refl _⟩
  case isFalse hr => exact .inl ⟨_, rfl, .ports _ s.dec.rxo (offer_n _ _) rfl⟩

/-- The instruction starts DEC. -/
def startsDec (i : Instr) : Prop := (∃ r, i = .encStart true r) ∨ ∃ e r, i = .decStart e r

/-- What an instruction does to the engines. -/
theorem exec_change (i : Instr) (s : State) :
    (∃ t, exec i s = .next t ∧ EncChange s.enc t.enc ∧ DecStepTo (startsDec i) s.dec t.dec) ∨
    ((s.dec.st = .pfx ∨ s.dec.st = .payload) ∧ ∃ g f, takeGroup g s.dec = .stops f ∧ exec i s = .fault f) := by
  have decOnly {t : State} (h : t.enc = s.enc ∧ DecChange s.dec t.dec) :
      EncChange s.enc t.enc ∧ DecStepTo (startsDec i) s.dec t.dec := ⟨h.1 ▸ .refl _, .change h.2⟩
  cases i using instr_cases with
  | pure i hi =>
    obtain ⟨r, h⟩ := exec_of_not_actsOnEngine hi s
    exact .inl ⟨_, h, decOnly ⟨rfl, .refl _⟩⟩
  | frame p w =>
    obtain ⟨d, h, hd⟩ := decChange_receiveFrame p w s
    exact .inl ⟨_, (exec_frameOf p w s).trans h, decOnly ⟨rfl, hd⟩⟩
  | bitgroup g =>
    obtain ⟨d, h, hd⟩ | ⟨hst, f, hf, h⟩ := decChange_receiveGroup g s
    · exact .inl ⟨_, h, decOnly ⟨rfl, hd⟩⟩
    · exact .inr ⟨hst, g, f, hf, h⟩
  | frTakepfx y =>
    cases y with
    | nil => 
      exact .inl ⟨_, rfl, decOnly (decChange_raiseAt _ fun h => .inl (atBitsEnd_iff.1 h).1)⟩
    | cons p y => exact .inl ⟨_, rfl, decOnly ⟨rfl, .refl _⟩⟩
  | frTakepay p y =>
    obtain h | h := Nat.lt_or_ge y.length p.toNat
    · exact .inl ⟨_, execFrTakepay_of_lt h s,
        decOnly (decChange_raiseAt _ fun h => .inr (.inl (atBitsEnd_iff.1 h).1))⟩
    · exact .inl ⟨_, execFrTakepay_of_le h s, decOnly ⟨rfl, .refl _⟩⟩
  | frChecklen p =>
    obtain h | h := Nat.lt_or_ge p.toNat 6
    · exact .inl ⟨_, execFrChecklen_of_lt h s, decOnly (decChange_raiseAt _ fun h => .inr (.inr (atDecode_iff.1 h).1))⟩
    · exact .inl ⟨_, execFrChecklen_of_le h s, decOnly ⟨rfl, .refl _⟩⟩
  | frMaxupd e =>
    rw [exec_frMaxupd, execFrMaxupd]
    split
    case isTrue h => exact .inl ⟨_, rfl, decOnly ⟨rfl, .maxupd e.toNat (atDecode_iff.1 h).1 (Nat.le_of_lt_succ e.isLt)⟩⟩
    · exact .inl ⟨_, rfl, decOnly ⟨rfl, .refl _⟩⟩
  | frEofdet b =>
    rw [exec_frEofdet, execFrEofdet]
    split
    case isTrue h =>
      have hst := (atDecode_iff.1 (Bool.and_eq_true_iff.1 h).2).1
      exact .inl ⟨_, rfl, decOnly ⟨rfl, .eof hst⟩⟩
    · exact .inl ⟨_, rfl, decOnly ⟨rfl, .refl _⟩⟩
  | encStart d r =>
    refine .inl ⟨_, exec_encStart_eq d r s, .start, ?_⟩
    cases d
    · exact .change (.refl _)
    · exact .start (.inl ⟨r, rfl⟩)
  | decStart e r =>
    refine .inl ⟨_, exec_decStart_eq e r s, ?_, .start (.inr ⟨e, r, rfl⟩)⟩
    cases e
    · exact .refl _
    · exact .start

/-! ### Moves and steps -/

/-- A buffer index out of range: the model's fault at one of its three places (log 20). -/
def StopsAt (s : State) (f : Fault) : Prop :=
  encStep s.enc = .stops f ∨ decStep s.dec = .stops f ∨
    (s.dec.st = .pfx ∨ s.dec.st = .payload) ∧ ∃ g, takeGroup g s.dec = .stops f

/-- What an outcome says of the engines of the state `s` it came from; `restart` as in `DecStepTo`. -/
inductive StepOutcome (restart : Prop) (s : State) : Result → Prop
  | next {t : State} : EncChange s.enc t.enc → DecStepTo restart s.dec t.dec → StepOutcome restart s (.next t)
  | fault {f : Fault} : StopsAt s f → StepOutcome restart s (.fault f)
  | refused (r : Refusal) : StepOutcome restart s (.refused r)

theorem DecStepTo.mono {p q : Prop} (h : p → q) {d d' : Dec} : DecStepTo p d d' → DecStepTo q d d'
  | .change hd => .change hd
  | .start hp => .start (h hp)
  | .reset hp => .reset (h hp)

section
variable {restart : Prop} {s t : State}

theorem stepOutcome_of_same (he : t.enc = s.enc) (hd : t.dec = s.dec) : StepOutcome restart s (.next t) :=
  .next (he ▸ .refl _) (hd ▸ .change (.refl _))

theorem stepOutcome_of_dec (he : t.enc = s.enc) (hd : DecChange s.dec t.dec) : StepOutcome restart s (.next t) :=
  .next (he ▸ .refl _) (.change hd)

theorem stepOutcome_of_enc (he : EncChange s.enc t.enc) (hd : t.dec = s.dec) : StepOutcome restart s (.next t) :=
  .next he (hd ▸ .change (.refl _))

theorem encTurn_outcome (s : State) : StepOutcome restart s (encTurn s) := by
  unfold encTurn
  split
  case h_1 => exact stepOutcome_of_same rfl rfl
  case h_2 e h => exact stepOutcome_of_enc (.turn h) rfl
  case h_3 f h => exact .fault (.inl h)

theorem decTurn_outcome (s : State) : StepOutcome restart s (decTurn s) := by
  unfold decTurn
  split
  case h_1 => exact stepOutcome_of_same rfl rfl
  case h_2 d h => exact stepOutcome_of_dec rfl (.turn h)
  case h_3 f h => exact .fault (.inr (.inl h))

theorem engineTurn_outcome (s : State) : StepOutcome restart s (engineTurn s) := by
  unfold engineTurn
  split
  case h_1 e h => exact stepOutcome_of_enc (.turn h) rfl
  case h_2 f h => exact .fault (.inl h)
  case h_3 => exact decTurn_outcome s

end

theorem writeCsr_outcome (k : BitVec 3) (v : Byte) (s : State) :
    StepOutcome (restartsDec (.csrWrite k v) = true) s (.next (writeCsr k v s)) := by
  unfold writeCsr
  split
  case isTrue hk =>
    refine .next ?_ ?_
    · rw [writeCmd_enc]
      split
      · exact .start
      · exact .refl _
    · rw [writeCmd_dec]
      split
      case isTrue hv => exact .start (by simp [restartsDec, hk, hv])
      case isFalse => exact .change (.refl _)
  case isFalse => exact stepOutcome_of_same rfl rfl

theorem endFrames_change (d : Dec) : DecChange d (endFrames d) := by
  obtain ⟨hr, h⟩ | ⟨-, h⟩ := endFrames_cases d <;> rw [h]
  · exact .raise .truncatedPrefix (declareEnd d.rxi) (.inl ((frameReady_iff d).1 hr).1)
  · exact .ports (declareEnd d.rxi) d.rxo rfl rfl

theorem restartsDec_of_startsDec {f : Format} {bytes out : List Byte} {i : Instr} (h : decode f bytes = .ok (i, out))
    (hi : startsDec i) : restartsDec (.instr f bytes) = true := by
  obtain ⟨r, rfl⟩ | ⟨e, r, rfl⟩ := hi <;> simp only [restartsDec, h]

theorem runInstr_outcome (f : Format) (bytes : List Byte) (s : State) :
    StepOutcome (restartsDec (.instr f bytes) = true) s (runMove (.instr f bytes) s) := by
  cases hdec : decode f bytes with
  | ok x =>
    obtain ⟨i, out⟩ := x
    rw [runMove_of_decode_ok hdec]
    obtain ⟨t, h, he, hd⟩ | ⟨hst, g, f', hg, h⟩ := exec_change i s <;> rw [h]
    · exact .next he (hd.mono (restartsDec_of_startsDec hdec))
    · exact .fault (.inr (.inr ⟨hst, g, hg⟩))
  | error e =>
    rw [runMove_of_decode_error hdec]
    cases e with
    | noStartBit => exact stepOutcome_of_same rfl rfl
    | unknownOperation number => exact .refused _
    | noBytes =>
      cases f with
      | frame => exact stepOutcome_of_dec rfl (endFrames_change s.dec)
      | bitgroup | op | cmd => exact stepOutcome_of_same rfl rfl

theorem runMove_outcome (m : Move) (s : State) : StepOutcome (restartsDec m = true) s (runMove m s) := by
  cases m with
  | reset => exact .next .reset (.reset rfl)
  | encTurn => exact encTurn_outcome s
  | decTurn => exact decTurn_outcome s
  | offerTxi b => exact stepOutcome_of_enc (.ports (offer [b] s.enc.txi) s.enc.txo) rfl
  | endTxi => exact stepOutcome_of_enc (.ports (declareEnd s.enc.txi) s.enc.txo) rfl
  | demandTxo => exact stepOutcome_of_enc (.ports s.enc.txi (raiseDemand s.enc.txo)) rfl
  | offerRxi b => exact stepOutcome_of_dec rfl (.ports (offer [b] s.dec.rxi) s.dec.rxo (offer_n _ _) rfl)
  | endRxi => exact stepOutcome_of_dec rfl (.ports (declareEnd s.dec.rxi) s.dec.rxo rfl rfl)
  | demandRxo => exact stepOutcome_of_dec rfl (.ports s.dec.rxi (raiseDemand s.dec.rxo) rfl rfl)
  | csrWrite k v => exact writeCsr_outcome k v s
  | instr f bytes => exact runInstr_outcome f bytes s

/-- The next move restarts DEC. -/
def nextRestartsDec (s : State) : Prop := ∃ m rest, s.agenda = m :: rest ∧ restartsDec m = true

theorem step_outcome (s : State) : StepOutcome (nextRestartsDec s) s (step s) := by
  obtain ⟨-, h⟩ | ⟨m, rest, ha, h⟩ := step_cases s <;> rw [h]
  · exact engineTurn_outcome s
  · have hout := runMove_outcome m { s with agenda := rest }
    generalize runMove m { s with agenda := rest } = o at hout
    cases hout with
    | next he hd => exact .next he (hd.mono fun hm => ⟨m, rest, ha, hm⟩)
    | fault hf => exact .fault hf
    | refused r => exact .refused r

/-- What a step that completes did to the engines. -/
theorem step_change {s t : State} (h : step s = .next t) :
    EncChange s.enc t.enc ∧ DecStepTo (nextRestartsDec s) s.dec t.dec := by
  have hout := step_outcome s
  rw [h] at hout
  cases hout with
  | next he hd => exact ⟨he, hd⟩

/-! ### ENC keeps its invariants -/

/-- The length byte of the frame built in `E_CODE` (44 R201). -/
theorem toNat_bufGet_frame_zero (e : Enc) (hb : e.blen.toNat ≤ 249) :
    (bufGet (bufFill e.fr (frPack (bufTake e.blk e.blen.toNat))) 0).toNat = e.blen.toNat + 6 := by
  have hlen : (bufTake e.blk e.blen.toNat).length = e.blen.toNat := by rw [bufTake_length]; omega
  rw [bufGet_eq_getD, toList_bufFill_of_le _ (by rw [length_frPack, hlen]; omega),
    List.getD_append _ _ _ _ (by simp), toNat_lengthByte_frPack (hlen.trans_le hb), hlen]

theorem encInv_codeFrame {e e' : Enc} (h : codeFrame e = .moves e') : EncInv e' := by
  obtain ⟨hb, rfl⟩ := codeFrame_cases h
  have hflen : (BitVec.ofNat 9 (e.blen.toNat + 6 + 1)).toNat = e.blen.toNat + 7 := by
    rw [BitVec.toNat_ofNat, Nat.mod_eq_of_lt (by omega)]
  refine ⟨hb, fun _ => ⟨hflen, ?_, ?_, ?_⟩⟩
  · simp only [hflen]
    exact Nat.succ_pos _
  · rw [hflen]
    exact toNat_bufGet_frame_zero e hb
  · simp [lastFrameFlag]

theorem encInv_shiftNext {e : Enc} (hst : e.st = .shift) (hinv : EncInv e) : EncInv (shiftNext e) := by
  obtain ⟨hb, hshift⟩ := hinv
  obtain ⟨hflen, hbyi, hframe⟩ := hshift hst
  obtain ⟨-, h⟩ | ⟨-, hmore, h⟩ | ⟨-, -, -, h⟩ | ⟨-, -, -, h⟩ := shiftNext_cases e <;> rw [h]
  · exact ⟨hb, fun _ => ⟨hflen, hbyi, hframe⟩⟩
  · refine ⟨hb, fun _ => ⟨hflen, ?_, hframe⟩⟩
    have : (e.byi + 1).toNat = e.byi.toNat + 1 := BitVec.toNat_add_of_lt (by simp; omega)
    exact this.trans_lt hmore
  · exact ⟨hb, nofun⟩
  · exact ⟨Nat.zero_le _, nofun⟩

theorem encInv_encStep {e e' : Enc} (h : encStep e = .moves e') (hinv : EncInv e) : EncInv e' := by
  have hb := hinv.1
  obtain ⟨-, ⟨hst, -, rfl⟩ | ⟨hst, -, hlt, hpull⟩ | ⟨hst, hcode⟩ | ⟨hst, rfl⟩ | ⟨hst, rfl⟩⟩ := encStep_cases h
  · exact ⟨hb, nofun⟩
  · obtain ⟨v, rest, -, rfl⟩ | ⟨-, -, rfl⟩ := fillPull_cases hpull
    · refine ⟨?_, fun h => absurd (hst.symm.trans h) nofun⟩
      have : (e.blen + 1).toNat = e.blen.toNat + 1 := BitVec.toNat_add_of_lt (by simp; omega)
      exact this.trans_le hlt
    · exact ⟨hb, fun h => absurd (hst.symm.trans h) nofun⟩
  · exact encInv_codeFrame hcode
  · exact encInv_shiftNext (e := { e with txo := emit (.bit (shiftBit e)) e.txo }) hst hinv
  · exact ⟨hb, fun h => absurd (hst.symm.trans h) nofun⟩

theorem EncChange.encInv {e e' : Enc} (h : EncChange e e') (hinv : EncInv e) : EncInv e' := by
  cases h with
  | ports x y => exact hinv
  | turn h => exact encInv_encStep h hinv
  | start => exact ⟨Nat.zero_le _, nofun⟩
  | reset => exact ⟨Nat.zero_le _, nofun⟩

/-! ### DEC's invariants, state by state -/

theorem decInv_iff_of_pfx {d : Dec} (hst : d.st = .pfx) :
    DecInv d ↔ d.maxerr.toNat ≤ 3 ∧ d.fault = 0 ∧ d.report = false := by
  simp [DecInv, hst]

theorem decInv_iff_of_payload {d : Dec} (hst : d.st = .payload) :
    DecInv d ↔ (1 ≤ d.pfx.toNat ∧ d.cnt.toNat < d.pfx.toNat) ∧ d.maxerr.toNat ≤ 3 ∧ d.fault = 0 ∧ d.report = false := by
  simp [DecInv, hst]

theorem decInv_iff_of_decode {d : Dec} (hst : d.st = .decode) :
    DecInv d ↔ d.cnt = d.pfx ∧ d.nb = 0 ∧ d.maxerr.toNat ≤ 3 ∧ d.fault = 0 ∧ d.report = false := by
  simp [DecInv, hst]

theorem decInv_iff_of_drain {d : Dec} (hst : d.st = .drain) :
    DecInv d ↔
      (1 ≤ d.olen.toNat ∧ d.olen.toNat + 6 = d.pfx.toNat ∧ d.olen.toNat ≤ 249 ∧ d.oi.toNat < d.olen.toNat) ∧
      d.nb = 0 ∧ d.maxerr.toNat ≤ 3 ∧ d.fault = 0 ∧ d.report = false := by
  simp [DecInv, hst]

theorem decInv_iff_of_done {d : Dec} (hst : d.st = .done) :
    DecInv d ↔ d.nb = 0 ∧ d.maxerr.toNat ≤ 3 ∧ d.fault = 0 := by
  simp [DecInv, hst]

theorem decInv_iff_of_fault {d : Dec} (hst : d.st = .fault) :
    DecInv d ↔ d.nb = 0 ∧ d.maxerr.toNat ≤ 3 ∧ d.fault ≠ 0 ∧ d.report = false := by
  simp [DecInv, hst]

/-! ### DEC keeps its invariants -/

theorem decInv_startDec (d : Dec) : DecInv (startDec d) :=
  (decInv_iff_of_pfx (startDec_st d)).2 ⟨Nat.zero_le _, rfl, rfl⟩

theorem faultCode_ne_zero (f : FaultKind) : faultCode f ≠ 0 := by cases f <;> decide

/-- An exception taken before the end of a session (60 R316): `REPORT` is not set yet. -/
theorem decInv_raiseFault {d : Dec} (f : FaultKind) (hst : d.st ≠ .done) (hinv : DecInv d) :
    DecInv (raiseFault f d) := by
  obtain ⟨-, -, -, -, hmax, -, hreport⟩ := hinv
  exact (decInv_iff_of_fault (raiseFault_st f d)).2
    ⟨rfl, hmax, faultCode_ne_zero f, Bool.eq_false_iff.2 fun h => hst (hreport h)⟩

theorem frMaxupd_maxerr_le {e : Nat} (he : e ≤ 3) {d : Dec} (hmax : d.maxerr.toNat ≤ 3) :
    (frMaxupd e d).maxerr.toNat ≤ 3 := by
  rw [toNat_frMaxupd_maxerr (by omega)]
  omega

theorem decInv_decodeFrame {d : Dec} (hst : d.st = .decode) (hinv : DecInv d) : DecInv (decodeFrame d) := by
  have hst' : d.st ≠ .done := by rw [hst]; nofun
  obtain ⟨-, hnb, hmax, hfault, hreport⟩ := (decInv_iff_of_decode hst).1 hinv
  obtain ⟨-, h⟩ | ⟨-, -, h⟩ | ⟨b, e, h6, hr, hb⟩ := decodeFrame_cases d
  · exact h ▸ decInv_raiseFault _ hst' hinv
  · exact h ▸ decInv_raiseFault _ hst' hinv
  · obtain ⟨hlen, he⟩ := length_of_rsDec_bufTake hr
    have hmax' := frMaxupd_maxerr_le he (d := { d with buf := bufFill d.buf b }) hmax
    obtain ⟨rfl, h⟩ | ⟨hb, h⟩ := hb <;> rw [h]
    · exact (decInv_iff_of_done rfl).2 ⟨hnb, hmax', hfault⟩
    · have hpos := List.length_pos_iff.2 hb
      have holen : (BitVec.ofNat 8 b.length).toNat = d.pfx.toNat - 6 := by
        rw [hlen, BitVec.toNat_ofNat, Nat.mod_eq_of_lt (by omega)]
      refine (decInv_iff_of_drain rfl).2 ⟨?_, hnb, hmax', hfault, hreport⟩
      simp only [holen, frMaxupd_pfx]
      exact ⟨by omega, by omega, by omega, show 0 < d.pfx.toNat - 6 by omega⟩

/-- A byte that completes a frame leaves `CNT = PFX`; another leaves `CNT` below it. -/
theorem decInv_byteComplete {y : Byte} {d d' : Dec} (h : byteComplete y d = .moves d') (hnb : d.nb = 0)
    (hinv : DecInv d) : DecInv d' := by
  obtain ⟨hst, rfl⟩ | ⟨hst, -, rfl⟩ := byteComplete_cases h
  · have hrest := (decInv_iff_of_pfx hst).1 hinv
    by_cases hy : y = 0
    · exact (decInv_iff_of_decode (if_pos hy)).2 ⟨hy.symm, hnb, hrest⟩
    · have hpos : 1 ≤ y.toNat := Nat.pos_of_ne_zero fun h => hy (BitVec.eq_of_toNat_eq h)
      exact (decInv_iff_of_payload (if_neg hy)).2 ⟨⟨hpos, hpos⟩, hrest⟩
  · obtain ⟨⟨hpos, hlt⟩, hrest⟩ := (decInv_iff_of_payload hst).1 hinv
    by_cases hlast : d.cnt + 1 = d.pfx
    · exact (decInv_iff_of_decode (if_pos hlast)).2 ⟨hlast, hnb, hrest⟩
    · have hsucc : (d.cnt + 1).toNat = d.cnt.toNat + 1 := BitVec.toNat_add_of_lt (by simp; omega)
      have hne : (d.cnt + 1).toNat ≠ d.pfx.toNat := fun h => hlast (BitVec.eq_of_toNat_eq h)
      have hcnt : (d.cnt + 1).toNat < d.pfx.toNat := by omega
      exact (decInv_iff_of_payload (if_neg hlast)).2 ⟨⟨hpos, hcnt⟩, hrest⟩

/-- Where bits are taken, `NB` and `ACC` are free. -/
theorem decInv_setGroup {d : Dec} (hst : d.st = .pfx ∨ d.st = .payload) (acc : BitVec 8) (nb : BitVec 3)
    (x : InPort Bit)
    (hinv : DecInv d) : DecInv { d with acc := acc, nb := nb, rxi := x } := by
  obtain ⟨hpay, hdec, hdrain, -, hrest⟩ := hinv
  exact ⟨hpay, hdec, hdrain, fun hp hq => absurd hst (not_or.2 ⟨hp, hq⟩), hrest⟩

theorem decInv_bitTaken {b : Bit} {d d' : Dec} (h : bitTaken b d = .moves d') (hst : d.st = .pfx ∨ d.st = .payload)
    (hinv : DecInv d) : DecInv d' := by
  obtain ⟨-, rfl⟩ | ⟨-, hbyte⟩ := bitTaken_cases h
  · exact decInv_setGroup hst _ _ d.rxi hinv
  · exact decInv_byteComplete hbyte rfl (decInv_setGroup hst _ _ d.rxi hinv)

theorem decInv_takeGroup {g : BitTuple} {d d' : Dec} (h : takeGroup g d = .moves d')
    (hst : d.st = .pfx ∨ d.st = .payload) (hinv : DecInv d) : DecInv d' :=
  decInv_byteComplete h rfl (decInv_setGroup hst _ _ _ hinv)

theorem decInv_drainByte {d d' : Dec} (h : drainByte d = .moves d') (hst : d.st = .drain) (hinv : DecInv d) :
    DecInv d' := by
  obtain ⟨⟨hpos, hpfx, hle, -⟩, hnb, hrest⟩ := (decInv_iff_of_drain hst).1 hinv
  obtain ⟨-, ⟨hmore, rfl⟩ | ⟨-, rfl⟩⟩ := drainByte_cases h
  · have hsucc : (d.oi + 1).toNat = d.oi.toNat + 1 := BitVec.toNat_add_of_lt (by simp; omega)
    exact (decInv_iff_of_drain (by exact hst)).2 ⟨⟨hpos, hpfx, hle, hsucc.trans_lt hmore⟩, hnb, hrest⟩
  · exact (decInv_iff_of_pfx rfl).2 hrest

theorem decInv_decStep {d d' : Dec} (h : decStep d = .moves d') (hinv : DecInv d) : DecInv d' := by
  obtain ⟨-, ⟨hst, htake⟩ | ⟨hst, rfl⟩ | ⟨hst, hdrain⟩ | ⟨-, rfl⟩ | ⟨-, rfl⟩⟩ := decStep_cases h
  · obtain ⟨b, rest, -, hbit⟩ | ⟨-, -, ⟨hst, rfl⟩ | ⟨hst, rfl⟩⟩ := takeBit_cases htake
    · exact decInv_bitTaken hbit hst hinv
    · exact decInv_raiseFault _ (by rw [hst]; nofun) hinv
    · exact decInv_raiseFault _ (by rw [hst]; nofun) hinv
  · exact decInv_decodeFrame hst hinv
  · exact decInv_drainByte hdrain hst hinv
  · exact hinv
  · exact hinv

/-- A frame taken whole comes to `D_DECODE` with its registers set, or is cut short (log 13). -/
theorem decInv_takeFrame {p : Byte} {w : List Byte} {d : Dec} (hr : frameReady d = true) (hinv : DecInv d) :
    DecInv (takeFrame p w d) := by
  have hst := ((frameReady_iff d).1 hr).1
  have hrest := (decInv_iff_of_pfx hst).1 hinv
  unfold takeFrame
  simp only
  split
  case isTrue h =>
    have hst' : d.st ≠ .done := by rw [hst]; nofun
    exact decInv_raiseFault _ hst' ((decInv_iff_of_pfx (by exact hst)).2 hrest)
  case isFalse h =>
    have hcnt : BitVec.ofNat 8 (w.take p.toNat).length = p := by
      have hlen : (w.take p.toNat).length = p.toNat := by rw [List.length_take] at h ⊢; omega
      rw [hlen, BitVec.ofNat_toNat, BitVec.setWidth_eq]
    exact decInv_decodeFrame rfl ((decInv_iff_of_decode rfl).2 ⟨hcnt, rfl, hrest⟩)

theorem DecChange.decInv {d d' : Dec} (h : DecChange d d') (hinv : DecInv d) : DecInv d' := by
  cases h with
  | ports x y => exact hinv
  | turn h => exact decInv_decStep h hinv
  | raise f x hst =>
    refine decInv_raiseFault f (fun h => ?_) (d := withDecPorts x d.rxo d) hinv
    exact absurd (show d.st = .done from h) (by obtain h | h | h := hst <;> rw [h] <;> nofun)
  | frame p w hr => exact decInv_takeFrame hr hinv
  | group g hst h => exact decInv_takeGroup h hst hinv
  | maxupd e _ he =>
    obtain ⟨hpay, hdec, hdrain, hnb, hmax, hrest⟩ := hinv
    exact ⟨hpay, hdec, hdrain, hnb, frMaxupd_maxerr_le he hmax, hrest⟩
  | eof hst =>
    obtain ⟨-, hnb, hmax, hfault, -⟩ := (decInv_iff_of_decode hst).1 hinv
    exact (decInv_iff_of_done rfl).2 ⟨hnb, hmax, hfault⟩

theorem DecStepTo.decInv {restart : Prop} {d d' : Dec} (h : DecStepTo restart d d') (hinv : DecInv d) : DecInv d' := by
  cases h with
  | change h => exact h.decInv hinv
  | start => exact decInv_startDec d
  | reset => exact resetHasTheEngineInvariants.2

/-- Settles O56: each change that a step can make to an engine keeps the engine's invariants. -/
theorem stepsKeepTheEngineInvariants : Obligations.StepsKeepTheEngineInvariants := by
  rintro s t ⟨hencInv, hdecInv⟩ h
  obtain ⟨he, hd⟩ := step_change h
  exact ⟨he.encInv hencInv, hd.decInv hdecInv⟩

/-! ### No buffer index out of range -/

theorem fillPull_ne_stops (e : Enc) (f : Fault) : fillPull e ≠ .stops f := by
  unfold fillPull
  split <;> nofun

theorem encStep_ne_stops {e : Enc} (hinv : EncInv e) (f : Fault) : encStep e ≠ .stops f := by
  unfold encStep
  split
  case isTrue => nofun
  case isFalse =>
    cases e.st with
    | fill =>
      simp only
      split_ifs
      · nofun
      · exact fillPull_ne_stops e f
      · nofun
    | code =>
      simp only [codeFrame, maxBlock_eq, hinv.1, if_true]
      nofun
    | idle | shift | done => nofun

theorem cnt_lt_of_decInv {d : Dec} (hinv : DecInv d) (hst : d.st = .payload) : d.cnt.toNat < 255 := by
  obtain ⟨⟨-, hlt⟩, -⟩ := (decInv_iff_of_payload hst).1 hinv
  omega

theorem byteComplete_ne_stops {y : Byte} {d : Dec} (hcnt : d.st = .payload → d.cnt.toNat < 255) (f : Fault) :
    byteComplete y d ≠ .stops f := by
  unfold byteComplete
  split
  case h_1 => nofun
  case h_2 hst => rw [if_pos (hcnt hst)]; nofun
  case h_3 => nofun

theorem takeGroup_ne_stops {g : BitTuple} {d : Dec} (hinv : DecInv d) (f : Fault) : takeGroup g d ≠ .stops f :=
  byteComplete_ne_stops (by exact cnt_lt_of_decInv (d := d) hinv) f

theorem takeBit_ne_stops {d : Dec} (hinv : DecInv d) (f : Fault) : takeBit d ≠ .stops f := by
  unfold takeBit
  split
  case h_1 => nofun
  case h_2 b x _ =>
    simp only [bitTaken]
    split
    · nofun
    · exact byteComplete_ne_stops (by exact cnt_lt_of_decInv (d := d) hinv) f
  case h_3 x _ =>
    unfold bitsEnded
    split <;> nofun

theorem drainByte_ne_stops {d : Dec} (hst : d.st = .drain) (hinv : DecInv d) (f : Fault) : drainByte d ≠ .stops f := by
  obtain ⟨⟨-, -, hle, hlt⟩, -⟩ := (decInv_iff_of_drain hst).1 hinv
  simp only [drainByte, show d.oi.toNat < 255 by omega, if_true]
  split <;> nofun

theorem decStep_ne_stops {d : Dec} (hinv : DecInv d) (f : Fault) : decStep d ≠ .stops f := by
  unfold decStep
  split
  case isTrue => nofun
  case isFalse =>
    cases hst : d.st with
    | pfx | payload => exact takeBit_ne_stops hinv f
    | drain => exact drainByte_ne_stops hst hinv f
    | idle | decode | done | fault => nofun

/-- Settles O58: each of the model's faults needs an index that the invariants exclude. -/
theorem noBufferIndexFault : Obligations.NoBufferIndexFault := by
  rintro s f ⟨hencInv, hdecInv⟩ h
  have hout := step_outcome s
  rw [h] at hout
  cases hout with
  | fault hstop =>
    obtain h | h | ⟨-, g, h⟩ := hstop
    · exact encStep_ne_stops hencInv f h
    · exact decStep_ne_stops hdecInv f h
    · exact takeGroup_ne_stops hdecInv f h

/-! ### Terminal states and `MAXERR` -/

theorem DecStepTo.decChange {restart : Prop} {d d' : Dec} (h : DecStepTo restart d d') (hno : ¬ restart) :
    DecChange d d' := by
  cases h with
  | change h => exact h
  | start hr | reset hr => exact absurd hr hno

theorem not_nextRestartsDec {s : State} (h : ∀ m rest, s.agenda = m :: rest → restartsDec m = false) :
    ¬ nextRestartsDec s := by
  rintro ⟨m, rest, ha, hm⟩
  exact nomatch (h m rest ha).symm.trans hm

/-- The registers and counts that a terminal state keeps (60 R321, R322). -/
def SameOutcome (d d' : Dec) : Prop :=
  d'.st = d.st ∧ d'.fault = d.fault ∧ d'.report = d.report ∧ d'.maxerr = d.maxerr ∧ d'.rxi.n = d.rxi.n ∧
    d'.rxo.n = d.rxo.n

/-- In a terminal state DEC only presents its event, and takes no frame, group or exception. -/
theorem DecChange.sameOutcome {d d' : Dec} (h : DecChange d d') (hst : d.st = .done ∨ d.st = .fault) :
    SameOutcome d d' := by
  have other {st : DecState} (h : d.st = st) (hd : st ≠ .done) (hf : st ≠ .fault) : SameOutcome d d' :=
    (hst.elim (fun h' => hd (h.symm.trans h')) fun h' => hf (h.symm.trans h')).elim
  cases h with
  | ports x y hx hy => exact ⟨rfl, rfl, rfl, rfl, hx, hy⟩
  | turn h =>
    obtain ⟨-, ⟨h | h, -⟩ | ⟨h, -⟩ | ⟨h, -⟩ | ⟨-, rfl⟩ | ⟨-, rfl⟩⟩ := decStep_cases h
    · exact other h nofun nofun
    · exact other h nofun nofun
    · exact other h nofun nofun
    · exact other h nofun nofun
    · exact ⟨rfl, rfl, rfl, rfl, rfl, rfl⟩
    · exact ⟨rfl, rfl, rfl, rfl, rfl, rfl⟩
  | raise f x h =>
    obtain h | h | h := h <;> exact other h nofun nofun
  | frame p w hr => exact other ((frameReady_iff d).1 hr).1 nofun nofun
  | group g h _ => obtain h | h := h <;> exact other h nofun nofun
  | maxupd e h _ => exact other h nofun nofun
  | eof h => exact other h nofun nofun

/-- Settles O59: no change of DEC leaves a terminal state. -/
theorem terminalStatesPersist : Obligations.TerminalStatesPersist := fun _ _ hst hno h =>
  ((step_change h).2.decChange (not_nextRestartsDec hno)).sameOutcome hst

theorem maxerr_le_decodeFrame (d : Dec) : d.maxerr.toNat ≤ (decodeFrame d).maxerr.toNat := by
  obtain ⟨-, h⟩ | ⟨-, -, h⟩ | ⟨b, e, -, hr, hb⟩ := decodeFrame_cases d
  · rw [h]; rfl
  · rw [h]; rfl
  · have hmax := toNat_frMaxupd_maxerr (e := e) (by have := length_of_rsDec_bufTake hr; omega)
        { d with buf := bufFill d.buf b }
    obtain ⟨-, h⟩ | ⟨-, h⟩ := hb <;> rw [h] <;> exact (le_max_left _ _).trans_eq hmax.symm

theorem byteComplete_maxerr {y : Byte} {d d' : Dec} (h : byteComplete y d = .moves d') : d'.maxerr = d.maxerr := by
  obtain ⟨-, rfl⟩ | ⟨-, -, rfl⟩ := byteComplete_cases h <;> rfl

theorem takeBit_maxerr {d d' : Dec} (h : takeBit d = .moves d') : d'.maxerr = d.maxerr := by
  obtain ⟨b, rest, -, hbit⟩ | ⟨-, -, ⟨-, rfl⟩ | ⟨-, rfl⟩⟩ := takeBit_cases h
  · obtain ⟨-, rfl⟩ | ⟨-, hbyte⟩ := bitTaken_cases hbit
    · rfl
    · exact (byteComplete_maxerr hbyte).trans rfl
  · rfl
  · rfl

theorem takeFrame_cases (p : Byte) (w : List Byte) (d : Dec) :
    ∃ d1, (takeFrame p w d = raiseFault .truncatedPayload d1 ∨ takeFrame p w d = decodeFrame d1) ∧
      d1.maxerr = d.maxerr := by
  simp only [takeFrame]
  split
  · exact ⟨_, .inl rfl, rfl⟩
  · exact ⟨_, .inr rfl, rfl⟩

theorem DecChange.maxerr_le {d d' : Dec} (h : DecChange d d') : d.maxerr.toNat ≤ d'.maxerr.toNat := by
  cases h with
  | ports | raise | eof => rfl
  | turn h =>
    obtain ⟨-, ⟨-, h⟩ | ⟨-, rfl⟩ | ⟨-, h⟩ | ⟨-, rfl⟩ | ⟨-, rfl⟩⟩ := decStep_cases h
    · rw [takeBit_maxerr h]
    · exact maxerr_le_decodeFrame d
    · obtain ⟨-, ⟨-, rfl⟩ | ⟨-, rfl⟩⟩ := drainByte_cases h <;> rfl
    · rfl
    · rfl
  | frame p w =>
    obtain ⟨d1, h | h, hmax⟩ := takeFrame_cases p w d <;> rw [h, ← hmax]
    · rfl
    · exact maxerr_le_decodeFrame d1
  | group g _ h => rw [byteComplete_maxerr h]
  | maxupd e _ he =>
    rw [toNat_frMaxupd_maxerr (by omega)]
    exact le_max_left _ _

/-- Settles O60: no change of DEC lowers `MAXERR`. -/
theorem maxerrNeverDecreases : Obligations.MaxerrNeverDecreases := fun _ _ hno h =>
  ((step_change h).2.decChange (not_nextRestartsDec hno)).maxerr_le

end Sys2Proof.Machine
end

section
/-! PROOFS. Frames as they arrive (spec/45_framer_decode.md section 1): a frame taken whole comes to `D_DECODE` with its
registers set, and one that DEC is not ready for is queued. -/

namespace Sys2Proof.Machine

/-! ### A frame taken whole -/

/-- DEC at `D_DECODE` after the first byte `p` and the payload `w` (47 R289, R290). -/
def frameReceived (p : Byte) (w : List Byte) (d : Dec) : Dec :=
  { d with
    st := .decode
    acc := w.getLastD p
    nb := 0
    pfx := p
    cnt := BitVec.ofNat 8 w.length
    buf := bufFill d.buf w
    rxi := { d.rxi with n := d.rxi.n + 8 * (1 + w.length) } }

theorem accOfGroup_tobits (b : Byte) : accOfGroup (tobits codec.bitOrder b) = b :=
  (byteOfTuple_eq_tobyte _).trans (tobyte_tobits _ b)

theorem takeFrame_of_complete {p : Byte} {w : List Byte} (hlen : w.length = p.toNat) (d : Dec) :
    takeFrame p w d = decodeFrame (frameReceived p w d) := by
  simp only [takeFrame, List.take_of_length_le hlen.le, hlen, Nat.lt_irrefl, if_false, accOfGroup_tobits, frameReceived]

theorem takeFrame_of_cut {p : Byte} {w : List Byte} (hlen : w.length < p.toNat) (d : Dec) :
    takeFrame p w d = raiseFault .truncatedPayload
      { frameReceived p w d with rxi := declareEnd (frameReceived p w d).rxi } := by
  simp only [takeFrame, List.take_of_length_le hlen.le, hlen, if_true, accOfGroup_tobits, frameReceived, raiseFault]

section
variable {p : Byte} {w : List Byte} (hlen : w.length = p.toNat) (d : Dec)
include hlen

theorem toNat_frameReceived_cnt : (frameReceived p w d).cnt.toNat = p.toNat := by
  rw [frameReceived, hlen, BitVec.ofNat_toNat, BitVec.setWidth_eq]

theorem bufTake_frameReceived : bufTake (frameReceived p w d).buf p.toNat = w := by
  rw [← hlen]
  exact bufTake_bufFill d.buf w (by omega)

theorem drop_frameReceived_buf : (frameReceived p w d).buf.toList.drop p.toNat = d.buf.toList.drop p.toNat := by
  rw [← hlen]
  exact drop_bufFill d.buf (by omega)

end

theorem receiveFrame_of_ready {s : State} (h : frameReady s.dec = true) (p : Byte) (w : List Byte) :
    receiveFrame p w s = .next { s with dec := takeFrame p w s.dec } := if_pos h

theorem receiveFrame_of_not_ready {s : State} (h : frameReady s.dec = false) (p : Byte) (w : List Byte) :
    receiveFrame p w s = .next { s with dec := offerFrame p w s.dec } := by
  simp [receiveFrame, h]

theorem frameLeaves_frameReceived (p : Byte) (w : List Byte) (s : State) :
    FrameLeaves s { s with dec := frameReceived p w s.dec } := ⟨rfl, rfl, rfl, rfl, rfl⟩

section
variable {p : Byte} {w : List Byte} {s : State} (hr : frameReady s.dec = true) (hlen : w.length = p.toNat)
include hr hlen

/-- A complete frame runs `D_DECODE` on its registers. -/
theorem receiveFrame_of_complete : receiveFrame p w s =
    .next { s with dec := decodeFrame (frameReceived p w s.dec) } := by
  rw [receiveFrame_of_ready hr, takeFrame_of_complete hlen]

theorem shortFrameTaken_receiveFrame (h6 : p.toNat < 6) : ShortFrameTaken (receiveFrame p w s) p.toNat w s := by
  rw [receiveFrame_of_complete hr hlen, decodeFrame_of_short h6]
  exact ⟨_, rfl, frameLeaves_frameReceived p w s, rfl, rfl, rfl, rfl, toNat_frameReceived_cnt hlen s.dec,
    bufTake_frameReceived hlen s.dec, drop_frameReceived_buf hlen s.dec, rfl, rfl, rfl, rfl,
    congrArg (fun k => s.dec.rxi.n + 8 * (1 + k)) hlen, rfl⟩

end

/-- Settles O39: the length check is the first of `D_DECODE`. -/
theorem shortFramesRaiseFrameTooShort : Obligations.ShortFramesRaiseFrameTooShort := by
  refine fun s w hr => ⟨fun p hlen => ?_, fun p hlen => ?_⟩
  · rw [← toNat_pfxShort00] at hlen ⊢
    exact shortFrameTaken_receiveFrame hr hlen (by rw [toNat_pfxShort00]; omega)
  · rw [← toNat_pfxShort04] at hlen ⊢
    exact shortFrameTaken_receiveFrame hr hlen (by rw [toNat_pfxShort04]; omega)

@[simp] theorem bufFill_nil {n : Nat} (v : Vector Byte n) : bufFill v [] = v := Vector.toList_inj.1 (by simp)

theorem eofFrameTaken_receiveFrame {w : List Byte} {e : Nat} {s : State} (hr : frameReady s.dec = true)
    (hlen : w.length = 6) (hdec : rsDec w = .ok [] e) : EofFrameTaken (receiveFrame 0x06 w s) w e s := by
  have hbuf := bufTake_frameReceived (p := 0x06) hlen s.dec
  have he : e ≤ 3 := (rsDec_ok_length hdec).2
  have hdec' : rsDec (bufTake (frameReceived 0x06 w s.dec).buf 6) = .ok [] e := (congrArg rsDec hbuf).trans hdec
  rw [receiveFrame_of_complete hr hlen, decodeFrame_of_eof le_rfl hdec', bufFill_nil]
  exact ⟨_, rfl, frameLeaves_frameReceived 0x06 w s, rfl, rfl,
    BitVec.eq_of_toNat_eq (toNat_frameReceived_cnt (p := 0x06) hlen s.dec), rfl, hbuf,
    drop_frameReceived_buf (p := 0x06) hlen s.dec, toNat_frMaxupd_maxerr (by omega) (frameReceived 0x06 w s.dec),
    by simp [reportFlag], rfl, rfl, rfl, congrArg (fun k => s.dec.rxi.n + 8 * (1 + k)) hlen, rfl⟩

/-- Settles O40: FR.EOFDET after the two answers of RS.DEC, of which the six zero bytes give `Ok`. -/
theorem eofFrameEndsTheSession : Obligations.EofFrameEndsTheSession := by
  refine fun s w hr hlen => ⟨fun e => eofFrameTaken_receiveFrame hr hlen, fun hw => ?_, fun hdec => ?_⟩
  · subst hw
    exact eofFrameTaken_receiveFrame hr hlen (by decide +kernel)
  · have hbuf := bufTake_frameReceived (p := 0x06) hlen s.dec
    have hdec' : rsDec (bufTake (frameReceived 0x06 w s.dec).buf 6) = .uncorrectable := (congrArg rsDec hbuf).trans hdec
    change ∃ t, receiveFrame 0x06 w s = .next t ∧ _
    rw [receiveFrame_of_complete hr hlen, decodeFrame_of_uncorrectable le_rfl hdec']
    exact ⟨_, rfl, frameLeaves_frameReceived 0x06 w s, rfl, rfl, rfl, hbuf⟩

theorem dataFrameTaken_receiveFrame {p : Byte} {w : List Byte} {s : State} (hr : frameReady s.dec = true)
    (hlen : w.length = p.toNat) (h7 : 7 ≤ p.toNat) : DataFrameTaken (receiveFrame p w s) p.toNat w s := by
  have hbuf := bufTake_frameReceived hlen s.dec
  have hn := congrArg (fun k => s.dec.rxi.n + 8 * (1 + k)) hlen
  have h6 : 6 ≤ (frameReceived p w s.dec).pfx.toNat := show 6 ≤ p.toNat by omega
  rw [receiveFrame_of_complete hr hlen, DataFrameTaken]
  have hdec : rsDec (bufTake (frameReceived p w s.dec).buf (frameReceived p w s.dec).pfx.toNat) = rsDec w :=
    congrArg rsDec hbuf
  cases hw : rsDec w with
  | uncorrectable =>
    rw [decodeFrame_of_uncorrectable h6 (hdec.trans hw)]
    exact ⟨_, rfl, frameLeaves_frameReceived p w s, rfl, rfl, rfl, rfl, toNat_frameReceived_cnt hlen s.dec,
      hbuf, rfl, rfl, rfl, rfl, hn, rfl⟩
  | ok b e =>
    obtain ⟨hb, he⟩ := rsDec_ok_length hw
    have hblen : b.length = p.toNat - 6 := by rw [hb, hlen]
    have hne : b ≠ [] := List.length_pos_iff.1 (by omega)
    rw [decodeFrame_of_block h6 (hdec.trans hw) hne]
    refine ⟨_, rfl, frameLeaves_frameReceived p w s, rfl, ?_, rfl, rfl, rfl, toNat_frameReceived_cnt hlen s.dec, ?_,
      toNat_frMaxupd_maxerr (by omega) (frameReceived p w s.dec), rfl, rfl, hn, rfl⟩
    · rw [hblen]
      exact Nat.mod_eq_of_lt (by omega)
    · rw [← hblen]
      exact bufTake_bufFill _ b (by omega)

/-- Settles O41: every data row is the frame with its first byte, which `D_DECODE` decodes. -/
theorem dataFramesAreDecoded : Obligations.DataFramesAreDecoded := by
  refine fun s w hr => ⟨fun hlen => ?_, fun p hlen => ?_, fun p hlen => ?_, fun p hlen => ?_, fun p hlen => ?_,
    fun p hlen => ?_⟩
  · exact dataFrameTaken_receiveFrame (p := 0x07) hr hlen le_rfl
  · rw [← toNat_pfxData08] at hlen ⊢
    exact dataFrameTaken_receiveFrame hr hlen (by rw [toNat_pfxData08]; omega)
  · rw [← toNat_pfxData10] at hlen ⊢
    exact dataFrameTaken_receiveFrame hr hlen (by rw [toNat_pfxData10]; omega)
  · rw [← toNat_pfxData20] at hlen ⊢
    exact dataFrameTaken_receiveFrame hr hlen (by rw [toNat_pfxData20]; omega)
  · rw [← toNat_pfxData40] at hlen ⊢
    exact dataFrameTaken_receiveFrame hr hlen (by rw [toNat_pfxData40]; omega)
  · rw [← toNat_pfxData80] at hlen ⊢
    exact dataFrameTaken_receiveFrame hr hlen (by rw [toNat_pfxData80]; omega)

/-! ### A frame queued or cut short -/

theorem frameReady_of_ended {d : Dec} (h : d.rxi.ended = true) : frameReady d = false := by
  simp [frameReady, groupReady, h]

theorem offerFrame_of_complete {p : Byte} {w : List Byte} (hlen : w.length = p.toNat) (d : Dec) :
    offerFrame p w d = { d with rxi := offer (bpExpand .lsbFirst (p :: w)) d.rxi } := by
  simp only [offerFrame, List.take_of_length_le hlen.le, hlen, Nat.lt_irrefl, if_false, codec_bitOrder]

theorem offerFrame_of_cut {p : Byte} {w : List Byte} (hlen : w.length < p.toNat) (d : Dec) :
    offerFrame p w d = { d with rxi := declareEnd (offer (bpExpand .lsbFirst (p :: w)) d.rxi) } := by
  simp only [offerFrame, List.take_of_length_le hlen.le, hlen, if_true, codec_bitOrder]

theorem offerFrame_of_ended {d : Dec} (h : d.rxi.ended = true) (p : Byte) (w : List Byte) : offerFrame p w d = d := by
  simp only [offerFrame, offer_of_ended h, declareEnd_of_ended h, ite_self]

/-- Settles O42: whatever its row, a frame is queued by the ports' rules, or DEC meets its early end. -/
theorem framesNotTakenAreQueued : Obligations.FramesNotTakenAreQueued := by
  intro i p w s hi hwf henc
  obtain ⟨p', w', henc', rfl⟩ := eq_frameOf hi
  obtain ⟨rfl, rfl⟩ := List.cons.inj (henc'.symm.trans henc)
  rw [exec_frameOf]
  refine ⟨fun hr hlen he => ?_, fun hr hlen he => ?_, fun he => ?_, fun hr hlen => ?_⟩
  · rw [receiveFrame_of_not_ready hr, offerFrame_of_complete hlen, offer_of_open he]
  · rw [receiveFrame_of_not_ready hr, offerFrame_of_cut hlen, offer_of_open he]
    rfl
  · rw [receiveFrame_of_not_ready (frameReady_of_ended he), offerFrame_of_ended he]
  · rw [receiveFrame_of_ready hr, takeFrame_of_cut hlen]
    exact ⟨_, rfl, ⟨rfl, rfl, rfl, rfl, rfl⟩, rfl, rfl, rfl, Nat.mod_eq_of_lt (by omega), rfl, rfl, rfl, rfl⟩

end Sys2Proof.Machine
end

section
/-! PROOFS. DEC's steps over whole groups and whole frames (spec/47_engines.md R288 to R290): eight bit steps take a
byte, and the bytes of a frame bring DEC to where a frame taken whole has it (log 13, log 14). -/

namespace Sys2Proof.Machine

/-! ### Runs of an engine -/

/-- An engine run for at most `k` steps: `encRun` and `decRun`, for either engine's turn. -/
def turns {σ : Type} (turn : σ → Turn σ) : Nat → σ → σ
  | 0, s => s
  | k + 1, s =>
    match turn s with
    | .moves s' => turns turn k s'
    | .waits => s
    | .stops _ => s

theorem encRun_eq_turns (k : Nat) (e : Enc) : encRun k e = turns encStep k e := by
  induction k generalizing e with
  | zero => rfl
  | succ k ih =>
    simp only [encRun, turns]
    split <;> simp_all only

theorem decRun_eq_turns (k : Nat) (d : Dec) : decRun k d = turns decStep k d := by
  induction k generalizing d with
  | zero => rfl
  | succ k ih =>
    simp only [decRun, turns]
    split <;> simp_all only

section
variable {σ : Type} {turn : σ → Turn σ} {s s' : σ}

theorem turns_succ_of_moves (h : turn s = .moves s') (k : Nat) : turns turn (k + 1) s = turns turn k s' := by
  simp only [turns, h]

theorem turns_one_of_moves (h : turn s = .moves s') : turns turn 1 s = s' := turns_succ_of_moves h 0

theorem turns_of_waits (h : turn s = .waits) (k : Nat) : turns turn k s = s := by
  cases k <;> simp only [turns, h]

theorem turns_of_stops {f : Fault} (h : turn s = .stops f) (k : Nat) : turns turn k s = s := by
  cases k <;> simp only [turns, h]

theorem turns_add (turn : σ → Turn σ) (j k : Nat) (s : σ) : turns turn (j + k) s = turns turn k (turns turn j s) := by
  induction j generalizing s with
  | zero => rw [Nat.zero_add]; rfl
  | succ j ih =>
    cases h : turn s with
    | waits => simp only [turns_of_waits h]
    | stops f => simp only [turns_of_stops h]
    | moves s' => rw [Nat.succ_add, turns_succ_of_moves h, turns_succ_of_moves h, ih]

end

/-! ### The bits of a group -/

/-- `DEC.ACC` with the bits `l` written from position `k` on. -/
def accWrites (acc : BitVec 8) (k : Nat) : List Bit → BitVec 8
  | [] => acc
  | b :: l => accWrites (accWrite acc k b) (k + 1) l

theorem accWrites_getLsbD (acc : BitVec 8) (k : Nat) (l : List Bit) {j : Nat} (hj : j < 8) :
    (accWrites acc k l).getLsbD j = if k ≤ j ∧ j < k + l.length then l.getD (j - k) false else acc.getLsbD j := by
  induction l generalizing acc k with
  | nil => rw [accWrites, if_neg (by rw [List.length_nil]; omega)]
  | cons b l ih =>
    rw [accWrites, ih, accWrite_getLsbD acc k b hj, List.length_cons]
    obtain h | rfl | h := Nat.lt_trichotomy j k
    · rw [if_neg (by omega), if_neg h.ne, if_neg (by omega)]
    · rw [if_neg (by omega), if_pos rfl, if_pos (by omega), Nat.sub_self, List.getD_cons_zero]
    · rw [if_neg h.ne', show j - k = j - (k + 1) + 1 by omega, List.getD_cons_succ]
      exact if_congr (by omega) rfl rfl

/-- Eight bits leave nothing of what `ACC` held: under `LSB_FIRST` it is the byte of the group (log 19). -/
theorem accWrites_group (acc : BitVec 8) (t : BitTuple) : accWrites acc 0 t.toList = tobyte .lsbFirst t := by
  refine BitVec.eq_of_getLsbD_eq fun j hj => ?_
  rw [accWrites_getLsbD acc 0 _ hj, tobyte_getLsbD .lsbFirst t hj, if_pos (by simp [hj])]
  simp [hj, bitIndex]

/-- DEC after bits that do not complete a group, `rest` left on RXI. -/
def bitsTaken (l rest : List Bit) (d : Dec) : Dec :=
  { d with
    acc := accWrites d.acc d.nb.toNat l
    nb := d.nb + BitVec.ofNat 3 l.length
    rxi := { d.rxi with queue := rest, n := d.rxi.n + l.length } }

theorem bitsTaken_cons {d : Dec} (b : Bit) (l q rest : List Bit) (h : d.nb.toNat < 7) :
    bitsTaken l rest (bitsTaken [b] q d) = bitsTaken (b :: l) rest d := by
  have hnext : (d.nb + 1#3).toNat = d.nb.toNat + 1 := by bv_omega
  simp only [bitsTaken, accWrites, List.length_cons, List.length_nil, Nat.zero_add, hnext, Dec.mk.injEq,
    InPort.mk.injEq,
    true_and, and_true]
  exact ⟨by rw [BitVec.add_assoc, BitVec.ofNat_add_ofNat, Nat.add_comm], by omega⟩

theorem decStep_of_bit_lt {d : Dec} {b : Bit} {rest : List Bit} (hd : 0 < d.rxo.demand)
    (hst : d.st = .pfx ∨ d.st = .payload) (hq : d.rxi.queue = b :: rest) (hnb : d.nb.toNat < 7) :
    decStep d = .moves (bitsTaken [b] rest d) :=
  (decStep_of_bit hd hst).trans ((takeBit_of_cons hq).trans (bitTaken_of_lt hnb))

theorem decStep_of_eighth {d : Dec} {b : Bit} {rest : List Bit} (hd : 0 < d.rxo.demand)
    (hst : d.st = .pfx ∨ d.st = .payload) (hq : d.rxi.queue = b :: rest) (hnb : d.nb.toNat = 7) :
    decStep d = byteComplete (accWrite d.acc 7 b) { d with
      acc := accWrite d.acc 7 b
      nb := 0
      rxi := { d.rxi with queue := rest, n := d.rxi.n + 1 } } :=
  (decStep_of_bit hd hst).trans ((takeBit_of_cons hq).trans (bitTaken_of_eighth hnb))

theorem turns_bits {d : Dec} {l rest : List Bit} (hd : 0 < d.rxo.demand) (hst : d.st = .pfx ∨ d.st = .payload)
    (hq : d.rxi.queue = l ++ rest) (hl : d.nb.toNat + l.length ≤ 7) :
    turns decStep l.length d = bitsTaken l rest d := by
  induction l generalizing d with
  | nil =>
    obtain rfl : d.rxi.queue = rest := hq
    exact (congrArg (fun nb => { d with nb }) (BitVec.add_zero d.nb)).symm
  | cons b l ih =>
    rw [List.cons_append] at hq
    rw [List.length_cons] at hl ⊢
    have hnb : d.nb.toNat < 7 := by omega
    have hnext : (bitsTaken [b] (l ++ rest) d).nb.toNat = d.nb.toNat + 1 := by
      simp only [bitsTaken, List.length_singleton]; bv_omega
    rw [turns_succ_of_moves (decStep_of_bit_lt hd hst hq hnb),
      ih (d := bitsTaken [b] (l ++ rest) d) hd hst rfl (by omega), bitsTaken_cons b l _ rest hnb]

/-- DEC with the byte of a whole group in `ACC`, before `D_PREFIX` or `D_PAYLOAD` uses it (47 R288). -/
def groupTaken (t : BitTuple) (rest : List Bit) (d : Dec) : Dec :=
  { d with
    acc := tobyte .lsbFirst t
    nb := 0
    rxi := { d.rxi with queue := rest, n := d.rxi.n + 8 } }

theorem turns_group {d d' : Dec} {t : BitTuple} {rest : List Bit} (hd : 0 < d.rxo.demand)
    (hst : d.st = .pfx ∨ d.st = .payload) (hnb : d.nb = 0) (hq : d.rxi.queue = t.toList ++ rest)
    (hbyte : byteComplete (tobyte .lsbFirst t) (groupTaken t rest d) = .moves d') : turns decStep 8 d = d' := by
  match t with
  | ⟨⟨[b0, b1, b2, b3, b4, b5, b6, b7]⟩, rfl⟩ =>
    have hseven := turns_bits (l := [b0, b1, b2, b3, b4, b5, b6]) (rest := b7 :: rest) hd hst hq
      (by rw [hnb]; simp only [List.length_cons, List.length_nil]; decide)
    have heighth : (bitsTaken [b0, b1, b2, b3, b4, b5, b6] (b7 :: rest) d).nb.toNat = 7 := by
      simp only [bitsTaken, List.length_cons, List.length_nil, hnb]; decide
    rw [turns_add decStep 7 1]
    refine (congrArg (turns decStep 1) hseven).trans (turns_one_of_moves ?_)
    refine (decStep_of_eighth (by exact hd) (by exact hst) rfl heighth).trans ?_
    have hacc : accWrite (accWrites d.acc d.nb.toNat [b0, b1, b2, b3, b4, b5, b6]) 7 b7 =
        tobyte .lsbFirst ⟨#[b0, b1, b2, b3, b4, b5, b6, b7], rfl⟩ := by
      rw [hnb]; exact accWrites_group d.acc #v[b0, b1, b2, b3, b4, b5, b6, b7]
    simp only [bitsTaken, hacc]
    exact hbyte

/-! ### BITGROUP -/

theorem takeGroup_eq (t : BitTuple) {d : Dec} (hq : d.rxi.queue = []) :
    takeGroup t d = byteComplete (tobyte .lsbFirst t) (groupTaken t [] d) := by
  have hacc : accOfGroup t = tobyte .lsbFirst t := byteOfTuple_eq_tobyte t
  rw [takeGroup, hacc, codec_bitOrder, groupTaken, ← hq]

/-- A byte completes in `D_PREFIX`, and in `D_PAYLOAD` where the buffer has room. -/
theorem byteComplete_moves (y : Byte) {d : Dec} (hst : d.st = .pfx ∨ d.st = .payload)
    (hcnt : d.st = .payload → d.cnt.toNat < 255) : ∃ d', byteComplete y d = .moves d' := by
  obtain h | h := hst
  · exact ⟨_, byteComplete_of_pfx y h⟩
  · exact ⟨_, byteComplete_of_payload y h (hcnt h)⟩

theorem exec_bitgroup (t : BitTuple) (s : State) : exec (.bitgroup t) s = receiveGroup t s := rfl

/-- Settles O44: a group on RXI is taken by eight bit steps, to the byte that `takeGroup` completes. -/
theorem bitGroupIsEightBitSteps : Obligations.BitGroupIsEightBitSteps := by
  intro t s hinv
  rw [exec_bitgroup]
  refine ⟨fun hst hr => ?_, fun hr he => ?_, fun he => ?_⟩
  · obtain ⟨hnb, hd, hq, -⟩ := (groupReady_iff _).1 hr
    obtain ⟨d', hbyte⟩ := byteComplete_moves (tobyte .lsbFirst t) (d := groupTaken t [] s.dec) hst
      (by exact cnt_lt_of_decInv (d := s.dec) hinv)
    have hrun : decRun 8 { s.dec with rxi := { s.dec.rxi with queue := t.toList } } = d' :=
      (decRun_eq_turns _ _).trans (turns_group hd hst hnb (List.append_nil _).symm hbyte)
    rw [hrun, receiveGroup, if_pos (by simpa [hr] using hst), takeGroup_eq t hq, hbyte]
  · rw [receiveGroup, if_neg (by simpa using hr), offer_of_open he]
  · have hr : groupReady s.dec = false := by simp [groupReady, he]
    rw [receiveGroup, if_neg (by simp [hr]), offer_of_ended he]


/-! ### A frame, group by group -/

/-- DEC after the first byte `p` and the bytes `g` of its payload, `rest` left on RXI (47 R289, R290). -/
def receiving (p : Byte) (g : List Byte) (rest : List Bit) (d : Dec) : Dec :=
  { frameReceived p g d with
    st := if g.length = p.toNat then .decode else .payload
    rxi := { (frameReceived p g d).rxi with queue := rest } }

theorem bufSet_bufFill {n : Nat} (v : Vector Byte n) {g : List Byte} (b : Byte) (h : g.length < n) :
    bufSet (bufFill v g) g.length b = bufFill v (g ++ [b]) := by
  rw [← Vector.toList_inj, bufSet_toList, toList_bufFill_of_le v h.le, toList_bufFill_of_le v (by simp; omega),
    List.set_append_right _ _ le_rfl, Nat.sub_self, List.append_assoc, List.length_append, List.length_singleton]
  rw [List.drop_eq_getElem_cons (by simpa using h), List.set_cons_zero, List.singleton_append]

section
variable {d : Dec} {p : Byte} (hd : 0 < d.rxo.demand)
include hd

theorem turns_prefix {rest : List Bit} (hst : d.st = .pfx) (hnb : d.nb = 0)
    (hq : d.rxi.queue = bpExpand .lsbFirst [p] ++ rest) : turns decStep 8 d = receiving p [] rest d := by
  rw [bpExpand_cons, bpExpand_nil, List.append_nil] at hq
  refine turns_group hd (.inl hst) hnb hq ?_
  rw [tobyte_tobits, byteComplete_of_pfx p (by exact hst), groupTaken, tobyte_tobits, receiving, frameReceived,
    bufFill_nil]
  simp only [List.length_nil, eq_comm (a := (0 : Nat)), BitVec.toNat_eq]
  rfl

theorem turns_payloadByte {g : List Byte} {b : Byte} {q rest : List Bit} (hlt : g.length < p.toNat)
    (hq : q = bpExpand .lsbFirst [b] ++ rest) :
    turns decStep 8 (receiving p g q d) = receiving p (g ++ [b]) rest d := by
  have hst : (receiving p g q d).st = .payload := if_neg hlt.ne
  have hcnt : (BitVec.ofNat 8 g.length).toNat = g.length := Nat.mod_eq_of_lt (by omega)
  have hend : BitVec.ofNat 8 g.length + 1 = p ↔ g.length + 1 = p.toNat := by bv_omega
  have hn : d.rxi.n + 8 * (1 + g.length) + 8 = d.rxi.n + 8 * (1 + (g.length + 1)) := by omega
  rw [bpExpand_cons, bpExpand_nil, List.append_nil] at hq
  refine turns_group (by exact hd) (.inr hst) rfl hq ?_
  rw [tobyte_tobits, byteComplete_of_payload b (by exact hst) (hcnt.trans_lt (by omega))]
  simp only [groupTaken, receiving, frameReceived, tobyte_tobits, List.getLastD_concat, hcnt,
    bufSet_bufFill d.buf b (show g.length < 255 by omega), hend, hn, List.length_append, List.length_singleton,
    BitVec.ofNat_add]
  rfl

theorem turns_payload {g w : List Byte} {rest : List Bit} (hlen : g.length + w.length ≤ p.toNat) :
    turns decStep (8 * w.length) (receiving p g (bpExpand .lsbFirst w ++ rest) d) = receiving p (g ++ w) rest d := by
  induction w generalizing g with
  | nil => rw [List.append_nil]; rfl
  | cons b w ih =>
    rw [List.length_cons] at hlen ⊢
    rw [Nat.mul_succ, Nat.add_comm, turns_add, bpExpand_cons, List.append_assoc,
      turns_payloadByte hd (b := b) (rest := bpExpand .lsbFirst w ++ rest) (by omega) (by simp),
      ih (by simp; omega), List.append_assoc, List.singleton_append]

/-- The bits of a frame, or of as much of it as there is. -/
theorem turns_frame {w : List Byte} {rest : List Bit} (hst : d.st = .pfx) (hnb : d.nb = 0)
    (hq : d.rxi.queue = bpExpand .lsbFirst (p :: w) ++ rest) (hlen : w.length ≤ p.toNat) :
    turns decStep (8 * (1 + w.length)) d = receiving p w rest d := by
  rw [Nat.mul_add, Nat.mul_one, turns_add, turns_prefix hd hst hnb (rest := bpExpand .lsbFirst w ++ rest)
    (by simpa using hq),
    turns_payload hd (by simpa using hlen), List.nil_append]

theorem decStep_receiving_of_complete {w : List Byte} (hlen : w.length = p.toNat) (rest : List Bit) :
    decStep (receiving p w rest d) = .moves (decodeFrame (receiving p w rest d)) :=
  decStep_of_decode hd (if_pos hlen)

theorem decStep_receiving_of_cut {w : List Byte} (hlen : w.length < p.toNat) (he : d.rxi.ended = true) :
    decStep (receiving p w [] d) = .moves (raiseFault .truncatedPayload (receiving p w [] d)) := by
  have hst : (receiving p w [] d).st = .payload := if_neg hlen.ne
  rw [decStep_of_bit (by exact hd) (.inr hst), takeBit_of_ended (d := receiving p w [] d) rfl he,
    bitsEnded_of_payload hst]

end

/-! ### A frame taken whole -/

theorem takeFrame_take (p : Byte) (w : List Byte) (d : Dec) : takeFrame p (w.take p.toNat) d = takeFrame p w d := by
  simp only [takeFrame, List.take_take, Nat.min_self]

theorem offerFrame_take (p : Byte) (w : List Byte) (d : Dec) : offerFrame p (w.take p.toNat) d = offerFrame p w d := by
  simp only [offerFrame, List.take_take, Nat.min_self]

section
variable {d : Dec} {p : Byte} {w : List Byte} (hr : frameReady d = true)
include hr

/-- The whole frame's bits are followed by `D_DECODE`. -/
theorem turns_offerFrame_of_complete (hlen : w.length = p.toNat) :
    turns decStep (8 * (1 + w.length) + 1) (offerFrame p w d) = takeFrame p w d := by
  obtain ⟨hst, hr⟩ := (frameReady_iff d).1 hr
  obtain ⟨hnb, hd, hq, he⟩ := (groupReady_iff d).1 hr
  rw [offerFrame_of_complete hlen, offer_of_open he, takeFrame_of_complete hlen, turns_add]
  have hframe := turns_frame (d := { d with rxi := { d.rxi with queue := d.rxi.queue ++ bpExpand .lsbFirst (p :: w) } })
    (p := p) (w := w) (rest := []) hd hst hnb (by simp [hq]) hlen.le
  refine (congrArg (turns decStep 1) hframe).trans (turns_one_of_moves ?_)
  refine (decStep_receiving_of_complete hd hlen []).trans (congrArg (Turn.moves ∘ decodeFrame) ?_)
  simp only [receiving, frameReceived, if_pos hlen, ← hq]

/-- The bits there are of a frame are followed by the end of RXI. -/
theorem turns_offerFrame_of_cut (hlen : w.length < p.toNat) :
    turns decStep (8 * (1 + w.length) + 1) (offerFrame p w d) = takeFrame p w d := by
  obtain ⟨hst, hr⟩ := (frameReady_iff d).1 hr
  obtain ⟨hnb, hd, hq, he⟩ := (groupReady_iff d).1 hr
  rw [offerFrame_of_cut hlen, offer_of_open he, takeFrame_of_cut hlen, turns_add]
  have hframe := turns_frame (p := p) (w := w) (rest := [])
    (d := { d with rxi := declareEnd { d.rxi with queue := d.rxi.queue ++ bpExpand .lsbFirst (p :: w) } })
    hd hst hnb (by simp [hq, declareEnd]) hlen.le
  refine (congrArg (turns decStep 1) hframe).trans (turns_one_of_moves ?_)
  refine (decStep_receiving_of_cut (by exact hd) hlen (by rfl)).trans (congrArg Turn.moves ?_)
  simp only [raiseFault, receiving, frameReceived, declareEnd, ← hq]

end

/-- Settles O43: the frame's groups are taken one by one, then the step that `takeFrame` makes of them. -/
theorem frameTakenWholeIsItsSteps : Obligations.FrameTakenWholeIsItsSteps := by
  intro p w d hr
  have hmin : min p.toNat w.length = (w.take p.toNat).length := List.length_take.symm
  rw [decRun_eq_turns, hmin, ← offerFrame_take, ← takeFrame_take]
  obtain hlen | hlen := (List.length_take_le p.toNat w).eq_or_lt
  · exact turns_offerFrame_of_complete hr hlen
  · exact turns_offerFrame_of_cut hr hlen

end Sys2Proof.Machine
end

section
/-! PROOFS. An encode session to its wait (spec/47_engines.md R284): ENC's steps over a Block, over the bits of its
frame and over the payload, for whatever demand was raised. -/

namespace Sys2Proof.Machine

/-! ### A run to the wait -/

/-- From `s` the engine comes to wait with as many of the events `l` on its port as were demanded, and with `Q` where
they all were. -/
def ComesToWait {σ ε : Type} (turn : σ → Turn σ) (out : σ → OutPort ε) (Q : σ → Prop) (s : σ) (l : List ε) : Prop :=
  ∃ k, turn (turns turn k s) = .waits ∧
    (out (turns turn k s)).trace = (out s).trace ++ l.take (out s).demand ∧
    (l.length ≤ (out s).demand → Q (turns turn k s))

section
variable {σ ε : Type} {turn : σ → Turn σ} {out : σ → OutPort ε} {Q : σ → Prop} {s s' : σ} {l : List ε}

theorem comesToWait_of_no_demand (hw : turn s = .waits) (hd : (out s).demand = 0) (hl : l ≠ []) :
    ComesToWait turn out Q s l := by
  refine ⟨0, hw, by simp [turns, hd], fun h => absurd (List.length_eq_zero_iff.1 ?_) hl⟩
  omega

theorem comesToWait_of_turns {j : Nat} (h : turns turn j s = s') (hout : out s' = out s)
    (hs : ComesToWait turn out Q s' l) : ComesToWait turn out Q s l := by
  obtain ⟨k, hk⟩ := hs
  exact ⟨j + k, by rwa [turns_add, h, ← hout]⟩

theorem comesToWait_of_moves (h : turn s = .moves s') (hout : out s' = out s)
    (hs : ComesToWait turn out Q s' l) : ComesToWait turn out Q s l :=
  comesToWait_of_turns (turns_one_of_moves h) hout hs

theorem comesToWait_of_emit {ev : ε} (h : turn s = .moves s') (hd : 0 < (out s).demand)
    (hout : out s' = emit ev (out s)) (hs : ComesToWait turn out Q s' l) : ComesToWait turn out Q s (ev :: l) := by
  obtain ⟨k, hw, htrace, hQ⟩ := hs
  obtain ⟨n, hn⟩ := Nat.exists_eq_add_one_of_ne_zero hd.ne'
  have hn' : (out s').demand = n := by rw [hout, emit, hn]; rfl
  refine ⟨k + 1, ?_⟩
  rw [turns_succ_of_moves h, hn, List.take_succ_cons, List.length_cons]
  refine ⟨hw, ?_, fun hl => hQ (by omega)⟩
  rw [htrace, hn', hout, emit, List.append_assoc, List.singleton_append]

section
variable [DecidableEq ε] {ev : ε} (hwait : ∀ s, Q s → (out s).demand = 0 → turn s = .waits)
  (hpresent : ∀ s, Q s → 0 < (out s).demand → ∃ s', turn s = .moves s' ∧ Q s' ∧ out s' = present ev (out s))
include hwait hpresent

/-- A terminal event that the trace ends with is not given again. -/
theorem comesToWait_of_presented (hQ : Q s) (hlast : (out s).trace.getLast? = some ev) :
    ComesToWait turn out Q s [] := by
  induction hn : (out s).demand generalizing s with
  | zero => exact ⟨0, hwait s hQ hn, by simp [turns], fun _ => hQ⟩
  | succ n ih =>
    obtain ⟨s', hmove, hQ', hout⟩ := hpresent s hQ (by omega)
    have htrace : (out s').trace = (out s).trace := by rw [hout, present_trace_of_eq hlast]
    obtain ⟨k, hw, hk, hend⟩ := ih hQ' (by rw [htrace, hlast]) (by simp [hout, present, hn])
    rw [List.take_nil, List.append_nil, htrace] at hk
    refine ⟨k + 1, ?_⟩
    rw [turns_succ_of_moves hmove, List.take_nil, List.append_nil]
    exact ⟨hw, hk, fun _ => hend (Nat.zero_le _)⟩

/-- An engine that presents the terminal event `ev` in its states `Q` gives it once, however often it is asked. -/
theorem comesToWait_of_present (hQ : Q s) (hlast : (out s).trace.getLast? ≠ some ev) :
    ComesToWait turn out Q s [ev] := by
  obtain hd | hd := Nat.eq_zero_or_pos (out s).demand
  · exact comesToWait_of_no_demand (hwait s hQ hd) hd (List.cons_ne_nil ev [])
  · obtain ⟨s', hmove, hQ', hout⟩ := hpresent s hQ hd
    have htrace : (out s').trace = (out s).trace ++ [ev] := by rw [hout, present_trace_of_ne hlast]
    obtain ⟨k, hw, hk, hend⟩ := comesToWait_of_presented hwait hpresent hQ' (by rw [htrace, List.getLast?_concat])
    rw [List.take_nil, List.append_nil, htrace] at hk
    refine ⟨k + 1, ?_⟩
    rw [turns_succ_of_moves hmove, List.take_of_length_le hd]
    exact ⟨hw, hk, fun _ => hend (Nat.zero_le _)⟩

end

end


/-! ### A Block filled -/

/-- ENC in a session with the bytes `y` still to be pulled, `End` not yet given. -/
structure EncSession (y : List Byte) (e : Enc) : Prop where
  queue : e.txi.queue = y
  ended : e.txi.ended = true
  srcend : e.srcend = true → y = []
  trace : .endMark ∉ e.txo.trace

/-- ENC, before a Block, with the bytes `g` of it pulled and `rest` left on TXI (47 R273). -/
def filled (g rest : List Byte) (e : Enc) : Enc :=
  { e with
    blk := bufFill e.blk g
    blen := BitVec.ofNat 8 g.length
    txi := { e.txi with queue := rest, n := e.txi.n + g.length } }

theorem filled_nil {e : Enc} (hb : e.blen = 0) : filled [] e.txi.queue e = e := by
  simp only [filled, bufFill_nil, List.length_nil, Nat.add_zero]
  exact congrArg (fun blen => { e with blen }) hb.symm

section
variable {e : Enc} (hd : 0 < e.txo.demand) (hst : e.st = .fill)
include hd hst

theorem encStep_filled {g rest : List Byte} (b : Byte) (hs : e.srcend = false) (hlen : g.length < 249) :
    encStep (filled g (b :: rest) e) = .moves (filled (g ++ [b]) rest e) := by
  have hblen : (filled g (b :: rest) e).blen.toNat = g.length := Nat.mod_eq_of_lt (by omega)
  refine (encStep_of_incomplete (e := filled g (b :: rest) e) hd hst hs (hblen.trans_lt hlen)).trans ?_
  refine (fillPull_of_cons (e := filled g (b :: rest) e) rfl).trans (congrArg Turn.moves ?_)
  simp only [hblen]
  simp only [filled, bufSet_bufFill e.blk b hlen, List.length_append, List.length_singleton, BitVec.ofNat_add,
    Nat.add_assoc]
  rfl

theorem turns_filled {g w rest : List Byte} (hs : e.srcend = false) (hlen : g.length + w.length ≤ 249) :
    turns encStep w.length (filled g (w ++ rest) e) = filled (g ++ w) rest e := by
  induction w generalizing g with
  | nil => rw [List.append_nil]; rfl
  | cons b w ih =>
    rw [List.length_cons] at hlen ⊢
    rw [List.cons_append, turns_succ_of_moves (encStep_filled hd hst b hs (by omega)),
      ih (by simp; omega), List.append_assoc, List.singleton_append]

/-- Without the end of TXI given, a Block is filled from the bytes there are. -/
theorem turns_fill {y : List Byte} (hb : e.blen = 0) (h : EncSession y e) (hs : e.srcend = false) :
    turns encStep (y.take 249).length e = filled (y.take 249) (y.drop 249) e := by
  have hrun := turns_filled hd hst (g := []) (w := y.take 249) (rest := y.drop 249) hs (by simp)
  rwa [List.take_append_drop, ← h.queue, filled_nil hb, h.queue] at hrun

end

/-- ENC at `E_CODE` with the Block `b`, `y` still to be pulled. -/
structure EncCoding (b y : List Byte) (e : Enc) : Prop where
  st : e.st = .code
  blen : e.blen.toNat = b.length
  block : bufTake e.blk b.length = b
  le : b.length ≤ 249
  session : EncSession y e

section
variable {e : Enc} {y : List Byte} (hd : 0 < e.txo.demand) (hst : e.st = .fill) (hb : e.blen = 0) (h : EncSession y e)
include hd hst hb h

/-- `E_FILL` comes to `E_CODE` with the next Block, the empty one after the last byte (47 R273, R274). -/
theorem exists_turns_encCoding : ∃ j, EncCoding (y.take 249) (y.drop 249) (turns encStep j e) ∧
    (turns encStep j e).txo = e.txo := by
  cases hs : e.srcend with
  | true =>
    obtain rfl := h.srcend hs
    refine ⟨1, ?_⟩
    rw [turns_one_of_moves (encStep_of_complete hd hst (.inr hs))]
    exact ⟨⟨rfl, congrArg BitVec.toNat hb, rfl, by simp, ⟨h.queue, h.ended, h.srcend, h.trace⟩⟩, rfl⟩
  | false =>
    have hle : (y.take 249).length ≤ 249 := List.length_take_le _ _
    have hrun := turns_fill hd hst hb h hs
    have hblen : (filled (y.take 249) (y.drop 249) e).blen.toNat = (y.take 249).length :=
      Nat.mod_eq_of_lt (by omega)
    have hblk : bufTake (filled (y.take 249) (y.drop 249) e).blk (y.take 249).length = y.take 249 :=
      bufTake_bufFill e.blk _ hle
    obtain hlt | heq := hle.lt_or_eq
    · have hdrop : y.drop 249 = [] := by
        rw [List.length_take] at hlt
        exact List.drop_of_length_le (by omega)
      have hend : encStep (filled (y.take 249) (y.drop 249) e) =
          .moves { filled (y.take 249) (y.drop 249) e with srcend := true } :=
        (encStep_of_incomplete (e := filled (y.take 249) (y.drop 249) e) hd hst hs (by omega)).trans
          (fillPull_of_ended hdrop h.ended)
      have hclose := encStep_of_complete (e := { filled (y.take 249) (y.drop 249) e with srcend := true })
        hd hst (.inr rfl)
      refine ⟨(y.take 249).length + 2, ?_⟩
      rw [turns_add, hrun, turns_succ_of_moves hend, turns_one_of_moves hclose]
      exact ⟨⟨rfl, hblen, hblk, hle, ⟨rfl, h.ended, fun _ => hdrop, h.trace⟩⟩, rfl⟩
    · have hclose := encStep_of_complete (e := filled (y.take 249) (y.drop 249) e) hd hst (.inl (hblen.trans heq))
      refine ⟨(y.take 249).length + 1, ?_⟩
      rw [turns_add, hrun, turns_one_of_moves hclose]
      exact ⟨⟨rfl, hblen, hblk, hle, ⟨rfl, h.ended, fun he => absurd (hs.symm.trans he) Bool.false_ne_true,
        h.trace⟩⟩, rfl⟩

end

/-! ### A frame shifted out -/

/-- ENC at `E_SHIFT` with the bits `l` of the frame of `b` still to be emitted, `y` still to be pulled. -/
structure EncShifting (b y : List Byte) (l : List Bit) (e : Enc) : Prop where
  st : e.st = .shift
  lastf : e.lastf = decide (b = [])
  byi : e.byi.toNat < e.flen.toNat
  flen : e.flen.toNat ≤ 256
  bits : (bpExpand .lsbFirst (bufTake e.fr e.flen.toNat)).drop (8 * e.byi.toNat + e.bii.toNat) = l
  session : EncSession y e

theorem EncCoding.encStep_eq {b y : List Byte} {e : Enc} (hd : 0 < e.txo.demand) (h : EncCoding b y e) :
    ∃ e', encStep e = .moves e' ∧ EncShifting b y (bpExpand .lsbFirst (frPack b)) e' ∧ e'.txo = e.txo := by
  have hb := h.blen
  have hle := h.le
  have hblk : bufTake e.blk e.blen.toNat = b := hb ▸ h.block
  have hflen : (BitVec.ofNat 9 (e.blen.toNat + 7)).toNat = b.length + 7 := by
    rw [BitVec.toNat_ofNat, hb]
    exact Nat.mod_eq_of_lt (by omega)
  have hfr : bufTake (bufFill e.fr (frPack b)) (b.length + 7) = frPack b := by
    rw [← length_frPack]
    exact bufTake_bufFill e.fr _ (by simp; omega)
  refine ⟨_, (encStep_of_code hd h.st).trans (codeFrame_eq (by omega)), ⟨rfl, ?_, ?_, ?_, ?_, ?_⟩, rfl⟩
  · simp [hb]
  · exact hflen.symm ▸ Nat.succ_pos _
  · exact hflen.trans_le (by omega)
  · simp only [hflen, hblk, hfr]
    rfl
  · exact ⟨h.session.queue, h.session.ended, h.session.srcend, h.session.trace⟩

/-- ENC after the frame of `b` (47 R278, R279). -/
structure EncFrameEnded (b y : List Byte) (e : Enc) : Prop where
  next : if b = [] then e.st = .done else e.st = .fill ∧ e.blen = 0
  session : EncSession y e

theorem getD_bufTake {n : Nat} (v : Vector Byte n) {i k : Nat} (h : i < k) : (bufTake v k).getD i 0 = bufGet v i := by
  rw [bufGet_eq_getD, bufTake, List.getD_eq_getElem?_getD, List.getElem?_take_of_lt h, ← List.getD_eq_getElem?_getD]

section
variable {b y : List Byte} {x : Bit} {l : List Bit} {e : Enc} (h : EncShifting b y (x :: l) e)
include h

/-- The next bit of the frame is the one under the shift indices. -/
theorem EncShifting.bits_eq : shiftBit e = x ∧
    (bpExpand .lsbFirst (bufTake e.fr e.flen.toNat)).drop (8 * e.byi.toNat + e.bii.toNat + 1) = l := by
  have hlen : (bufTake e.fr e.flen.toNat).length = e.flen.toNat := by
    rw [bufTake_length, Nat.min_eq_left h.flen]
  have hlt : 8 * e.byi.toNat + e.bii.toNat < (bpExpand .lsbFirst (bufTake e.fr e.flen.toNat)).length := by
    rw [bpExpand_length, hlen]
    have := h.byi
    omega
  have hbits := h.bits
  rw [List.drop_eq_getElem_cons hlt] at hbits
  obtain ⟨hx, hl⟩ := List.cons.inj hbits
  refine ⟨?_, hl⟩
  rw [← hx, shiftBit_eq, ← getD_bufTake e.fr h.byi, List.getElem_eq_getD false]
  exact (bpExpand_getD .lsbFirst _ e.bii.isLt (by rw [hlen]; exact h.byi)).symm

theorem EncShifting.length_eq : 8 * e.byi.toNat + e.bii.toNat + 1 + l.length = 8 * e.flen.toNat := by
  have hlen := congrArg List.length h.bits
  have hbyi := h.byi
  rw [List.length_drop, bpExpand_length, bufTake_length, Nat.min_eq_left h.flen, List.length_cons] at hlen
  omega

/-- What a session needs of ENC stays through `E_SHIFT`, whatever follows the bit. -/
theorem EncShifting.session_shiftOut : EncSession y (shiftOut e) := by
  obtain ⟨hq, he, hs, ht⟩ := h.session
  have ht' : TxoEvent.endMark ∉ (shiftOut e).txo.trace := by
    rw [shiftOut_txo]
    exact fun hmem => (List.mem_append.1 hmem).elim ht (by simp)
  rw [shiftOut] at ht' ⊢
  obtain ⟨-, hnext⟩ | ⟨-, -, hnext⟩ | ⟨-, -, -, hnext⟩ | ⟨-, -, -, hnext⟩ :=
    shiftNext_cases { e with txo := emit (.bit (shiftBit e)) e.txo } <;>
    rw [hnext] at ht' ⊢ <;> exact ⟨hq, he, hs, ht'⟩

theorem EncShifting.shiftOut_of_ne_nil (hl : l ≠ []) : EncShifting b y l (shiftOut e) := by
  have hpos := List.length_pos_iff.2 hl
  have hlen := h.length_eq
  have hbits := h.bits_eq.2
  have hflen := h.flen
  obtain hbii | hbii : e.bii.toNat < 7 ∨ e.bii.toNat = 7 := by omega
  · have hnext : shiftOut e = _ := shiftNext_of_bit (e := { e with txo := _ }) hbii
    have hpos : (e.bii + 1).toNat = e.bii.toNat + 1 := by bv_omega
    have hsession := h.session_shiftOut
    rw [hnext] at hsession ⊢
    exact ⟨h.st, h.lastf, h.byi, hflen, by simp only [hpos]; exact hbits, hsession⟩
  · have hlt : e.byi.toNat + 1 < e.flen.toNat := by omega
    have hnext : shiftOut e = _ := shiftNext_of_byte (e := { e with txo := _ }) hbii hlt
    have hpos : (e.byi + 1).toNat = e.byi.toNat + 1 := by bv_omega
    have hsession := h.session_shiftOut
    rw [hnext] at hsession ⊢
    refine ⟨h.st, h.lastf, hpos.trans_lt hlt, hflen, ?_, hsession⟩
    rw [← hbits, hbii]
    simp only [hpos]
    rfl

theorem EncShifting.shiftOut_of_nil (hl : l = []) : EncFrameEnded b y (shiftOut e) := by
  have hlen := h.length_eq
  rw [hl, List.length_nil] at hlen
  have hbii : e.bii.toNat = 7 := by omega
  have hend : e.byi.toNat + 1 = e.flen.toNat := by omega
  have hsession := h.session_shiftOut
  by_cases hb : b = []
  · have hnext : shiftOut e = _ :=
      shiftNext_of_lastFrameEnd (e := { e with txo := _ }) hbii hend (h.lastf.trans (decide_eq_true hb))
    rw [hnext] at hsession ⊢
    exact ⟨by rw [if_pos hb], hsession⟩
  · have hnext : shiftOut e = _ :=
      shiftNext_of_frameEnd (e := { e with txo := _ }) hbii hend (h.lastf.trans (decide_eq_false hb))
    rw [hnext] at hsession ⊢
    exact ⟨by rw [if_neg hb]; exact ⟨rfl, rfl⟩, hsession⟩

end

/-! ### The payload -/

/-- ENC's run to its wait. -/
abbrev EncRuns : Enc → List TxoEvent → Prop := ComesToWait encStep Enc.txo fun _ => True

theorem encStep_of_no_demand {e : Enc} (hd : e.txo.demand = 0) : encStep e = .waits := by simp [encStep, hd]

theorem EncShifting.runs {b y : List Byte} {l : List Bit} {e : Enc} {rest : List TxoEvent} (h : EncShifting b y l e)
    (hl : l ≠ []) (hrest : ∀ e', EncFrameEnded b y e' → EncRuns e' rest) : EncRuns e (l.map .bit ++ rest) := by
  induction l generalizing e with
  | nil => exact absurd rfl hl
  | cons x l ih =>
    obtain hd | hd := Nat.eq_zero_or_pos e.txo.demand
    · exact comesToWait_of_no_demand (encStep_of_no_demand hd) hd (List.cons_ne_nil _ _)
    · refine comesToWait_of_emit (encStep_of_shift hd h.st) hd (by rw [shiftOut_txo, h.bits_eq.1]) ?_
      by_cases hl' : l = []
      · rw [hl']
        exact hrest _ (h.shiftOut_of_nil hl')
      · exact ih (h.shiftOut_of_ne_nil hl') hl'

/-- A frame: its Block is filled, coded and shifted out. -/
theorem encRuns_frame {y : List Byte} {e : Enc} {rest : List TxoEvent} (hst : e.st = .fill) (hb : e.blen = 0)
    (h : EncSession y e) (hrest : ∀ e', EncFrameEnded (y.take 249) (y.drop 249) e' → EncRuns e' rest) :
    EncRuns e ((bpExpand .lsbFirst (frPack (y.take 249))).map .bit ++ rest) := by
  have hbits : bpExpand .lsbFirst (frPack (y.take 249)) ≠ [] := fun h0 => by
    have := congrArg List.length h0
    rw [bpExpand_length, length_frPack, List.length_nil] at this
    omega
  obtain hd | hd := Nat.eq_zero_or_pos e.txo.demand
  · exact comesToWait_of_no_demand (encStep_of_no_demand hd) hd (by simp [hbits])
  · obtain ⟨j, hcoding, hout⟩ := exists_turns_encCoding hd hst hb h
    refine comesToWait_of_turns rfl hout ?_
    obtain ⟨e', hstep, hshift, hout'⟩ := hcoding.encStep_eq (by rwa [hout])
    exact comesToWait_of_moves hstep hout' (hshift.runs hbits hrest)

theorem encRuns_done {y : List Byte} {e : Enc} (hst : e.st = .done) (h : EncSession y e) : EncRuns e [.endMark] := by
  have hrun : ComesToWait encStep Enc.txo (fun e => e.st = .done) e [.endMark] :=
    comesToWait_of_present (fun _ _ hd => encStep_of_no_demand hd)
      (fun e hst hd => ⟨_, encStep_of_done hd hst, hst, rfl⟩) hst
      fun hlast => h.trace (List.mem_of_getLast? hlast)
  exact hrun.imp fun _ ⟨hw, htrace, _⟩ => ⟨hw, htrace, fun _ => trivial⟩

theorem bpExpand_append (o : BitOrder) (x y : List Byte) : bpExpand o (x ++ y) = bpExpand o x ++ bpExpand o y := by
  induction x with
  | nil => rfl
  | cons b x ih => simp [ih]

theorem bsEnc_nil (o : BitOrder) : bsEnc o [] = bpExpand o (frPack []) := by
  rw [bsEnc, frEnc, frSplit_nil, List.map_nil, List.nil_append, List.flatten_singleton]

theorem frEnc_of_ne_nil {y : List Byte} (hy : y ≠ []) : frEnc y = frPack (y.take 249) :: frEnc (y.drop 249) := by
  rw [frEnc, frSplit_of_ne_nil hy]
  rfl

theorem encRuns_payload {y : List Byte} {e : Enc} (hst : e.st = .fill) (hb : e.blen = 0) (h : EncSession y e) :
    EncRuns e ((bsEnc .lsbFirst y).map .bit ++ [.endMark]) := by
  induction y using payload_induction generalizing e with
  | nil =>
    have hrun := encRuns_frame hst hb h fun e' h' => encRuns_done (by simpa using h'.next) h'.session
    rwa [List.take_nil, ← bsEnc_nil] at hrun
  | cut y hy ih =>
    rw [bsEnc, frEnc_of_ne_nil hy, List.flatten_cons, bpExpand_append, List.map_append, List.append_assoc]
    refine encRuns_frame hst hb h fun e' h' => ?_
    obtain ⟨hst', hb'⟩ : e'.st = .fill ∧ e'.blen = 0 := by simpa [hy] using h'.next
    exact ih hst' hb' h'.session

/-- Settles O52: one Block of the payload after the other, the empty one with its frame at the end, then `End`. -/
theorem encComputesBsEnc : Obligations.EncComputesBsEnc := by
  intro e y k
  obtain ⟨steps, hw, htrace, -⟩ := encRuns_payload (y := y)
    (e := { startEnc e with
      txi := { queue := y, ended := true, n := 0 }, txo := { trace := [], demand := k, n := 0 } })
    rfl rfl ⟨rfl, rfl, nofun, nofun⟩
  rw [← encRun_eq_turns] at hw htrace
  exact ⟨steps, hw, htrace⟩

end Sys2Proof.Machine
end

section
/-! PROOFS. A decode session to its wait (spec/47_engines.md R296): DEC's steps over the frames of a bit sequence, each
of them one turn of FR.DEC's recursion, for whatever demand was raised. -/

namespace Sys2Proof.Machine

/-! ### BS.DEC over whole bytes and a partial group -/

/-- Whether the bits ended within a frame: then all of them are consumed (46 R251). -/
def endsInFrame : StreamEnd → Bool
  | .fault .truncatedPrefix | .fault .truncatedPayload => true
  | _ => false

/-- The bits that a decoder takes of the bytes `y` and `k` bits after them (46 R251). -/
def bitsTakenFrom (y : List Byte) (k : Nat) (r : StreamResult) : Nat :=
  if endsInFrame r.outcome then 8 * y.length + k else 8 * r.consumed

/-- Every bit sequence is whole bytes and fewer than eight bits (40 R115). -/
theorem exists_eq_bpExpand_append (o : BitOrder) (z : List Bit) :
    ∃ part, part.length < 8 ∧ z = bpExpand o (bpGroup o z) ++ part := by
  induction z using bits_induction with
  | short x hx => exact ⟨x, hx, by rw [bpGroup_short o hx]; rfl⟩
  | group t rest ih =>
    obtain ⟨part, hpart, hz⟩ := ih
    exact ⟨part, hpart, by rw [bpGroup_append, bpExpand_cons, tobits_tobyte, List.append_assoc, ← hz]⟩

theorem bsDec_eq (o : BitOrder) (y : List Byte) {part : List Bit} (hpart : part.length < 8) :
    bsDec o (bpExpand o y ++ part) =
      { frDec y 0 with consumed := bitsTakenFrom y part.length (frDec y 0) } := by
  simp only [bsDec, bpGroup_bpExpand_append o y hpart, List.length_append, bpExpand_length, bitsTakenFrom]
  obtain ⟨blocks, outcome, maxerr, consumed⟩ := frDec y 0
  match outcome with
  | .done | .fault .truncatedPrefix | .fault .truncatedPayload | .fault .uncorrectable | .fault .frameTooShort => rfl

/-! ### DEC in a session -/

/-- DEC in a session that has not ended, with the bits `z` still to be taken, `n` taken, the maximum being `m`. -/
structure DecSession (z : List Bit) (m n : Nat) (d : Dec) : Prop where
  queue : d.rxi.queue = z
  ended : d.rxi.ended = true
  maxerr : d.maxerr.toNat = m
  taken : d.rxi.n = n
  fault : d.fault = 0
  report : d.report = false
  trace : ∀ ev ∈ d.rxo.trace, ∃ b last, ev = .byte b last

/-- DEC in the state that the outcome `o` ends a session in (47 R297, R298). -/
def AtEnd : StreamEnd → Dec → Prop
  | .done, d => d.st = .done
  | .fault f, d => d.st = .fault ∧ d.fault = faultCode f

/-- DEC after a session that came to the outcome `o` with the maximum `m` and `n` bits taken (47 R296). -/
structure DecEnded (o : StreamEnd) (m n : Nat) (d : Dec) : Prop where
  atEnd : AtEnd o d
  maxerr : d.maxerr.toNat = m
  taken : d.rxi.n = n
  done : o = .done → d.fault = 0 ∧ (d.report = true ↔ m ≠ 0)
  fault : ∀ f, o = .fault f → d.fault = faultCode f ∧ d.report = false

theorem decStep_of_no_demand {d : Dec} (hd : d.rxo.demand = 0) : decStep d = .waits := by simp [decStep, hd]

theorem decStep_of_atEnd {o : StreamEnd} {d : Dec} (h : AtEnd o d) (hd : 0 < d.rxo.demand) :
    decStep d = .moves (decPresent (outcomeEvent o) d) := by
  match o with
  | .done => exact decStep_of_done hd h
  | .fault f => rw [decStep_of_fault hd h.1, h.2]; rfl

theorem atEnd_decPresent {o : StreamEnd} {d : Dec} (h : AtEnd o d) (ev : RxoEvent) : AtEnd o (decPresent ev d) := by
  match o with
  | .done => exact h
  | .fault f => exact h

/-- DEC's run to its wait, to the outcome `o` with the maximum `m` and `n` bits taken. -/
abbrev DecRuns (o : StreamEnd) (m n : Nat) : Dec → List RxoEvent → Prop :=
  ComesToWait decStep Dec.rxo (DecEnded o m n)

theorem outcomeEvent_ne_byte (o : StreamEnd) (b : Byte) (last : Bool) : outcomeEvent o ≠ .byte b last := by
  cases o <;> nofun

theorem decRuns_ended {o : StreamEnd} {m n : Nat} {d : Dec} (h : DecEnded o m n d)
    (htrace : ∀ ev ∈ d.rxo.trace, ∃ b last, ev = .byte b last) : DecRuns o m n d [outcomeEvent o] := by
  refine comesToWait_of_present (fun _ _ hd => decStep_of_no_demand hd)
    (fun d h hd => ⟨_, decStep_of_atEnd h.atEnd hd, ?_, rfl⟩) h fun hlast => ?_
  · exact ⟨atEnd_decPresent h.atEnd _, h.maxerr, h.taken, h.done, h.fault⟩
  · obtain ⟨b, last, hev⟩ := htrace _ (List.mem_of_getLast? hlast)
    exact outcomeEvent_ne_byte o b last hev

/-- The exception of a session (60 R316). -/
theorem DecSession.raiseFault {z : List Bit} {m n : Nat} {d : Dec} (f : FaultKind) (h : DecSession z m n d) :
    DecEnded (.fault f) m n (raiseFault f d) :=
  ⟨⟨rfl, rfl⟩, h.maxerr, h.taken, nofun, fun _ hf => by cases hf; exact ⟨rfl, h.report⟩⟩

theorem decRuns_raiseFault {z : List Bit} {m n : Nat} {d : Dec} (f : FaultKind) (h : DecSession z m n d) :
    DecRuns (.fault f) m n (raiseFault f d) [outcomeEvent (.fault f)] :=
  decRuns_ended (h.raiseFault f) h.trace

/-! ### The bits of a frame -/

/-- The session ends in a group: the bits of it are taken, and the end of RXI is met (47 R294). -/
theorem decRuns_cutGroup {part : List Bit} (hpart : part.length < 8) {m n : Nat} {d : Dec} {f : FaultKind}
    (hst : d.st = .pfx ∧ f = .truncatedPrefix ∨ d.st = .payload ∧ f = .truncatedPayload) (hnb : d.nb = 0)
    (h : DecSession part m n d) : DecRuns (.fault f) m (n + part.length) d [outcomeEvent (.fault f)] := by
  obtain hd | hd := Nat.eq_zero_or_pos d.rxo.demand
  · exact comesToWait_of_no_demand (decStep_of_no_demand hd) hd (List.cons_ne_nil _ _)
  · have hbit : d.st = .pfx ∨ d.st = .payload := hst.imp And.left And.left
    have hend : bitsEnded (bitsTaken part [] d) = .moves (raiseFault f (bitsTaken part [] d)) := by
      obtain ⟨hst, rfl⟩ | ⟨hst, rfl⟩ := hst
      · exact bitsEnded_of_pfx hst
      · exact bitsEnded_of_payload hst
    have hstep := (decStep_of_bit (d := bitsTaken part [] d) hd hbit).trans
      ((takeBit_of_ended (d := bitsTaken part [] d) rfl h.ended).trans hend)
    have hrun := turns_bits (rest := []) hd hbit (h.queue.trans (List.append_nil part).symm)
      (by have : d.nb.toNat = 0 := congrArg BitVec.toNat hnb; omega)
    refine comesToWait_of_turns hrun rfl (comesToWait_of_moves hstep rfl (decRuns_raiseFault (z := []) f ?_))
    exact ⟨rfl, h.ended, h.maxerr, congrArg (· + part.length) h.taken, h.fault, h.report, h.trace⟩

theorem DecSession.receiving {p : Byte} {w : List Byte} {z rest : List Bit} {m n : Nat} {d : Dec}
    (h : DecSession z m n d) : DecSession rest m (n + 8 * (1 + w.length)) (receiving p w rest d) :=
  ⟨rfl, h.ended, h.maxerr, congrArg (· + 8 * (1 + w.length)) h.taken, h.fault, h.report, h.trace⟩

theorem decRuns_frame {p : Byte} {w : List Byte} {rest : List Bit} {m n m' n' : Nat} {d : Dec} {o : StreamEnd}
    {l : List RxoEvent} (hst : d.st = .pfx) (hnb : d.nb = 0)
    (h : DecSession (bpExpand .lsbFirst (p :: w) ++ rest) m n d)
    (hlen : w.length ≤ p.toNat) (hl : l ≠ []) (hrun : DecRuns o m' n' (receiving p w rest d) l) :
    DecRuns o m' n' d l := by
  obtain hd | hd := Nat.eq_zero_or_pos d.rxo.demand
  · exact comesToWait_of_no_demand (decStep_of_no_demand hd) hd hl
  · exact comesToWait_of_turns (turns_frame hd hst hnb h.queue hlen) rfl hrun

/-! ### A Block drained -/

/-- DEC at `D_DRAIN` with the bytes `l` of the Block still to be emitted (47 R293). -/
structure DecDraining (l : List Byte) (d : Dec) : Prop where
  st : d.st = .drain
  nb : d.nb = 0
  oi : d.oi.toNat < d.olen.toNat
  olen : d.olen.toNat ≤ 249
  bytes : (bufTake d.buf d.olen.toNat).drop d.oi.toNat = l

section
variable {x : Byte} {l : List Byte} {d : Dec} (h : DecDraining (x :: l) d)
include h

theorem DecDraining.bytes_eq : bufGet d.buf d.oi.toNat = x ∧
    (bufTake d.buf d.olen.toNat).drop (d.oi.toNat + 1) = l := by
  have holen := h.olen
  have hlt : d.oi.toNat < (bufTake d.buf d.olen.toNat).length := by
    rw [bufTake_length, Nat.min_eq_left (by omega)]
    exact h.oi
  have hbytes := h.bytes
  rw [List.drop_eq_getElem_cons hlt] at hbytes
  obtain ⟨hx, hl⟩ := List.cons.inj hbytes
  exact ⟨by rw [← hx, ← getD_bufTake d.buf h.oi, List.getElem_eq_getD 0], hl⟩

theorem DecDraining.length_eq : d.oi.toNat + 1 + l.length = d.olen.toNat := by
  have hlen := congrArg List.length h.bytes
  have hoi := h.oi
  have holen := h.olen
  rw [List.length_drop, bufTake_length, Nat.min_eq_left (by omega), List.length_cons] at hlen
  omega

end

theorem chunkEvents_cons (x : Byte) (l : List Byte) :
    chunkEvents (x :: l) = .byte x (decide (l = [])) :: chunkEvents l := by
  cases l <;> rfl

theorem DecSession.emit {z : List Bit} {m n : Nat} {d d' : Dec} {x : Byte} {last : Bool} (h : DecSession z m n d)
    (hd' : d' = { d with st := d'.st, cnt := d'.cnt, oi := d'.oi, rxo := emit (.byte x last) d.rxo }) :
    DecSession z m n d' := by
  rw [hd']
  refine ⟨h.queue, h.ended, h.maxerr, h.taken, h.fault, h.report, fun ev hev => ?_⟩
  obtain hev | hev := List.mem_append.1 hev
  · exact h.trace ev hev
  · exact ⟨x, last, List.mem_singleton.1 hev⟩

/-- The chunk of a Block is emitted, and DEC stands at the next frame (47 R293). -/
theorem DecDraining.runs {l : List Byte} {d : Dec} {z : List Bit} {m n m' n' : Nat} {o : StreamEnd}
    {rest : List RxoEvent} (hdrain : DecDraining l d) (hl : l ≠ []) (h : DecSession z m n d)
    (hrest : ∀ d', d'.st = .pfx → d'.nb = 0 → DecSession z m n d' → DecRuns o m' n' d' rest) :
    DecRuns o m' n' d (chunkEvents l ++ rest) := by
  induction l generalizing d with
  | nil => exact absurd rfl hl
  | cons x l ih =>
    rw [chunkEvents_cons, List.cons_append]
    obtain hd | hd := Nat.eq_zero_or_pos d.rxo.demand
    · exact comesToWait_of_no_demand (decStep_of_no_demand hd) hd (List.cons_ne_nil _ _)
    · have hlen := hdrain.length_eq
      have holen := hdrain.olen
      obtain ⟨hx, hbytes⟩ := hdrain.bytes_eq
      have hlast : decide (d.oi.toNat + 1 = d.olen.toNat) = decide (l = []) :=
        decide_eq_decide.2 (by rw [← List.length_eq_zero_iff]; omega)
      have hdrained := decStep_of_drain hd hdrain.st
      by_cases hl' : l = []
      · have hend : d.oi.toNat + 1 = d.olen.toNat := by simpa [hl'] using hlen
        rw [drainByte_of_last (by omega) hend, hx, hlast] at hdrained
        refine comesToWait_of_emit hdrained hd rfl ?_
        rw [hl']
        exact hrest _ rfl hdrain.nb (h.emit rfl)
      · have hlt : d.oi.toNat + 1 < d.olen.toNat := by have := List.length_pos_iff.2 hl'; omega
        have hoi : (d.oi + 1).toNat = d.oi.toNat + 1 := by bv_omega
        rw [drainByte_of_lt (by omega) hlt, hx, hlast] at hdrained
        refine comesToWait_of_emit hdrained hd rfl (ih ⟨hdrain.st, hdrain.nb, hoi.trans_lt hlt, holen, ?_⟩
          hl' (h.emit rfl))
        simp only [hoi]
        exact hbytes

/-! ### The frames -/

section
variable {p : Byte} {rest : List Byte} {m : Nat}

theorem frDec_of_cut (h : rest.length < p.toNat) :
    frDec (p :: rest) m = ⟨[], .fault .truncatedPayload, m, rest.length + 1⟩ := by
  rw [frDec_cons, frDecTurn, if_pos h]

variable (hlen : p.toNat ≤ rest.length)
include hlen

theorem frDec_of_short (h6 : p.toNat < 6) : frDec (p :: rest) m = ⟨[], .fault .frameTooShort, m, 1 + p.toNat⟩ := by
  rw [frDec_cons, frDecTurn, if_neg hlen.not_gt, if_pos h6]

variable (h6 : 6 ≤ p.toNat)
include h6

theorem frDec_of_uncorrectable (h : rsDec (rest.take p.toNat) = .uncorrectable) :
    frDec (p :: rest) m = ⟨[], .fault .uncorrectable, m, 1 + p.toNat⟩ := by
  simp only [frDec_cons, frDecTurn, if_neg hlen.not_gt, if_neg h6.not_gt, h]

theorem frDec_of_eof {e : Nat} (h : rsDec (rest.take p.toNat) = .ok [] e) :
    frDec (p :: rest) m = ⟨[], .done, max m e, 1 + p.toNat⟩ := by
  simp only [frDec_cons, frDecTurn, if_neg hlen.not_gt, if_neg h6.not_gt, h, List.length_nil, if_true]

theorem frDec_of_block {b : List Byte} {e : Nat} (h : rsDec (rest.take p.toNat) = .ok b e) (hb : b ≠ []) :
    frDec (p :: rest) m = { frDec (rest.drop p.toNat) (max m e) with
      blocks := b :: (frDec (rest.drop p.toNat) (max m e)).blocks
      consumed := 1 + p.toNat + (frDec (rest.drop p.toNat) (max m e)).consumed } := by
  simp only [frDec_cons, frDecTurn, if_neg hlen.not_gt, if_neg h6.not_gt, h, if_neg (mt List.length_eq_zero_iff.1 hb)]

end

theorem streamEvents_ne_nil (r : StreamResult) : streamEvents r ≠ [] := by simp [streamEvents]

theorem bitsTakenFrom_of_endsInFrame {y : List Byte} {k : Nat} {r : StreamResult} (h : endsInFrame r.outcome = true) :
    bitsTakenFrom y k r = 8 * y.length + k := if_pos h

/-- What a run of DEC from `d` to its wait has to be, `r` being what FR.DEC gives for the bytes `y` before `k` bits. -/
def DecRunsTo (y : List Byte) (k n : Nat) (r : StreamResult) (d : Dec) : Prop :=
  DecRuns r.outcome r.maxerr (n + bitsTakenFrom y k r) d (streamEvents r)

theorem DecSession.endOfStream {z : List Bit} {m n e : Nat} {d : Dec} {v : Vector Byte 255} (h : DecSession z m n d)
    (hmax : (frMaxupd e { d with buf := v }).maxerr.toNat = max d.maxerr.toNat e) :
    DecEnded .done (max m e) n (endOfStream (frMaxupd e { d with buf := v })) := by
  rw [h.maxerr] at hmax
  refine ⟨rfl, hmax, h.taken, fun _ => ⟨h.fault, ?_⟩, nofun⟩
  rw [← hmax, Machine.endOfStream, reportFlag_eq, decide_eq_true_iff]
  exact not_congr BitVec.toNat_inj.symm

theorem decodeFrame_rxo (d : Dec) : (decodeFrame d).rxo = d.rxo := (decodeFrame_withDecPorts d.rxi d.rxo d).2.2

theorem decDraining_of_block {b : List Byte} {e : Nat} {d : Dec} (hlen : b.length ≤ 249) (hb : b ≠ [])
    (hnb : d.nb = 0) :
    DecDraining b { frMaxupd e { d with buf := bufFill d.buf b } with
      olen := BitVec.ofNat 8 b.length, oi := 0, st := .drain } := by
  have holen : (BitVec.ofNat 8 b.length).toNat = b.length := Nat.mod_eq_of_lt (by omega)
  refine ⟨rfl, hnb, ?_, holen.trans_le hlen, ?_⟩
  · exact (List.length_pos_iff.2 hb).trans_eq holen.symm
  · simp only [holen]
    exact bufTake_bufFill d.buf b (by omega)

/-- A Block before the rest of the session, in events and in bits. -/
theorem decRunsTo_of_block {p : Byte} {w rest : List Byte} {k n : Nat} {r : StreamResult} {d : Dec} (b : List Byte)
    (hlen : w.length = p.toNat)
    (h : DecRuns r.outcome r.maxerr (n + 8 * (1 + p.toNat) + bitsTakenFrom rest k r) d
      (chunkEvents b ++ streamEvents r)) :
    DecRunsTo (p :: (w ++ rest)) k n { r with blocks := b :: r.blocks, consumed := 1 + p.toNat + r.consumed } d := by
  have hbits : bitsTakenFrom (p :: (w ++ rest)) k
      { r with blocks := b :: r.blocks, consumed := 1 + p.toNat + r.consumed } =
      8 * (1 + p.toNat) + bitsTakenFrom rest k r := by
    simp only [bitsTakenFrom, List.length_cons, List.length_append, hlen]
    split <;> omega
  have hevents : streamEvents { r with blocks := b :: r.blocks, consumed := 1 + p.toNat + r.consumed } =
      chunkEvents b ++ streamEvents r := by simp [streamEvents]
  rw [DecRunsTo, hbits, hevents, ← Nat.add_assoc]
  exact h

/-- A frame with its payload whole: `D_DECODE` ends the session, or it drains a Block and the session goes on with the
bytes `rest` (45 R226). -/
theorem decRunsTo_decodeFrame {p : Byte} {w rest : List Byte} {part : List Bit} {m n : Nat} {d : Dec}
    (hlen : w.length = p.toNat) (hnb : d.nb = 0) (hp : d.pfx = p)
    (hbuf : bufTake d.buf p.toNat = w)
    (h : DecSession (bpExpand .lsbFirst rest ++ part) m (n + 8 * (1 + p.toNat)) d)
    (hrest : ∀ m' d', d'.st = .pfx → d'.nb = 0 →
      DecSession (bpExpand .lsbFirst rest ++ part) m' (n + 8 * (1 + p.toNat)) d' →
      DecRunsTo rest part.length (n + 8 * (1 + p.toNat)) (frDec rest m') d') :
    DecRunsTo (p :: (w ++ rest)) part.length n (frDec (p :: (w ++ rest)) m) (decodeFrame d) := by
  have hle : p.toNat ≤ (w ++ rest).length := by simp [← hlen]
  have htake : (w ++ rest).take p.toNat = w := by rw [← hlen, List.take_left]
  have hdrop : (w ++ rest).drop p.toNat = rest := by rw [← hlen, List.drop_left]
  subst hp
  obtain h6 | h6 := Nat.lt_or_ge d.pfx.toNat 6
  · rw [frDec_of_short hle h6, decodeFrame_of_short h6]
    exact decRuns_raiseFault _ h
  · cases hdec : rsDec w with
    | uncorrectable =>
      rw [frDec_of_uncorrectable hle h6 (by rw [htake, hdec]), decodeFrame_of_uncorrectable h6 (by rw [hbuf, hdec])]
      exact decRuns_raiseFault _ h
    | ok b e =>
      have hmax := toNat_frMaxupd_maxerr (e := e) (by have := (rsDec_ok_length hdec).2; omega)
        { d with buf := bufFill d.buf b }
      by_cases hb : b = []
      · subst hb
        rw [frDec_of_eof hle h6 (by rw [htake, hdec]), decodeFrame_of_eof h6 (by rw [hbuf, hdec])]
        exact decRuns_ended (h.endOfStream hmax) h.trace
      · rw [frDec_of_block hle h6 (by rw [htake, hdec]) hb, decodeFrame_of_block h6 (by rw [hbuf, hdec]) hb, hdrop]
        have hblen : b.length ≤ 249 := by have := (rsDec_ok_length hdec).1; omega
        refine (decRunsTo_of_block b hlen ?_)
        refine (decDraining_of_block hblen hb hnb).runs hb (m := max m e)
          ⟨h.queue, h.ended, ?_, h.taken, h.fault, h.report,
          h.trace⟩ (hrest (max m e))
        exact hmax.trans (by rw [h.maxerr])

theorem decRunsTo_receiving {p : Byte} {w rest : List Byte} {part : List Bit} {m n : Nat} {d : Dec}
    (hlen : w.length = p.toNat)
    (h : DecSession (bpExpand .lsbFirst rest ++ part) m (n + 8 * (1 + p.toNat))
      (receiving p w (bpExpand .lsbFirst rest ++ part) d))
    (hrest : ∀ m' d', d'.st = .pfx → d'.nb = 0 →
      DecSession (bpExpand .lsbFirst rest ++ part) m' (n + 8 * (1 + p.toNat)) d' →
      DecRunsTo rest part.length (n + 8 * (1 + p.toNat)) (frDec rest m') d') :
    DecRunsTo (p :: (w ++ rest)) part.length n (frDec (p :: (w ++ rest)) m)
      (receiving p w (bpExpand .lsbFirst rest ++ part) d) := by
  obtain hd | hd := Nat.eq_zero_or_pos d.rxo.demand
  · exact comesToWait_of_no_demand (decStep_of_no_demand hd) hd (streamEvents_ne_nil _)
  · exact comesToWait_of_moves (decStep_receiving_of_complete hd hlen _) (decodeFrame_rxo _)
      (decRunsTo_decodeFrame hlen rfl rfl (bufTake_frameReceived hlen d) h hrest)

theorem decRunsTo_frDec {y : List Byte} {part : List Bit} (hpart : part.length < 8) {m n : Nat} {d : Dec}
    (hst : d.st = .pfx) (hnb : d.nb = 0) (h : DecSession (bpExpand .lsbFirst y ++ part) m n d) :
    DecRunsTo y part.length n (frDec y m) d := by
  induction hy : y.length using Nat.strong_induction_on generalizing y m n d with
  | _ k ih =>
    cases y with
    | nil =>
      rw [frDec_nil]
      rw [DecRunsTo, bitsTakenFrom_of_endsInFrame rfl, List.length_nil, Nat.mul_zero, Nat.zero_add]
      exact decRuns_cutGroup hpart (.inl ⟨hst, rfl⟩) hnb h
    | cons p rest =>
      obtain hcut | hle := Nat.lt_or_ge rest.length p.toNat
      · rw [frDec_of_cut hcut, DecRunsTo, bitsTakenFrom_of_endsInFrame rfl, List.length_cons, Nat.add_comm rest.length,
          ← Nat.add_assoc]
        exact decRuns_frame hst hnb h hcut.le (streamEvents_ne_nil _)
          (decRuns_cutGroup hpart (.inr ⟨if_neg hcut.ne, rfl⟩) rfl h.receiving)
      · obtain ⟨w, rest, rfl, hlen⟩ : ∃ w rest', rest = w ++ rest' ∧ w.length = p.toNat :=
          ⟨_, _, (List.take_append_drop p.toNat rest).symm, List.length_take_of_le hle⟩
        rw [← List.cons_append, bpExpand_append, List.append_assoc] at h
        refine decRuns_frame hst hnb h hlen.le (streamEvents_ne_nil _)
          (decRunsTo_receiving hlen ?_ fun m' d' hst' hnb' h' => ?_)
        · rw [← hlen]
          exact h.receiving
        · exact ih rest.length (by simp at hy; omega) hst' hnb' h' rfl

/-- Settles O53: the bits are whole bytes and a partial group, and each frame of the bytes is a turn of FR.DEC. -/
theorem decComputesBsDec : Obligations.DecComputesBsDec := by
  intro d z k
  obtain ⟨part, hpart, hz⟩ := exists_eq_bpExpand_append .lsbFirst z
  generalize bpGroup .lsbFirst z = y at hz
  subst hz
  obtain ⟨steps, hw, htrace, hend⟩ := decRunsTo_frDec hpart (y := y) (m := 0) (n := 0)
    (d := { startDec d with
      rxi := { queue := bpExpand .lsbFirst y ++ part, ended := true, n := 0 }
      rxo := { trace := [], demand := k, n := 0 } })
    rfl rfl ⟨rfl, rfl, rfl, rfl, rfl, rfl, nofun⟩
  rw [← decRun_eq_turns] at hw htrace hend
  refine ⟨steps, ?_⟩
  rw [bsDec_eq .lsbFirst y hpart]
  refine ⟨hw, htrace, fun hk => ?_⟩
  obtain ⟨-, hmaxerr, htaken, hdone, hfault⟩ := hend hk
  exact ⟨hmaxerr, htaken.trans (Nat.zero_add _), hdone, hfault⟩

end Sys2Proof.Machine
end
